-- ==== Sys2Proof/Word.lean ====
section
/-! DEFINITION. The word types of the block: 32-bit words, 16-bit half words, bytes (00_scope.md R11). -/

namespace Sys2Proof

/-- u32 and s32 (R11): a 32-bit field. -/
abbrev Word := BitVec 32

/-- u16 and s16 (R11): a 16-bit field. -/
abbrev Half := BitVec 16

/-- u8 (R11): an 8-bit field. -/
abbrev Byte := BitVec 8

end Sys2Proof
end

