-- ==== Sys2Proof/Syntax.lean ====
section
/-! DEFINITION. The command on the command port (30_encoding.md R56) and the nine commands of the opcode table
(R59), each with the operands it uses (R58). -/

namespace Sys2Proof

/-- A command as the host writes it: four 32-bit words (R56). -/
structure Command where
  cmd : Word
  arg0 : Word
  arg1 : Word
  arg2 : Word
deriving DecidableEq, Repr

/-- One constructor per row of the opcode table (R59). Counts, lengths and offsets are the unsigned integers R58 makes
of the operand words, so sums and products of them do not wrap; `Instr.wf` says which values a word can give. -/
inductive Instr where
  /-- ENV.DETECT d, n (R70): decimation exponent, number of IQ pairs -/
  | envDetect (d n : Nat)
  /-- LPF.RESET (R75) -/
  | lpfReset
  /-- LPF.FILTER len (R76): number of samples -/
  | lpfFilter (len : Nat)
  /-- FM.RESET (R84) -/
  | fmReset
  /-- FM.DEMOD n (R85): number of IQ pairs -/
  | fmDemod (n : Nat)
  /-- CRC.COMPUTE off, len, init (R90): first byte, number of bytes, ARG2[15:0] -/
  | crcCompute (off len : Nat) (init : Half)
  /-- CRC.VERIFY off, len (R91): first byte, length with the 2 CRC bytes -/
  | crcVerify (off len : Nat)
  /-- FRAME.DECODE nbits (R108): number of valid bits in BIT_IN -/
  | frameDecode (nbits : Nat)
  /-- FRAME.PARSE nbytes (R109): number of valid bytes in FRAME_BUF -/
  | frameParse (nbytes : Nat)
deriving DecidableEq, Repr

end Sys2Proof
end

