-- ==== Sys2Proof/WellFormed.lean ====
section
/-! DEFINITION. Which instructions a command can encode: operands are 32-bit words and DEC is a 4-bit field
(30_encoding.md R57, R58). -/

namespace Sys2Proof

/-- The value fits an operand word (R58). -/
def wordFits (n : Nat) : Bool := decide (n < 2 ^ 32)

/-- The value fits CMD[11:8] (R57). -/
def decFits (d : Nat) : Bool := decide (d < 2 ^ 4)

/-- Every operand of the instruction fits its field. -/
def Instr.wf : Instr → Bool
  | .envDetect d n => decFits d && wordFits n
  | .lpfReset => true
  | .lpfFilter len => wordFits len
  | .fmReset => true
  | .fmDemod n => wordFits n
  | .crcCompute off len _ => wordFits off && wordFits len
  | .crcVerify off len => wordFits off && wordFits len
  | .frameDecode nbits => wordFits nbits
  | .frameParse nbytes => wordFits nbytes

end Sys2Proof
end

