-- ==== Sys2Proof/Decode.lean ====
section
/-! DEFINITION. Decoding a command (30_encoding.md R57 to R62) and encoding an instruction (R61). -/

namespace Sys2Proof

/-- CMD[7:0], the OPC field (R57). -/
def Command.opc (c : Command) : Byte := c.cmd.extractLsb' 0 8

/-- CMD[11:8], the DEC field (R57). -/
def Command.dec (c : Command) : BitVec 4 := c.cmd.extractLsb' 8 4

/-- CMD[31:12], the reserved field (R57). -/
def Command.rsv (c : Command) : BitVec 20 := c.cmd.extractLsb' 12 20

/-- The rows of the opcode map (R59), by mnemonic. -/
inductive Opcode where
  | envDetect
  | lpfReset
  | lpfFilter
  | fmReset
  | fmDemod
  | crcCompute
  | crcVerify
  | frameDecode
  | frameParse
deriving DecidableEq, Repr

/-- The OPC number of a row (R59). -/
def Opcode.opc : Opcode → Byte
  | .envDetect => 0x10
  | .lpfReset => 0x20
  | .lpfFilter => 0x21
  | .fmReset => 0x30
  | .fmDemod => 0x31
  | .crcCompute => 0x40
  | .crcVerify => 0x41
  | .frameDecode => 0x50
  | .frameParse => 0x51

/-- One row of the opcode map (R59): the word `pattern` (the table's "match") under `mask`. -/
structure OpcodeRow where
  op : Opcode
  pattern : Word
  mask : Word
deriving DecidableEq, Repr

/-- The opcode map, in the order of R59. -/
def opcodeMap : List OpcodeRow :=
  [ ⟨.envDetect,   0x00000010, 0xFFFFF0FF⟩,
    ⟨.lpfReset,    0x00000020, 0xFFFFFFFF⟩,
    ⟨.lpfFilter,   0x00000021, 0xFFFFFFFF⟩,
    ⟨.fmReset,     0x00000030, 0xFFFFFFFF⟩,
    ⟨.fmDemod,     0x00000031, 0xFFFFFFFF⟩,
    ⟨.crcCompute,  0x00000040, 0xFFFFFFFF⟩,
    ⟨.crcVerify,   0x00000041, 0xFFFFFFFF⟩,
    ⟨.frameDecode, 0x00000050, 0xFFFFFFFF⟩,
    ⟨.frameParse,  0x00000051, 0xFFFFFFFF⟩ ]

/-- A CMD word selects a row when it equals the pattern in every bit of the mask (R59). -/
def OpcodeRow.selects (r : OpcodeRow) (cmd : Word) : Bool := cmd &&& r.mask == r.pattern

/-- The first row the CMD word selects (R62); at most one does. -/
def findOpcode (cmd : Word) : Option Opcode := (opcodeMap.find? (·.selects cmd)).map (·.op)

/-- Why a CMD word is illegal: the three cases of R60. -/
inductive DecodeError where
  /-- RSV is not 0. -/
  | reservedBits
  /-- DEC is not 0 and OPC is not 0x10. -/
  | decimationField
  /-- The OPC value is not in the map. -/
  | unknownOpcode
deriving DecidableEq, Repr

/-- The name for an illegal CMD word: where several cases of R60 hold, the first of them in the order RSV, DEC, OPC
(DESIGN CHOICE, log 12: the spec gives one fault for all three). -/
def illegalReason (c : Command) : DecodeError :=
  if c.rsv ≠ 0 then .reservedBits
  else if c.dec ≠ 0 ∧ c.opc ≠ Opcode.envDetect.opc then .decimationField
  else .unknownOpcode

/-- Operand assembly (R58): unsigned words; CRC.COMPUTE takes ARG2[15:0]; unused words are ignored. -/
def assemble (op : Opcode) (c : Command) : Instr :=
  match op with
  | .envDetect => .envDetect c.dec.toNat c.arg0.toNat
  | .lpfReset => .lpfReset
  | .lpfFilter => .lpfFilter c.arg0.toNat
  | .fmReset => .fmReset
  | .fmDemod => .fmDemod c.arg0.toNat
  | .crcCompute => .crcCompute c.arg0.toNat c.arg1.toNat (c.arg2.extractLsb' 0 16)
  | .crcVerify => .crcVerify c.arg0.toNat c.arg1.toNat
  | .frameDecode => .frameDecode c.arg0.toNat
  | .frameParse => .frameParse c.arg0.toNat

/-- Decoding (R62): total on every command, an illegal word refused by name (R60). -/
def decode (c : Command) : Except DecodeError Instr :=
  match findOpcode c.cmd with
  | some op => .ok (assemble op c)
  | none => .error (illegalReason c)

/-- The row of the opcode map an instruction belongs to. -/
def Instr.opcode : Instr → Opcode
  | .envDetect .. => .envDetect
  | .lpfReset => .lpfReset
  | .lpfFilter .. => .lpfFilter
  | .fmReset => .fmReset
  | .fmDemod .. => .fmDemod
  | .crcCompute .. => .crcCompute
  | .crcVerify .. => .crcVerify
  | .frameDecode .. => .frameDecode
  | .frameParse .. => .frameParse

/-- The OPC number of an instruction (R59). -/
def Instr.opc (i : Instr) : Byte := i.opcode.opc

/-- The CMD word of an instruction without a decimation field (R61). -/
def plainCmd (op : Opcode) : Word := op.opc.setWidth 32

/-- The words of an instruction (R61): operands in ARG0, ARG1, ARG2, unused operand words 0. -/
def encode : Instr → Command
  | .envDetect d n => ⟨plainCmd .envDetect ||| (BitVec.ofNat 32 d <<< 8), BitVec.ofNat 32 n, 0, 0⟩
  | .lpfReset => ⟨plainCmd .lpfReset, 0, 0, 0⟩
  | .lpfFilter len => ⟨plainCmd .lpfFilter, BitVec.ofNat 32 len, 0, 0⟩
  | .fmReset => ⟨plainCmd .fmReset, 0, 0, 0⟩
  | .fmDemod n => ⟨plainCmd .fmDemod, BitVec.ofNat 32 n, 0, 0⟩
  | .crcCompute off len init => ⟨plainCmd .crcCompute, BitVec.ofNat 32 off, BitVec.ofNat 32 len, init.setWidth 32⟩
  | .crcVerify off len => ⟨plainCmd .crcVerify, BitVec.ofNat 32 off, BitVec.ofNat 32 len, 0⟩
  | .frameDecode nbits => ⟨plainCmd .frameDecode, BitVec.ofNat 32 nbits, 0, 0⟩
  | .frameParse nbytes => ⟨plainCmd .frameParse, BitVec.ofNat 32 nbytes, 0, 0⟩

/-- The command whose lowest `nbits` bits are those of w and whose other bits are 0, CMD in bits 31..0, ARG0 in bits
63..32, ARG1 in bits 95..64, ARG2 in bits 127..96 (DESIGN CHOICE, log 12: the port has no bit order across words). -/
def commandOfBits (nbits w : Nat) : Command :=
  let v := BitVec.ofNat 128 (w % 2 ^ nbits)
  ⟨v.extractLsb' 0 32, v.extractLsb' 32 32, v.extractLsb' 64 32, v.extractLsb' 96 32⟩

/-- What the decoder reads from an instruction whose bits are w; none where it refuses. -/
def decodeTableWord (nbits w : Nat) : Option Instr := (decode (commandOfBits nbits w)).toOption

end Sys2Proof
end

