-- ==== Sys2Proof/Config.lean ====
section
/-! DEFINITION. The parameters a block is built with (00_scope.md R7, R9, R21), the reference values the spec uses for
its test vectors (R10), and the uninterpreted constants that stand for what the spec leaves open. -/

namespace Sys2Proof

/-- A coefficient set (a1, b0, b1) of a first-order filter: each an s16 integer c worth c / 2^15 (R9, R72). -/
structure Coefs where
  a1 : Half
  b0 : Half
  b1 : Half
deriving DecidableEq, Repr

/-- FM_OUT_WIDTH: 16 or 32 (R7, D17). -/
inductive FmWidth where
  | w16
  | w32
deriving DecidableEq, Repr

/-- The pattern stands in bits at position p: p + |pattern| is at most |bits|, and the bits there are the pattern
(R92). -/
def PatternStands (bits pattern : List Bool) (p : Nat) : Prop :=
  p + pattern.length ≤ bits.length ∧ (bits.drop p).take pattern.length = pattern

/-- A SEARCH of (bits, start bit, pattern) that answers a position, or none for NotFound, with the half of the contract
of R92 that the block cannot check: NotFound only where the pattern stands nowhere from the start bit on. The other half
may be broken, and the block checks it. The default only shows that there is such a function. -/
structure SearchFn where
  run : List Bool → Nat → List Bool → Option Nat := fun _ start _ => some start
  notFound : ∀ bits start pattern, run bits start pattern = none → ∀ q, start ≤ q → ¬PatternStands bits pattern q := by
    intro _ _ _ h; cases h
deriving Inhabited

/-- What the 8N1 character format leaves to EXTRACT (R67, R93, U15): where each data bit of the byte stands among the
eight of a character, and which levels its start bit and its stop bit have. The defaults are those of the informative
realisation of R93. -/
structure CharFormat where
  place : Fin 8 → Fin 8 := id
  place_inj : ∀ i j, place i = place j → i = j := by intro _ _ h; exact h
  startBit : Bool := false
  stopBit : Bool := true

/-- The ten bits from q on are one well-framed character: a start bit, eight data bits, no parity bit and one stop bit
(R67). -/
def CharFormat.framed (f : CharFormat) (bits : List Bool) (q : Nat) : Bool :=
  bits[q]? == some f.startBit && bits[q + 9]? == some f.stopBit

/-- The byte b is the eight data bits of the character at q (R67). -/
def CharFormat.carries (f : CharFormat) (bits : List Bool) (q : Nat) (b : Byte) : Prop :=
  ∀ i : Fin 8, bits[q + 1 + (f.place i).val]? = some (b.getLsbD i.val)

/-- The bytes come from 8N1 characters in bits[e .. stop), ten bits per byte (R67, R93, R108): each has a character of
its own, and one that is well framed carries the byte. As long as every character was well framed (inRun), the next one
that is well framed starts where the last one ended (R97; DEDUCED, log 20). Which byte a badly framed character gives,
where the characters after it start and where the bytes end are EXTRACT's own (R93). -/
def CharFormat.Reads (f : CharFormat) (bits : List Bool) (stop : Nat) : Bool → Nat → List Byte → Prop
  | _, _, [] => True
  | inRun, e, b :: bs => ∃ q, e ≤ q ∧ q + 10 ≤ stop ∧
      (inRun = true → f.framed bits e = true → q = e) ∧
      (f.framed bits q = true → f.carries bits q b) ∧
      f.Reads bits stop (inRun && f.framed bits e) (q + 10) bs

/-- An EXTRACT of (bits, start bit, available bits) with the contract of R93: what it answers is read from 8N1
characters of its format among the available bits. The default only shows that there is such a function. -/
structure ExtractFn where
  format : CharFormat := {}
  run : List Bool → Nat → Nat → List Byte := fun _ _ _ => []
  is8N1 : ∀ bits start avail, format.Reads bits (start + avail) true start (run bits start avail) := by
    intro _ _ _; exact True.intro
deriving Inhabited

/-- Which SEARCH the block is built with (R7, R92). `least` is the spec's reference SEARCH (the least matching
position); `always p` answers Found(p) whatever the bits are, so it breaks the checked half of the contract on most of
them; `other k` is the k-th unspecified one, given by `Config.otherSearch` (DESIGN CHOICE, log 3). All of them keep the
NotFound half of the contract. -/
inductive SearchImpl where
  | least
  | always (pos : Nat)
  | other (k : Nat)
deriving DecidableEq, Repr

/-- Which EXTRACT the block is built with (R7, R93). `uart8n1` is the informative realisation of R93; `other k` is the
k-th unspecified one, given by `Config.otherExtract` (DESIGN CHOICE, log 3). All of them read 8N1 characters, ten bits
per byte. -/
inductive ExtractImpl where
  | uart8n1
  | other (k : Nat)
deriving DecidableEq, Repr

/-- The parameters of R7. They are constants of a block (R21): no step changes them. The two that have a default in R7
have it here: it is what parameters written without that field hold, and a block may be built with another. -/
structure Params where
  /-- COEF_ENV -/
  coefEnv : Coefs
  /-- COEF_FM -/
  coefFm : Coefs
  /-- CRC_INIT[0..7], in table order -/
  crcInit : Vector Half 8
  /-- SYNC_PATTERN, earliest bit first -/
  syncPattern : List Bool
  /-- SYNC_EXTRACT_OFFSET, in bits; default 0 (R7, D27) -/
  syncExtractOffset : Nat := 0
  /-- SEARCH -/
  search : SearchImpl
  /-- EXTRACT -/
  extract : ExtractImpl
  /-- FRAME_CAP, in bytes -/
  frameCap : Nat
  /-- N_IQ, in bytes -/
  nIq : Nat
  /-- N_ENV -/
  nEnv : Nat
  /-- N_LPF -/
  nLpf : Nat
  /-- N_FM -/
  nFm : Nat
  /-- N_BITS -/
  nBits : Nat
  /-- FM_OUT_WIDTH; default 16 (R7, D17) -/
  fmOutWidth : FmWidth := .w16
  /-- MODEL_NAME -/
  modelName : String
  /-- DIAG_ENABLE -/
  diagEnable : Bool
deriving DecidableEq, Repr

/-- The constraints R7 puts on the parameters: FRAME_CAP is at least SANITY_MIN = 5, and SYNC_PATTERN is a non-empty
sequence no longer than N_BITS. The ranges of the coefficients, of CRC_INIT and of FM_OUT_WIDTH, and the contracts of
SEARCH (`SearchFn`) and EXTRACT (`ExtractFn`), are in the types. -/
def Params.wf (p : Params) : Bool :=
  decide (5 ≤ p.frameCap) && !p.syncPattern.isEmpty && decide (p.syncPattern.length ≤ p.nBits)

/-- The reference values of R10, which the spec uses for its test vectors and nowhere else. -/
def Params.reference : Params where
  coefEnv := ⟨31754, 506, 506⟩
  coefFm := ⟨23807, 4480, 4480⟩
  crcInit := #v[0x1D0F, 0xFFFF, 0x0000, 0x1234, 0xA5A5, 0x5A5A, 0xC0DE, 0xBEEF]
  syncPattern := [false, false, true, false, true, false, true, false, true, true,
                  false, false, true, false, true, false, true, false, true, true]
  search := .least
  extract := .uart8n1
  frameCap := 96
  nIq := 64
  nEnv := 32
  nLpf := 32
  nFm := 32
  nBits := 1024
  modelName := "REF"
  diagEnable := true

/-- Parameters that meet the constraints of R7. The default only shows that there are some. -/
structure ValidParams where
  val : Params := Params.reference
  ok : val.wf = true := by decide
deriving Inhabited

namespace Config

/-- The parameters of the block that `State.reset` describes: any that meet R7 (log 1). -/
opaque params : ValidParams

/-- The unspecified SEARCH number k (R92; log 3). -/
opaque otherSearch : Nat → SearchFn

/-- The unspecified EXTRACT number k (R93; log 3). -/
opaque otherExtract : Nat → ExtractFn

/-- The host's local calendar rendering of an epoch value, which the spec leaves to the host (R112, D36; log 15). -/
opaque localtime : Word → String

end Config

end Sys2Proof
end

