-- ==== Sys2Proof/Machine/State.lean ====
section
/-! DEFINITION. The state of one block (10_state.md R22 to R37), its six memories (20_memory.md R38), the moves of the
host (70_reset_and_hazards.md R136), the reasons a step can stop, and the state after reset. -/

namespace Sys2Proof.Machine

open Sys2Proof

/-- The block's fault reasons (R114). A command that raises one goes to a NEXT state (R116). -/
inductive FaultReason where
  | illegalCmd
  | stateUninit
  | lenContract
  | stride
  | bounds
  | unwrittenRead
  | overflow
  | fieldBounds
  | collabContract
deriving DecidableEq, Repr

/-- The result codes of STATUS[3:0] (R25). -/
inductive ResultCode where
  | none
  | done
  | success
  | abortLength
  | failSanity
  | failMic
  | noSync
  | fault
deriving DecidableEq, Repr

/-- The frame decoder's control state (R31). -/
inductive Fsm where
  | idle
  | searchingPreamble
  | extractingBytes
  | dispatchType
  | dispatchSubtype
  | validatingCrc
  | extractingFields
  | emit
  | success
  | abortLength
  | failSanity
  | failMic
  | noSync
deriving DecidableEq, Repr

/-- REC_KIND (R32). -/
inductive RecKind where
  | k55
  | kd2
  | kd5s
  | kd5l
deriving DecidableEq, Repr

/-- The record registers (R32), one constructor per kind: a field absent for a kind is not there to be read. -/
inductive Record where
  /-- subtype 0x55 (R102) -/
  | k55 (dstWan srcWan : Vector Byte 6) (uptime : Word) (src : Vector Byte 4)
  /-- subtype 0xD2 (R103): no field -/
  | kd2
  /-- subtype 0xD5, declared length not 0x47 (R104) -/
  | kd5s (dst src : Vector Byte 4)
  /-- subtype 0xD5, declared length 0x47 (R104) -/
  | kd5l (dst src : Vector Byte 4) (ts uptime : Word) (wan : Vector Byte 6)
deriving DecidableEq, Repr

/-- The events of the output port (R33): EMIT (R110) and DIAG (R111). -/
inductive OutEvent where
  | emit (record : Record)
  | diag (bytes : List Byte)
deriving DecidableEq, Repr

/-- A memory (R38): its written elements as (index, element) pairs, indices strictly rising. An element that is not
listed has not been written since reset and holds no value (R46; log 11). `Memory Byte` is `List Host.Cell`. -/
abbrev Memory (α : Type) := List (Nat × α)

/-- The canonical form of a memory. -/
abbrev Memory.wf {α : Type} (m : Memory α) : Prop := m.Pairwise fun a b => a.1 < b.1

/-- The names of the six memories (R38). -/
inductive MemName where
  | iqIn
  | envOut
  | lpfOut
  | fmOut
  | bitIn
  | frameBuf
deriving DecidableEq, Repr

/-- The names of the state elements the host may read (R22, R36). -/
inductive RegName where
  | lpfValid
  | lpfXp
  | lpfYp
  | fmValid
  | fmAr
  | fmAi
  | fmXdc
  | fmYdc
  | fmYlp
  | status
  | fault
  | result
  | crcIdx
  | flen
  | fsm
  | recValid
  | recKind
  | recSrc
  | recDst
  | recDstWan
  | recSrcWan
  | recWan
  | recUptime
  | recTs
deriving DecidableEq, Repr

/-- A host write of one memory element (R49). A signed element is given as its two's complement, an FM_OUT element as
32 bits whatever its width (log 10). -/
inductive HostWrite where
  | iqIn (i : Nat) (v : Byte)
  | envOut (i : Nat) (v : Half)
  | lpfOut (i : Nat) (v : Half)
  | fmOut (i : Nat) (v : Word)
  | bitIn (i : Nat) (v : Bool)
  | frameBuf (i : Nat) (v : Byte)
deriving DecidableEq, Repr

/-- A host read (R36, R49, R136): a memory element, a state element, an entry of the square ROM, or the events of OUT
from number i on (`out 0` is the whole sequence; the host, which consumes events in order, gives the number it has
consumed). -/
inductive HostRead where
  | mem (m : MemName) (i : Nat)
  | reg (r : RegName)
  | sq (i : Byte)
  | out (i : Nat)
deriving DecidableEq, Repr

/-- What a host read returns. Values are mathematical integers (R11). `noValue` is the answer to a read of a state
element that holds no value (R37) and that R136 says is refused: the host gets nothing, and the block goes on. -/
inductive HostValue where
  | noValue
  | num (v : Int)
  | bytes (bs : List Byte)
  | fsm (f : Fsm)
  | kind (k : RecKind)
  | events (es : List OutEvent)
deriving DecidableEq, Repr

/-- One interaction of the host with the block (R136). -/
inductive HostMove where
  | command (c : Command)
  | reset
  | write (w : HostWrite)
  | read (r : HostRead)
deriving DecidableEq, Repr

/-- The state of one block. The fields from `lpfValid` on are the spec's (R22, R38); `params`, `port` and `lastRead` are
the model's (log 1, log 4, log 5). -/
structure State where
  /-- the block's constants (R7, R21): no step changes them -/
  params : Params
  /-- the host's pending moves, oldest first -/
  port : List HostMove
  /-- what the host's last read returned -/
  lastRead : Option HostValue
  /-- lpf_valid (R23) -/
  lpfValid : Bool
  /-- lpf_xp, u16 (R23) -/
  lpfXp : Half
  /-- lpf_yp, s16 (R23) -/
  lpfYp : Half
  /-- fm_valid (R24) -/
  fmValid : Bool
  /-- fm_ar, s16 (R24) -/
  fmAr : Half
  /-- fm_ai, s16 (R24) -/
  fmAi : Half
  /-- fm_xdc, s32 (R24) -/
  fmXdc : Word
  /-- fm_ydc, s32 (R24) -/
  fmYdc : Word
  /-- fm_ylp, s32 (R24) -/
  fmYlp : Word
  /-- STATUS (R25, R26) -/
  status : Word
  /-- FAULT (R27) -/
  fault : Word
  /-- RESULT (R28) -/
  result : Word
  /-- CRC_IDX (R29) -/
  crcIdx : Byte
  /-- FLEN (R30) -/
  flen : Word
  /-- fsm (R31) -/
  fsm : Fsm
  /-- REC_VALID (R32) -/
  recValid : Bool
  /-- REC_KIND and the record fields (R32), present when REC_VALID = 1 -/
  record : Record
  /-- OUT (R33), oldest event first -/
  out : List OutEvent
  /-- IQ_IN (R39) -/
  iqIn : Memory Byte
  /-- ENV_OUT, u16 -/
  envOut : Memory Half
  /-- LPF_OUT, s16 -/
  lpfOut : Memory Half
  /-- FM_OUT, s16 or s32, held in 32 bits (log 10) -/
  fmOut : Memory Word
  /-- BIT_IN (R40) -/
  bitIn : Memory Bool
  /-- FRAME_BUF -/
  frameBuf : Memory Byte
deriving DecidableEq, Repr

/-- Why a step stops with a fault of the model. All four are raised by a HOST access only, never by a command; each is
safe: the model stops where the spec says that it faults (R32, R49), or gives the access no effect (R14, R45). -/
inductive Fault where
  /-- Raised by a host read of a memory element never written since reset (R49: "a model faults the host's read").
  Safe. -/
  | hostReadUnwritten
  /-- Raised by a host read of a record field that is absent for the kind of the record held (R32: "A field not present
  for the kind holds no value, and reading it is not defined (a model faults)"; U12: "fault on read"). Safe. -/
  | hostReadFieldAbsent
  /-- Raised by a host access to an index outside a memory (R45; log 6). Safe. -/
  | hostIndexOutside
  /-- Raised by a host write of a value outside the element's range (R14; log 6). Safe. -/
  | hostValueRange
deriving DecidableEq, Repr

/-- Why a step is refused. -/
inductive Refusal where
  /-- Raised by an arm of exec for a command that has no meaning yet: none in this model. Safe. -/
  | notModelled (mnemonic : String)
deriving DecidableEq, Repr

/-- The state after reset (R37). The five FM histories, the two LPF histories and REC hold no value there; the zeros and
the kind KD2 are the model's (DESIGN CHOICE, log 7, log 8). -/
def State.reset : State where
  params := Config.params.val
  port := []
  lastRead := none
  lpfValid := false
  lpfXp := 0
  lpfYp := 0
  fmValid := false
  fmAr := 0
  fmAi := 0
  fmXdc := 0
  fmYdc := 0
  fmYlp := 0
  status := 0
  fault := 0
  result := 0
  crcIdx := 0xFF
  flen := 0
  fsm := .idle
  recValid := false
  record := .kd2
  out := []
  iqIn := []
  envOut := []
  lpfOut := []
  fmOut := []
  bitIn := []
  frameBuf := []

end Sys2Proof.Machine
end

