-- ==== Sys2Proof/Machine/Flags.lean ====
section
/-! DEFINITION. The contents of STATUS and FAULT (10_state.md R25 to R27, 60_exceptions.md R114, R116,
45_frame_decoder.md R106): the block's only flag-like state (R34). -/

namespace Sys2Proof.Machine

open Sys2Proof

/-- The numeric code of a fault reason (R114). -/
def FaultReason.code : FaultReason → Byte
  | .illegalCmd => 1
  | .stateUninit => 2
  | .lenContract => 3
  | .stride => 4
  | .bounds => 5
  | .unwrittenRead => 6
  | .overflow => 7
  | .fieldBounds => 8
  | .collabContract => 9

/-- The numeric code of a result (R25). -/
def ResultCode.code : ResultCode → BitVec 4
  | .none => 0
  | .done => 1
  | .success => 2
  | .abortLength => 3
  | .failSanity => 4
  | .failMic => 5
  | .noSync => 6
  | .fault => 15

/-- The STATUS word (R25, R26): code in [3:0], TRUNC in [4], the rest 0. -/
def statusWord (c : ResultCode) (trunc : Bool) : Word :=
  c.code.setWidth 32 ||| (if trunc then 0x10 else 0)

/-- The FAULT word (R27, R116): reason in [7:0], OPC of the command in [15:8], the rest 0. -/
def faultWord (opc : Byte) (r : FaultReason) : Word :=
  (opc.setWidth 32 <<< 8) ||| r.code.setWidth 32

/-- FAULT[7:0] is not 0: the block is halted (R120). -/
def State.halted (s : State) : Bool := s.fault.extractLsb' 0 8 != 0

/-- A terminal state of the frame machine, or IDLE: what fsm may hold between commands (R31). -/
def Fsm.atRest : Fsm → Bool
  | .idle | .success | .abortLength | .failSanity | .failMic | .noSync => true
  | _ => false

/-- The result code of a terminal state (R106). The other states end no command, so their code is never used. -/
def Fsm.resultCode : Fsm → ResultCode
  | .success => .success
  | .abortLength => .abortLength
  | .failSanity => .failSanity
  | .failMic => .failMic
  | .noSync => .noSync
  | _ => .none

/-- STATUS <- 1 (DONE), TRUNC = 0: the last line of every DSP and CRC command's commit (R25, R26). -/
def State.markDone (s : State) : State := { s with status := statusWord .done false }

end Sys2Proof.Machine
end

