-- ==== Sys2Proof/Machine/Ops.lean ====
section
/-! DEFINITION. The primitives every command is written with: arithmetic (00_scope.md R13), memory (R14), fault entry
(60_exceptions.md R116), the way a command ends (R16), and reset, the only way out of a fault (R120, R127). -/

namespace Sys2Proof.Machine

open Sys2Proof

/-! Arithmetic (R13) -/

/-- asr(v, k): the floor of v / 2^k. -/
def asr (v : Int) (k : Nat) : Int := v.fdiv (2 ^ k)

/-- tdiv(a, b): a / b rounded toward zero. -/
def tdiv (a b : Int) : Int := a.tdiv b

/-- The signed 32-bit range of chk32. -/
abbrev inS32 (v : Int) : Prop := -(2 ^ 31) ≤ v ∧ v ≤ 2 ^ 31 - 1

/-- chk32(v): v if it is in the signed 32-bit range, otherwise OVERFLOW. -/
def chk32 (v : Int) : Except FaultReason Int := if inS32 v then .ok v else .error .overflow

/-- wrap_16(v): a signed 16-bit store, as the field's two's complement. -/
def wrap16 (v : Int) : Half := BitVec.ofInt 16 v

/-- wrap_32(v): a signed 32-bit store. -/
def wrap32 (v : Int) : Word := BitVec.ofInt 32 v

/-- mod_32(v) for a natural v: an unsigned 32-bit store. -/
def mod32 (v : Nat) : Word := BitVec.ofNat 32 v

/-- be(B): the big-endian value of a byte sequence (R12). -/
def be (bs : List Byte) : Nat := bs.foldl (fun acc b => acc * 256 + b.toNat) 0

/-! Memory (R14) -/

/-- Element i of a memory, none if it has not been written. -/
def Memory.get? {α : Type} : Memory α → Nat → Option α
  | [], _ => none
  | (j, v) :: rest, i => if i = j then some v else Memory.get? rest i

/-- The memory with element i set to v: the element is replaced if listed, otherwise listed at its place. -/
def Memory.set {α : Type} : Memory α → Nat → α → Memory α
  | [], i, v => [(i, v)]
  | (j, w) :: rest, i, v =>
    if i < j then (i, v) :: (j, w) :: rest
    else if i = j then (i, v) :: rest
    else (j, w) :: Memory.set rest i v

/-- The memory with elements i, i+1, ... set to the values listed. -/
def Memory.setRange {α : Type} (m : Memory α) (i : Nat) : List α → Memory α
  | [] => m
  | v :: vs => Memory.setRange (Memory.set m i v) (i + 1) vs

/-- MemRead(M, i) for a memory of the size given: BOUNDS outside it, UNWRITTEN_READ if never written. -/
def memRead {α : Type} (size : Nat) (m : Memory α) (i : Nat) : Except FaultReason α :=
  if size ≤ i then .error .bounds
  else match Memory.get? m i with
    | some v => .ok v
    | none => .error .unwrittenRead

/-- MemRead of elements i, i+1, ..., i+n-1, in index order. -/
def memReadRange {α : Type} (size : Nat) (m : Memory α) (i : Nat) : Nat → Except FaultReason (List α)
  | 0 => .ok []
  | n + 1 => do
    let v ← memRead size m i
    let vs ← memReadRange size m (i + 1) n
    return v :: vs

/-! Fault entry, the end of a command, reset -/

/-- Fault(r) (R116): STATUS and FAULT are written and nothing else. There is no handler to go to and no return (R121):
the block is halted until reset. -/
def State.takeFault (s : State) (opc : Byte) (r : FaultReason) : State :=
  { s with status := statusWord .fault false, fault := faultWord opc r }

/-- How a command ends (R16, R117), always in a next state: its committed state, or fault entry on the state it began
with. -/
def finish (opc : Byte) (s : State) (r : Except FaultReason State) : Host.Outcome State Fault Refusal :=
  .next (match r with
    | .ok t => t
    | .error f => s.takeFault opc f)

/-- Reset (R127): every state element and memory element as after reset; the parameters keep their values (R21), and the
host keeps its pending moves and what it has read (log 4, log 5). -/
def State.applyReset (s : State) : State :=
  { State.reset with params := s.params, port := s.port, lastRead := s.lastRead }

end Sys2Proof.Machine
end

