-- ==== Sys2Proof/Machine/Operands.lean ====
section
/-! DEFINITION. The operand checks of every command, in the order of 60_exceptions.md R118: STATE_UNINIT, LEN_CONTRACT,
STRIDE, BOUNDS. They look at operands, valid bits and parameters only and read no memory. -/

namespace Sys2Proof.Machine

open Sys2Proof

/-- FILTER_ORDER (R6). -/
def filterOrder : Nat := 1

/-- Raise the fault if the condition holds. -/
def faultIf (c : Prop) [Decidable c] (r : FaultReason) : Except FaultReason Unit :=
  if c then .error r else .ok ()

/-- The stride of a decimation exponent (R58). -/
def strideOf (d : Nat) : Nat := 2 ^ d

/-- The number of outputs of ENV.DETECT (R70). -/
def envOutputs (d n : Nat) : Nat := n / strideOf d

/-- The checks of ENV.DETECT (R70). -/
def checkEnvDetect (p : Params) (d n : Nat) : Except FaultReason Unit := do
  faultIf (n % strideOf d ≠ 0) .stride
  faultIf (p.nIq < 2 * n) .bounds
  faultIf (p.nEnv < envOutputs d n) .bounds

/-- The checks of LPF.FILTER (R76). -/
def checkLpfFilter (p : Params) (valid : Bool) (len : Nat) : Except FaultReason Unit := do
  faultIf (valid = false) .stateUninit
  faultIf (len ≤ filterOrder) .lenContract
  faultIf (p.nEnv < len ∨ p.nLpf < len) .bounds

/-- The checks of FM.DEMOD (R85). -/
def checkFmDemod (p : Params) (valid : Bool) (n : Nat) : Except FaultReason Unit := do
  faultIf (valid = false) .stateUninit
  faultIf (p.nIq < 2 * n ∨ p.nFm < n) .bounds

/-- The checks of CRC.COMPUTE (R90). -/
def checkCrcCompute (p : Params) (off len : Nat) : Except FaultReason Unit :=
  faultIf (p.frameCap < off + len) .bounds

/-- The checks of CRC.VERIFY (R91). -/
def checkCrcVerify (p : Params) (off len : Nat) : Except FaultReason Unit := do
  faultIf (len < 2) .lenContract
  faultIf (p.frameCap < off + len) .bounds

/-- The checks of FRAME.DECODE (R108). -/
def checkFrameDecode (p : Params) (nbits : Nat) : Except FaultReason Unit :=
  faultIf (p.nBits < nbits) .bounds

/-- The checks of FRAME.PARSE (R109). -/
def checkFrameParse (p : Params) (nbytes : Nat) : Except FaultReason Unit :=
  faultIf (p.frameCap < nbytes) .bounds

end Sys2Proof.Machine
end

