-- ==== Sys2Proof/Machine/Envelope.lean ====
section
/-! DEFINITION. The square ROM and ENV.DETECT (41_envelope.md R68 to R71). -/

namespace Sys2Proof.Machine

open Sys2Proof

/-- ENV_CENTER (R6). -/
def envCenter : Int := 127

/-- The square ROM: SQ[i] = (127 - i)^2 (R68). Nothing writes it, so it is no field of State (log 9). -/
def sqRom (i : Byte) : Half := BitVec.ofNat 16 ((envCenter - (i.toNat : Int)) ^ 2).toNat

/-- The envelope of IQ pair i: SQ of the in-phase byte plus SQ of the quadrature byte (R70, R39). -/
def envSample (p : Params) (iq : Memory Byte) (i : Nat) : Except FaultReason Half := do
  let inPhase ← memRead p.nIq iq (2 * i)
  let quadrature ← memRead p.nIq iq (2 * i + 1)
  return sqRom inPhase + sqRom quadrature

/-- The loop of R70 from output index op on, for the number of outputs given. -/
def envLoop (p : Params) (iq : Memory Byte) (stride op : Nat) : Nat → Except FaultReason (List Half)
  | 0 => .ok []
  | m + 1 => do
    let e ← envSample p iq (op * stride)
    let es ← envLoop p iq stride (op + 1) m
    return e :: es

/-- ENV.DETECT up to its commit, and the commit (R70). -/
def envDetect (d n : Nat) (s : State) : Except FaultReason State := do
  checkEnvDetect s.params d n
  let es ← envLoop s.params s.iqIn (strideOf d) 0 (envOutputs d n)
  return ({ s with envOut := Memory.setRange s.envOut 0 es } : State).markDone

/-- ENV.DETECT d, n (R70). -/
def execEnvDetect (d n : Nat) (s : State) : Host.Outcome State Fault Refusal :=
  finish (Opcode.opc .envDetect) s (envDetect d n s)

end Sys2Proof.Machine
end

