-- ==== Sys2Proof/Machine/LowPass.lean ====
section
/-! DEFINITION. The Q15 kernel, LPF.RESET and LPF.FILTER (42_lowpass.md R72 to R79). -/

namespace Sys2Proof.Machine

open Sys2Proof

/-- F_SCALE (R6): coefficients are scaled by 2^15. -/
def fScale : Nat := 15

/-- LPF_KERNEL (R73): each product halved before the sum, the sum shifted by F_SCALE - 1, every shift a floor, every
product and partial sum checked against the signed 32-bit range. -/
def lpfKernel (c : Coefs) (x xp yp : Int) : Except FaultReason Int := do
  let p1 ← chk32 (c.a1.toInt * yp)
  let p2 ← chk32 (c.b0.toInt * x)
  let p3 ← chk32 (c.b1.toInt * xp)
  let t ← chk32 (asr p1 1 + asr p2 1)
  let u ← chk32 (t + asr p3 1)
  return asr u (fScale - 1)

/-- The carried history of the envelope filter: lpf_xp (u16) and lpf_yp (s16) (R23). -/
structure LpfHist where
  xp : Half
  yp : Half
deriving DecidableEq, Repr

/-- One sample of LPF.FILTER: the kernel's result stored with wrap_16 (R76, D11). -/
def lpfSample (c : Coefs) (h : LpfHist) (x : Half) : Except FaultReason Half := do
  let y ← lpfKernel c (x.toNat : Int) (h.xp.toNat : Int) h.yp.toInt
  return wrap16 y

/-- The loop of R76 from sample i on, for the number of samples given: the outputs and the history after them. -/
def lpfLoop (p : Params) (env : Memory Half) (i : Nat) : Nat → LpfHist → Except FaultReason (List Half × LpfHist)
  | 0, h => .ok ([], h)
  | n + 1, h => do
    let x ← memRead p.nEnv env i
    let y ← lpfSample p.coefEnv h x
    let (ys, h') ← lpfLoop p env (i + 1) n ⟨x, y⟩
    return (y :: ys, h')

/-- LPF.RESET (R75). -/
def lpfReset (s : State) : Except FaultReason State :=
  .ok ({ s with lpfXp := 0, lpfYp := 0, lpfValid := true } : State).markDone

/-- LPF.FILTER up to its commit, and the commit (R76). -/
def lpfFilter (len : Nat) (s : State) : Except FaultReason State := do
  checkLpfFilter s.params s.lpfValid len
  let (ys, h) ← lpfLoop s.params s.envOut 0 len ⟨s.lpfXp, s.lpfYp⟩
  return ({ s with lpfOut := Memory.setRange s.lpfOut 0 ys, lpfXp := h.xp, lpfYp := h.yp } : State).markDone

/-- LPF.RESET (R75). -/
def execLpfReset (s : State) : Host.Outcome State Fault Refusal :=
  finish (Opcode.opc .lpfReset) s (lpfReset s)

/-- LPF.FILTER len (R76). -/
def execLpfFilter (len : Nat) (s : State) : Host.Outcome State Fault Refusal :=
  finish (Opcode.opc .lpfFilter) s (lpfFilter len s)

end Sys2Proof.Machine
end

