-- ==== Sys2Proof/Machine/FmDemod.lean ====
section
/-! DEFINITION. The FM step, FM.RESET and FM.DEMOD (43_fm_demod.md R80 to R85). -/

namespace Sys2Proof.Machine

open Sys2Proof

/-- FM_BIAS (R6). -/
def fmBias : Int := 128

/-- DC_LEAK_DIV (R6). -/
def dcLeakDiv : Int := 256

/-- The carried history of the FM demodulator (R24). -/
structure FmHist where
  ar : Half
  ai : Half
  xdc : Word
  ydc : Word
  ylp : Word
deriving DecidableEq, Repr

/-- The phase-difference proxy p = ai*br - ar*bi of the new sample (ar, ai) and the old one (br, bi) (R80 step 3). -/
def phaseDiff (ar ai br bi : Int) : Int := ai * br - ar * bi

/-- The DC blocker (R80 step 4): p - xdc + ydc - ydc/256, each partial result checked. -/
def dcBlock (p xdc ydc : Int) : Except FaultReason Int := do
  let t ← chk32 (p - xdc)
  let u ← chk32 (t + ydc)
  chk32 (u - tdiv ydc dcLeakDiv)

/-- FM_STEP (R80): one output value and the history after it. Every value put into a history field is in that field's
range, so wrap_16 and wrap_32 store it unchanged. -/
def fmStep (c : Coefs) (h : FmHist) (i q : Byte) : Except FaultReason (Int × FmHist) := do
  let ar := (i.toNat : Int) - fmBias
  let ai := (q.toNat : Int) - fmBias
  let p := phaseDiff ar ai h.ar.toInt h.ai.toInt
  let yd ← dcBlock p h.xdc.toInt h.ydc.toInt
  let yl ← lpfKernel c yd h.ydc.toInt h.ylp.toInt
  return (yl, ⟨wrap16 ar, wrap16 ai, wrap32 p, wrap32 yd, wrap32 yl⟩)

/-- wrap_W for W = FM_OUT_WIDTH (R85), as a 32-bit two's complement (log 10). -/
def fmWrap (w : FmWidth) (v : Int) : Word :=
  match w with
  | .w16 => (wrap16 v).signExtend 32
  | .w32 => wrap32 v

/-- The loop of R85 from pair k on, for the number of pairs given: the outputs and the history after them. -/
def fmLoop (p : Params) (iq : Memory Byte) (k : Nat) : Nat → FmHist → Except FaultReason (List Word × FmHist)
  | 0, h => .ok ([], h)
  | n + 1, h => do
    let i ← memRead p.nIq iq (2 * k)
    let q ← memRead p.nIq iq (2 * k + 1)
    let (v, h') ← fmStep p.coefFm h i q
    let (os, h'') ← fmLoop p iq (k + 1) n h'
    return (fmWrap p.fmOutWidth v :: os, h'')

/-- The FM history in the state. -/
def State.fmHist (s : State) : FmHist := ⟨s.fmAr, s.fmAi, s.fmXdc, s.fmYdc, s.fmYlp⟩

/-- The state with the FM history given. -/
def State.setFmHist (s : State) (h : FmHist) : State :=
  { s with fmAr := h.ar, fmAi := h.ai, fmXdc := h.xdc, fmYdc := h.ydc, fmYlp := h.ylp }

/-- FM.RESET (R84). -/
def fmReset (s : State) : Except FaultReason State :=
  .ok ({ s.setFmHist ⟨0, 0, 0, 0, 0⟩ with fmValid := true } : State).markDone

/-- FM.DEMOD up to its commit, and the commit (R85). -/
def fmDemod (n : Nat) (s : State) : Except FaultReason State := do
  checkFmDemod s.params s.fmValid n
  let (os, h) ← fmLoop s.params s.iqIn 0 n s.fmHist
  return ({ s.setFmHist h with fmOut := Memory.setRange s.fmOut 0 os } : State).markDone

/-- FM.RESET (R84). -/
def execFmReset (s : State) : Host.Outcome State Fault Refusal :=
  finish (Opcode.opc .fmReset) s (fmReset s)

/-- FM.DEMOD n (R85). -/
def execFmDemod (n : Nat) (s : State) : Host.Outcome State Fault Refusal :=
  finish (Opcode.opc .fmDemod) s (fmDemod n s)

end Sys2Proof.Machine
end

