-- ==== Sys2Proof/Machine/Collab.lean ====
section
/-! DEFINITION. The collaborators SEARCH and EXTRACT as the block calls them (45_frame_decoder.md R92, R93). -/

namespace Sys2Proof.Machine

open Sys2Proof

/-- The pattern stands in bits at position p: p + |pattern| is at most |bits|, and the bits there are the pattern (the
half of the contract of SEARCH that the block checks, R92). -/
def patternAt (bits pattern : List Bool) (p : Nat) : Bool :=
  decide (p + pattern.length ≤ bits.length) && ((bits.drop p).take pattern.length == pattern)

/-- The least position, from p on and among the number of positions given, where the pattern stands. -/
def leastFrom (bits pattern : List Bool) (p : Nat) : Nat → Option Nat
  | 0 => none
  | n + 1 => if patternAt bits pattern p then some p else leastFrom bits pattern (p + 1) n

/-- The reference SEARCH (R92): the least matching position at or after start. -/
def leastMatch (bits : List Bool) (start : Nat) (pattern : List Bool) : Option Nat :=
  leastFrom bits pattern start (bits.length + 1 - start)

/-- SEARCH(bits, start, pattern) (R92): Found(p) or, as none, NotFound. Whichever it is, it answers NotFound only where
the pattern stands nowhere from start on (`runSearch_notFound` in Laws/Frame.lean). -/
def runSearch (which : SearchImpl) (bits : List Bool) (start : Nat) (pattern : List Bool) : Option Nat :=
  match which with
  | .least => leastMatch bits start pattern
  | .always pos => some pos
  | .other k => (Config.otherSearch k).run bits start pattern

/-- The byte whose data bits are given, least significant first (R93). -/
def byteOfBits : List Bool → Nat
  | [] => 0
  | b :: bs => (if b then 1 else 0) + 2 * byteOfBits bs

/-- The informative EXTRACT (R93) on the bits from the start bit on, for at most the number of characters given: a
character needs start bit 0, else stop; its stop bit must be 1, else stop after it. -/
def uart8n1Chars (bits : List Bool) : Nat → List Byte
  | 0 => []
  | n + 1 =>
    match bits with
    | false :: rest =>
      BitVec.ofNat 8 (byteOfBits (rest.take 8)) ::
        (if rest[8]? = some true then uart8n1Chars (rest.drop 9) n else [])
    | _ => []

/-- The informative EXTRACT (R93): whole characters of 10 bits, as long as 10·(j+1) ≤ avail. -/
def uart8n1 (bits : List Bool) (start avail : Nat) : List Byte :=
  uart8n1Chars (bits.drop start) (avail / 10)

/-- EXTRACT(bits, start, avail) (R93). Whichever it is, it reads 8N1 characters among the available bits, ten bits per
byte (`runExtract_is8N1` in Laws/Frame.lean). -/
def runExtract (which : ExtractImpl) (bits : List Bool) (start avail : Nat) : List Byte :=
  match which with
  | .uart8n1 => uart8n1 bits start avail
  | .other k => (Config.otherExtract k).run bits start avail

end Sys2Proof.Machine
end

