-- ==== Sys2Proof/Machine/Crc.lean ====
section
/-! DEFINITION. CRC16, the candidate search, CRC.COMPUTE and CRC.VERIFY (44_crc.md R86 to R91). -/

namespace Sys2Proof.Machine

open Sys2Proof

/-- CRC_POLY (R6). -/
def crcPoly : Half := 0x1021

/-- One shift of the CRC register (R86). -/
def crcBit (c : Half) : Half :=
  if c.msb then (c <<< 1) ^^^ crcPoly else c <<< 1

/-- n shifts of the CRC register. -/
def crcShift : Nat → Half → Half
  | 0, c => c
  | n + 1, c => crcShift n (crcBit c)

/-- One byte entering the CRC register at the top, and 8 shifts (R86). -/
def crcByte (c : Half) (b : Byte) : Half := crcShift 8 (c ^^^ (b.setWidth 16 <<< 8))

/-- CRC16(D, init) (R86). -/
def crc16 (bs : List Byte) (init : Half) : Half := bs.foldl crcByte init

/-- The candidates in table order from index k on: the first under which the bytes check to rx (R88, R89). -/
def firstMatch (bs : List Byte) (rx : Half) (k : Nat) : List Half → Option (Nat × Half)
  | [] => none
  | v :: vs => if crc16 bs v = rx then some (k, v) else firstMatch bs rx (k + 1) vs

/-- The received CRC field: be of two bytes (R88, R64). -/
def rxCrc (bs : List Byte) : Half := BitVec.ofNat 16 (be bs)

/-- VERIFY(off, len) (R88) on the frame memory b: MATCH(k, v), or none for NOMATCH. -/
def verify (p : Params) (b : Memory Byte) (off len : Nat) : Except FaultReason (Option (Nat × Half)) := do
  let field ← memReadRange p.frameCap b (off + len - 2) 2
  let payload ← memReadRange p.frameCap b off (len - 2)
  return firstMatch payload (rxCrc field) 0 p.crcInit.toList

/-- The CRC_IDX value of a search result (R29): the index, or 0xFF. -/
def crcIdxOf : Option (Nat × Half) → Byte
  | some (k, _) => BitVec.ofNat 8 k
  | none => 0xFF

/-- The RESULT value of a search result (R28): the candidate zero-extended, or 0xFFFFFFFF. -/
def resultOf : Option (Nat × Half) → Word
  | some (_, v) => v.setWidth 32
  | none => 0xFFFFFFFF

/-- CRC.COMPUTE up to its commit, and the commit (R90). -/
def crcCompute (off len : Nat) (init : Half) (s : State) : Except FaultReason State := do
  checkCrcCompute s.params off len
  let bs ← memReadRange s.params.frameCap s.frameBuf off len
  return ({ s with result := (crc16 bs init).setWidth 32 } : State).markDone

/-- CRC.VERIFY up to its commit, and the commit (R91). -/
def crcVerify (off len : Nat) (s : State) : Except FaultReason State := do
  checkCrcVerify s.params off len
  let r ← verify s.params s.frameBuf off len
  return ({ s with crcIdx := crcIdxOf r, result := resultOf r } : State).markDone

/-- CRC.COMPUTE off, len, init (R90). -/
def execCrcCompute (off len : Nat) (init : Half) (s : State) : Host.Outcome State Fault Refusal :=
  finish (Opcode.opc .crcCompute) s (crcCompute off len init s)

/-- CRC.VERIFY off, len (R91). -/
def execCrcVerify (off len : Nat) (s : State) : Host.Outcome State Fault Refusal :=
  finish (Opcode.opc .crcVerify) s (crcVerify off len s)

end Sys2Proof.Machine
end

