-- ==== Sys2Proof/Machine/Frame.lean ====
section
/-! DEFINITION. The frame machine, FRAME.DECODE and FRAME.PARSE (45_frame_decoder.md R94 to R109). -/

namespace Sys2Proof.Machine

open Sys2Proof

/-- TYPE_TAG (R6). -/
def typeTag : Byte := 0x2A

/-- LONG_LEN (R6). -/
def longLen : Nat := 0x47

/-- SANITY_MIN (R6). -/
def sanityMin : Nat := 5

/-- The staged context of a FRAME command (R95). -/
structure FrameCtx where
  /-- the state of the machine -/
  fsm : Fsm
  /-- BIT_IN[0..nbits) (FRAME.DECODE only) -/
  bits : List Bool
  /-- the position SEARCH found -/
  pos : Nat
  /-- n, the staged FLEN -/
  n : Nat
  /-- B, the staged contents of FRAME_BUF -/
  buf : Memory Byte
  /-- the extraction was cut at FRAME_CAP -/
  trunc : Bool
  /-- t, the subtype byte -/
  subtype : Byte
  /-- P, the payload start -/
  payload : Nat
  /-- L, the declared length -/
  len : Nat
  /-- the staged CRC_IDX -/
  crcIdx : Byte
  /-- rec, the record being built -/
  record : Record
  /-- the staged REC_VALID -/
  recValid : Bool
  /-- ev, the output event or none -/
  ev : Option OutEvent
deriving DecidableEq, Repr

/-- B[i] (R14, R95): MemRead of the staged frame memory. -/
def FrameCtx.byte (p : Params) (c : FrameCtx) (i : Nat) : Except FaultReason Byte := memRead p.frameCap c.buf i

/-- SearchingPreamble (R96). -/
def searchingPreamble (p : Params) (c : FrameCtx) : Except FaultReason FrameCtx :=
  match runSearch p.search c.bits 0 p.syncPattern with
  | none => .ok { c with n := 0, fsm := .noSync }
  | some pos =>
    if patternAt c.bits p.syncPattern pos then .ok { c with pos := pos, fsm := .extractingBytes }
    else .error .collabContract

/-- SanityCheck (R97). -/
def sanityCheck (c : FrameCtx) : FrameCtx :=
  { c with fsm := if c.n < sanityMin then .failSanity else .dispatchType }

/-- ExtractingBytes (R97): the extracted bytes are staged at B[0..n), cut at FRAME_CAP. -/
def extractingBytes (p : Params) (c : FrameCtx) : FrameCtx :=
  let start := c.pos + p.syncExtractOffset
  let es := runExtract p.extract c.bits start (c.bits.length - start)
  sanityCheck { c with
    trunc := decide (p.frameCap < es.length)
    n := min es.length p.frameCap
    buf := Memory.setRange c.buf 0 (es.take p.frameCap) }

/-- DispatchType (R98). -/
def dispatchType (p : Params) (c : FrameCtx) : Except FaultReason FrameCtx := do
  let tag ← c.byte p 2
  return { c with fsm := if tag = typeTag then .dispatchSubtype else .abortLength }

/-- The length gate of R99, once the payload start and the declared length are known. -/
def lengthGate (c : FrameCtx) : FrameCtx :=
  { c with fsm := if c.len < 2 ∨ c.n < c.payload + c.len + 2 then .abortLength else .validatingCrc }

/-- DispatchSubtype (R99). -/
def dispatchSubtype (p : Params) (c : FrameCtx) : Except FaultReason FrameCtx := do
  let t ← c.byte p 3
  if t = 0x55 ∨ t = 0xD5 then
    if c.n < 6 then
      return { c with subtype := t, payload := 6, fsm := .abortLength }
    else
      let field ← memReadRange p.frameCap c.buf 4 2
      return lengthGate { c with subtype := t, payload := 6, len := be field }
  else if t = 0xD2 then
    let b ← c.byte p 4
    return lengthGate { c with subtype := t, payload := 5, len := b.toNat }
  else
    return { c with subtype := t, fsm := .abortLength }

/-- ValidatingCrc (R100), with the DIAG event of R111. -/
def validatingCrc (p : Params) (c : FrameCtx) : Except FaultReason FrameCtx := do
  let r ← verify p c.buf c.payload c.len
  match r with
  | some (k, v) => return { c with crcIdx := crcIdxOf (some (k, v)), fsm := .extractingFields }
  | none =>
    if p.diagEnable then
      let bs ← memReadRange p.frameCap c.buf 0 c.n
      return { c with crcIdx := crcIdxOf none, ev := some (.diag bs), fsm := .failMic }
    else
      return { c with crcIdx := crcIdxOf none, fsm := .failMic }

/-- FIELD(off, 4) (R101). -/
def field4 (p : Params) (c : FrameCtx) (off : Nat) : Except FaultReason (Vector Byte 4) := do
  faultIf (c.n < off + 4) .fieldBounds
  let b0 ← c.byte p off
  let b1 ← c.byte p (off + 1)
  let b2 ← c.byte p (off + 2)
  let b3 ← c.byte p (off + 3)
  return #v[b0, b1, b2, b3]

/-- FIELD(off, 6) (R101). -/
def field6 (p : Params) (c : FrameCtx) (off : Nat) : Except FaultReason (Vector Byte 6) := do
  faultIf (c.n < off + 6) .fieldBounds
  let b0 ← c.byte p off
  let b1 ← c.byte p (off + 1)
  let b2 ← c.byte p (off + 2)
  let b3 ← c.byte p (off + 3)
  let b4 ← c.byte p (off + 4)
  let b5 ← c.byte p (off + 5)
  return #v[b0, b1, b2, b3, b4, b5]

/-- be(FIELD(off, 4)) as a u32 (R42). -/
def fieldU32 (p : Params) (c : FrameCtx) (off : Nat) : Except FaultReason Word := do
  let bs ← field4 p c off
  return mod32 (be bs.toList)

/-- The fields of subtype 0x55 (R102). -/
def fields55 (p : Params) (c : FrameCtx) : Except FaultReason Record := do
  let dstWan ← field6 p c 7
  let srcWan ← field6 p c 13
  let uptime ← fieldU32 p c 20
  let src ← field4 p c 26
  return .k55 dstWan srcWan uptime src

/-- The fields of subtype 0xD5 (R104). -/
def fieldsD5 (p : Params) (c : FrameCtx) : Except FaultReason Record := do
  let dst ← field4 p c 7
  let src ← field4 p c 26
  if c.len ≠ longLen then
    return .kd5s dst src
  else
    let ts ← fieldU32 p c 16
    let uptime ← fieldU32 p c 24
    let wan ← field6 p c 32
    return .kd5l dst src ts uptime wan

/-- The fields of a subtype that passed the length gate: 0x55, 0xD5 or, reading no field, 0xD2 (R101 to R104). -/
def fieldsOf (p : Params) (c : FrameCtx) : Except FaultReason Record :=
  if c.subtype = 0x55 then fields55 p c
  else if c.subtype = 0xD5 then fieldsD5 p c
  else .ok .kd2

/-- ExtractingFields (R101). -/
def extractingFields (p : Params) (c : FrameCtx) : Except FaultReason FrameCtx := do
  let record ← fieldsOf p c
  return { c with record := record, fsm := .emit }

/-- Emit (R105). -/
def emitRecord (c : FrameCtx) : FrameCtx :=
  { c with recValid := true, ev := some (.emit c.record), fsm := .success }

/-- One transition of the machine (R94). IDLE and the terminal states have none. -/
def frameStep (p : Params) (c : FrameCtx) : Except FaultReason FrameCtx :=
  match c.fsm with
  | .searchingPreamble => searchingPreamble p c
  | .extractingBytes => .ok (extractingBytes p c)
  | .dispatchType => dispatchType p c
  | .dispatchSubtype => dispatchSubtype p c
  | .validatingCrc => validatingCrc p c
  | .extractingFields => extractingFields p c
  | .emit => .ok (emitRecord c)
  | .idle | .success | .abortLength | .failSanity | .failMic | .noSync => .ok c

/-- The machine run to a terminal state (R94), for at most the number of transitions given. -/
def frameRun (p : Params) : Nat → FrameCtx → Except FaultReason FrameCtx
  | 0, c => .ok c
  | n + 1, c => if c.fsm.atRest then .ok c else do
    let c' ← frameStep p c
    frameRun p n c'

/-- The longest path of the machine, SearchingPreamble to Success, has 7 transitions (R94). -/
def frameFuel : Nat := 7

/-- The context a FRAME command begins with (R108, R109): CRC_IDX := 0xFF, REC_VALID := 0, ev := none. -/
def frameEntry (s : State) (fsm : Fsm) (bits : List Bool) (n : Nat) : FrameCtx where
  fsm := fsm
  bits := bits
  pos := 0
  n := n
  buf := s.frameBuf
  trunc := false
  subtype := 0
  payload := 0
  len := 0
  crcIdx := 0xFF
  record := .kd2
  recValid := false
  ev := none

/-- What FRAME.DECODE and FRAME.PARSE both commit (R108, R109). -/
def frameCommit (c : FrameCtx) (s : State) : State :=
  { s with
    flen := mod32 c.n
    fsm := c.fsm
    crcIdx := c.crcIdx
    recValid := c.recValid
    record := if c.fsm = .success then c.record else s.record
    out := s.out ++ c.ev.toList
    status := statusWord c.fsm.resultCode (if c.fsm = .noSync then false else c.trunc) }

/-- FRAME.DECODE up to its commit, and the commit (R108). -/
def frameDecode (nbits : Nat) (s : State) : Except FaultReason State := do
  checkFrameDecode s.params nbits
  let bits ← memReadRange s.params.nBits s.bitIn 0 nbits
  let c ← frameRun s.params frameFuel (frameEntry s .searchingPreamble bits 0)
  return { frameCommit c s with frameBuf := if c.fsm = .noSync then s.frameBuf else c.buf }

/-- FRAME.PARSE up to its commit, and the commit (R109): the machine is entered at the sanity check. -/
def frameParse (nbytes : Nat) (s : State) : Except FaultReason State := do
  checkFrameParse s.params nbytes
  let c ← frameRun s.params frameFuel (sanityCheck (frameEntry s .extractingBytes [] nbytes))
  return frameCommit c s

/-- FRAME.DECODE nbits (R108). -/
def execFrameDecode (nbits : Nat) (s : State) : Host.Outcome State Fault Refusal :=
  finish (Opcode.opc .frameDecode) s (frameDecode nbits s)

/-- FRAME.PARSE nbytes (R109). -/
def execFrameParse (nbytes : Nat) (s : State) : Host.Outcome State Fault Refusal :=
  finish (Opcode.opc .frameParse) s (frameParse nbytes s)

end Sys2Proof.Machine
end

