-- ==== Sys2Proof/Machine/Dispatch.lean ====
section
/-! DEFINITION. exec: one arm per command of the opcode table (30_encoding.md R59). -/

namespace Sys2Proof.Machine

open Sys2Proof

def exec (i : Instr) (s : State) : Host.Outcome State Fault Refusal :=
  match i with
  | .envDetect d n => Sys2Proof.Machine.execEnvDetect d n s
  | .lpfReset => Sys2Proof.Machine.execLpfReset s
  | .lpfFilter len => Sys2Proof.Machine.execLpfFilter len s
  | .fmReset => Sys2Proof.Machine.execFmReset s
  | .fmDemod n => Sys2Proof.Machine.execFmDemod n s
  | .crcCompute off len init => Sys2Proof.Machine.execCrcCompute off len init s
  | .crcVerify off len => Sys2Proof.Machine.execCrcVerify off len s
  | .frameDecode nbits => Sys2Proof.Machine.execFrameDecode nbits s
  | .frameParse nbytes => Sys2Proof.Machine.execFrameParse nbytes s

end Sys2Proof.Machine
end

