-- ==== Sys2Proof/Machine/Port.lean ====
section
/-! DEFINITION. The host interface (70_reset_and_hazards.md R136): a command issued on the port (30_encoding.md R56,
60_exceptions.md R120), host writes and reads (20_memory.md R49, 10_state.md R36), reset (R127). -/

namespace Sys2Proof.Machine

open Sys2Proof

/-- A command issued on the port. While the block is halted it is not decoded and changes nothing (R120); an illegal
CMD word faults ILLEGAL_CMD with its OPC field as issued (R60, R116); otherwise the decoded instruction executes. -/
def issue (c : Command) (s : State) : Host.Outcome State Fault Refusal :=
  if s.halted then .next s
  else match decode c with
    | .error _ => .next (s.takeFault c.opc .illegalCmd)
    | .ok i => exec i s

/-- A host write of element i of a memory of the size given: outside it the model stops (log 6). -/
def hostSet {α : Type} (size : Nat) (m : Memory α) (i : Nat) (v : α) : Except Fault (Memory α) :=
  if size ≤ i then .error .hostIndexOutside else .ok (Memory.set m i v)

/-- The value is in the range of an FM_OUT element (R38): an s16 where FM_OUT_WIDTH is 16. -/
def fmInRange (w : FmWidth) (v : Word) : Bool :=
  match w with
  | .w16 => (v.setWidth 16).signExtend 32 == v
  | .w32 => true

/-- A host write (R49): the element is set and marked written. -/
def hostWrite (w : HostWrite) (s : State) : Except Fault State :=
  match w with
  | .iqIn i v => do return { s with iqIn := ← hostSet s.params.nIq s.iqIn i v }
  | .envOut i v => do return { s with envOut := ← hostSet s.params.nEnv s.envOut i v }
  | .lpfOut i v => do return { s with lpfOut := ← hostSet s.params.nLpf s.lpfOut i v }
  | .fmOut i v =>
    if fmInRange s.params.fmOutWidth v then do
      return { s with fmOut := ← hostSet s.params.nFm s.fmOut i v }
    else .error .hostValueRange
  | .bitIn i v => do return { s with bitIn := ← hostSet s.params.nBits s.bitIn i v }
  | .frameBuf i v => do return { s with frameBuf := ← hostSet s.params.frameCap s.frameBuf i v }

/-- A host read of element i of a memory of the size given: an unwritten element has no value (R49). -/
def hostGet {α : Type} (size : Nat) (m : Memory α) (i : Nat) (val : α → HostValue) : Except Fault HostValue :=
  if size ≤ i then .error .hostIndexOutside
  else match Memory.get? m i with
    | some v => .ok (val v)
    | none => .error .hostReadUnwritten

/-- An unsigned field as a host value. -/
def unsignedValue {w : Nat} (v : BitVec w) : HostValue := .num (v.toNat : Int)

/-- A signed field as a host value. -/
def signedValue {w : Nat} (v : BitVec w) : HostValue := .num v.toInt

/-- A bit as a host value. -/
def bitValue (b : Bool) : HostValue := .num (if b then 1 else 0)

/-- A host read of a memory element (R38, R49). -/
def hostReadMem (m : MemName) (i : Nat) (s : State) : Except Fault HostValue :=
  match m with
  | .iqIn => hostGet s.params.nIq s.iqIn i unsignedValue
  | .envOut => hostGet s.params.nEnv s.envOut i unsignedValue
  | .lpfOut => hostGet s.params.nLpf s.lpfOut i signedValue
  | .fmOut => hostGet s.params.nFm s.fmOut i signedValue
  | .bitIn => hostGet s.params.nBits s.bitIn i bitValue
  | .frameBuf => hostGet s.params.frameCap s.frameBuf i unsignedValue

/-- The value if the element holds one, otherwise no value: the read is refused and the block goes on (R37, R136;
log 5). -/
def ifPresent (present : Bool) (v : HostValue) : HostValue := if present then v else .noValue

/-- REC_KIND of a record (R32). -/
def Record.kind : Record → RecKind
  | .k55 .. => .k55
  | .kd2 => .kd2
  | .kd5s .. => .kd5s
  | .kd5l .. => .kd5l

/-- A record field of the name given, if the record's kind has it (R32). -/
def Record.field? : Record → RegName → Option HostValue
  | .k55 dstWan _ _ _, .recDstWan => some (.bytes dstWan.toList)
  | .k55 _ srcWan _ _, .recSrcWan => some (.bytes srcWan.toList)
  | .k55 _ _ uptime _, .recUptime => some (unsignedValue uptime)
  | .k55 _ _ _ src, .recSrc => some (.bytes src.toList)
  | .kd5s dst _, .recDst => some (.bytes dst.toList)
  | .kd5s _ src, .recSrc => some (.bytes src.toList)
  | .kd5l dst _ _ _ _, .recDst => some (.bytes dst.toList)
  | .kd5l _ src _ _ _, .recSrc => some (.bytes src.toList)
  | .kd5l _ _ ts _ _, .recTs => some (unsignedValue ts)
  | .kd5l _ _ _ uptime _, .recUptime => some (unsignedValue uptime)
  | .kd5l _ _ _ _ wan, .recWan => some (.bytes wan.toList)
  | _, _ => none

/-- A host read of a record field: no value with REC_VALID = 0 (R37); with a record held, reading a field absent for its
kind faults (R32, U12). -/
def readRecField (r : RegName) (s : State) : Except Fault HostValue :=
  if s.recValid then
    match s.record.field? r with
    | some v => .ok v
    | none => .error .hostReadFieldAbsent
  else .ok .noValue

/-- A host read of a state element (R22, R36). The filter histories hold no value before their reset command (R37). -/
def hostReadReg (r : RegName) (s : State) : Except Fault HostValue :=
  match r with
  | .lpfValid => .ok (bitValue s.lpfValid)
  | .lpfXp => .ok (ifPresent s.lpfValid (unsignedValue s.lpfXp))
  | .lpfYp => .ok (ifPresent s.lpfValid (signedValue s.lpfYp))
  | .fmValid => .ok (bitValue s.fmValid)
  | .fmAr => .ok (ifPresent s.fmValid (signedValue s.fmAr))
  | .fmAi => .ok (ifPresent s.fmValid (signedValue s.fmAi))
  | .fmXdc => .ok (ifPresent s.fmValid (signedValue s.fmXdc))
  | .fmYdc => .ok (ifPresent s.fmValid (signedValue s.fmYdc))
  | .fmYlp => .ok (ifPresent s.fmValid (signedValue s.fmYlp))
  | .status => .ok (unsignedValue s.status)
  | .fault => .ok (unsignedValue s.fault)
  | .result => .ok (unsignedValue s.result)
  | .crcIdx => .ok (unsignedValue s.crcIdx)
  | .flen => .ok (unsignedValue s.flen)
  | .fsm => .ok (.fsm s.fsm)
  | .recValid => .ok (bitValue s.recValid)
  | .recKind => .ok (ifPresent s.recValid (.kind s.record.kind))
  | .recSrc => readRecField .recSrc s
  | .recDst => readRecField .recDst s
  | .recDstWan => readRecField .recDstWan s
  | .recSrcWan => readRecField .recSrcWan s
  | .recWan => readRecField .recWan s
  | .recUptime => readRecField .recUptime s
  | .recTs => readRecField .recTs s

/-- The value a host read returns, or why it has none. -/
def hostRead (r : HostRead) (s : State) : Except Fault HostValue :=
  match r with
  | .mem m i => hostReadMem m i s
  | .reg n => hostReadReg n s
  | .sq i => .ok (unsignedValue (sqRom i))
  | .out i => .ok (.events (s.out.drop i))

/-- The outcome of a host access. -/
def hostOutcome (r : Except Fault State) : Host.Outcome State Fault Refusal :=
  match r with
  | .ok t => .next t
  | .error f => .fault f

/-- A host read as a move: the value is put where the host finds it (log 5). -/
def hostReadMove (r : HostRead) (s : State) : Except Fault State := do
  return { s with lastRead := some (← hostRead r s) }

/-- One move of the host (R136). Resets, writes and reads happen whether or not the block is halted (R120, R127). -/
def runMove (m : HostMove) (s : State) : Host.Outcome State Fault Refusal :=
  match m with
  | .command c => issue c s
  | .reset => .next s.applyReset
  | .write w => hostOutcome (hostWrite w s)
  | .read r => hostOutcome (hostReadMove r s)

/-- One step: the first pending move is taken off the port and run; with none pending the block waits (R127, log 4). -/
def runPort (s : State) : Host.Outcome State Fault Refusal :=
  match s.port with
  | [] => .next s
  | m :: rest => runMove m { s with port := rest }

/-- The state with a command put first on the port. -/
def State.withCommand (s : State) (c : Command) : State := { s with port := .command c :: s.port }

end Sys2Proof.Machine
end

