-- ==== Sys2Proof/Machine/Step.lean ====
section
/-! DEFINITION. The step of the machine: one move of the host (70_reset_and_hazards.md R136). -/

namespace Sys2Proof.Machine

open Sys2Proof

/-- One step: the host's first pending move (R136), a command among them executed atomically (R16, R56). -/
def step (s : State) : Host.Outcome State Fault Refusal := runPort s

/-- The state in which the very next step issues the command whose lowest nbits bits are those of w (log 4). -/
def State.withFetchWord (s : State) (nbits w : Nat) : State := s.withCommand (commandOfBits nbits w)

end Sys2Proof.Machine
end

