-- ==== Sys2Proof/Machine/Render.lean ====
section
/-! DEFINITION. The host's rendering of an EMIT event into the sink (45_frame_decoder.md R112, R110, D34 to D36). It is a
duty of the host, outside the block (R5): no step uses it (log 15). -/

namespace Sys2Proof.Machine

open Sys2Proof

/-- The type tag of a sink entry (D35). -/
inductive SinkTag where
  | string
  | integer
deriving DecidableEq, Repr

/-- An entry of the sink's sequence: (field name, type tag, value) (R112). -/
structure SinkField where
  name : String
  tag : SinkTag
  value : String
deriving DecidableEq, Repr

/-- A lower-case hex digit. -/
def hexDigit (n : Nat) : Char := if n < 10 then Char.ofNat (48 + n) else Char.ofNat (87 + n)

/-- Two lower-case hex digits per byte, in byte order (R112). -/
def hexOf (bs : List Byte) : String :=
  String.ofList (bs.flatMap fun b => [hexDigit (b.toNat / 16), hexDigit (b.toNat % 16)])

/-- The decimal rendering of a count (R112). -/
def decimalOf (v : Word) : String := toString v.toNat

/-- A string entry. -/
def strField (name value : String) : SinkField := ⟨name, .string, value⟩

/-- An integer entry. -/
def intField (name value : String) : SinkField := ⟨name, .integer, value⟩

/-- The fields of a record between model and mic, in the order of R112. -/
def Record.sinkFields : Record → List SinkField
  | .k55 dstWan srcWan uptime src =>
    [ strField "id" (hexOf src.toList), strField "destwanaddress" (hexOf dstWan.toList),
      strField "srcwanaddress" (hexOf srcWan.toList), intField "uptime" (decimalOf uptime) ]
  | .kd2 => [ intField "id" "0" ]
  | .kd5s dst src => [ strField "id" (hexOf src.toList), strField "destaddress" (hexOf dst.toList) ]
  | .kd5l dst src ts uptime wan =>
    [ strField "id" (hexOf src.toList), strField "destaddress" (hexOf dst.toList),
      strField "timestamp" (Config.localtime ts), intField "uptime" (decimalOf uptime),
      strField "wanaddress" (hexOf wan.toList) ]

/-- The field sequence of an EMIT (R112): model and mic are implied by every EMIT (R110). A DIAG event has none. The
sentinel that R112 says terminates the sequence has no form in the spec, so there is no entry for it: the end of the list
stands for it (DESIGN CHOICE, log 15). -/
def OutEvent.render (p : Params) : OutEvent → List SinkField
  | .emit r => strField "model" p.modelName :: (r.sinkFields ++ [strField "mic" "CRC"])
  | .diag _ => []

end Sys2Proof.Machine
end

