-- ==== Sys2Proof/Machine/Run.lean ====
section
/-! DEFINITION. The run of a program, the finite sequence of host moves on the port (70_reset_and_hazards.md R137). No
step uses it. -/

namespace Sys2Proof.Machine

open Sys2Proof

/-- The move is a command. -/
def HostMove.isCommand : HostMove → Bool
  | .command _ => true
  | .reset | .write _ | .read _ => false

/-- No command is left on the port: the last one has completed (R137). A program of host actions with no command in it
has no last command, and R137 does not say when its run ends: this ends it at once, with none of its writes, reads and
resets run (DESIGN CHOICE, log 19). -/
def State.commandsDone (s : State) : Bool := s.port.all fun m => !m.isCommand

/-- The run for at most the number of steps given: it ends when the last command has completed, or after the step that
raises the first fault, or at a host access the model stops on (R137). -/
def runSteps : Nat → State → Host.Outcome State Fault Refusal
  | 0, s => .next s
  | n + 1, s =>
    if s.commandsDone then .next s
    else match step s with
      | .next t => if !s.halted && t.halted then .next t else runSteps n t
      | .fault f => .fault f
      | .refused r => .refused r

/-- The run of the program on the port (R137): each step takes one move off it, so as many steps as moves end it. -/
def run (s : State) : Host.Outcome State Fault Refusal := runSteps s.port.length s

end Sys2Proof.Machine
end

