-- ==== Sys2Proof/Safety.lean ====
section
/-! DEFINITION. What claims are stated with: the invariant of a state between steps, the normal end of a run
(70_reset_and_hazards.md R137), the target, value and range of a host write. -/

namespace Sys2Proof.Machine

open Sys2Proof

/-- Every listed index of a memory is below its size (R45). -/
abbrev Memory.within {α : Type} (size : Nat) (m : Memory α) : Prop := ∀ c ∈ m, c.1 < size

/-- A memory is in canonical form and inside its size. -/
abbrev Memory.ok {α : Type} (size : Nat) (m : Memory α) : Prop := Memory.wf m ∧ Memory.within size m

/-- The value of fm_ar or fm_ai is in [-128, 127] (R22). -/
abbrev inIqRange (v : Half) : Prop := -128 ≤ v.toInt ∧ v.toInt ≤ 127

/-- What holds of a state between steps, from reset on. -/
structure State.Inv (s : State) : Prop where
  /-- the memories keep their canonical form and stay inside their sizes (R38, R45) -/
  iqIn : Memory.ok s.params.nIq s.iqIn
  envOut : Memory.ok s.params.nEnv s.envOut
  lpfOut : Memory.ok s.params.nLpf s.lpfOut
  fmOut : Memory.ok s.params.nFm s.fmOut
  bitIn : Memory.ok s.params.nBits s.bitIn
  frameBuf : Memory.ok s.params.frameCap s.frameBuf
  /-- every FM_OUT element is in the range of FM_OUT_WIDTH (R38) -/
  fmRange : ∀ c ∈ s.fmOut, fmInRange s.params.fmOutWidth c.2 = true
  /-- FLEN is at most FRAME_CAP (R30) -/
  flenCap : s.flen.toNat ≤ s.params.frameCap
  /-- fsm is IDLE or a terminal state (R31) -/
  fsmRest : s.fsm.atRest = true
  /-- REC_VALID is 1 iff the last FRAME command ended in Success (R32) -/
  recSuccess : s.recValid = true ↔ s.fsm = .success
  /-- STATUS holds a code of R25 and TRUNC, its other bits are 0 -/
  statusForm : ∃ c t, s.status = statusWord c t
  /-- FAULT is 0, or a reason of R114 and an opcode, its other bits 0 (R27) -/
  faultForm : s.fault = 0 ∨ ∃ o r, s.fault = faultWord o r
  /-- the block is halted exactly when STATUS says FAULT (R25, R116, R120) -/
  haltedStatus : s.halted = true ↔ s.status = 0xF
  /-- CRC_IDX is an index of the table or 0xFF (R29) -/
  crcIndex : s.crcIdx.toNat ≤ 7 ∨ s.crcIdx = 0xFF
  /-- fm_ar and fm_ai are in [-128, 127] (R22, R24) -/
  fmArRange : inIqRange s.fmAr
  fmAiRange : inIqRange s.fmAi

/-- The run of the program on the port of s ends in t, at its last command or at its first fault (R137). -/
abbrev State.endsIn (s t : State) : Prop := run s = .next t

/-- The run of the program on the port of s ends normally in t: no command of it faulted (R137). A run that faulted ends
at that fault, with FAULT not 0, whatever moves come after it. -/
abbrev State.normalEnd (s t : State) : Prop := s.endsIn t ∧ t.fault = 0

/-- The memory element a host write names. -/
def HostWrite.target : HostWrite → MemName × Nat
  | .iqIn i _ => (.iqIn, i)
  | .envOut i _ => (.envOut, i)
  | .lpfOut i _ => (.lpfOut, i)
  | .fmOut i _ => (.fmOut, i)
  | .bitIn i _ => (.bitIn, i)
  | .frameBuf i _ => (.frameBuf, i)

/-- The value of a host write, as a host read of the element returns it. -/
def HostWrite.value : HostWrite → HostValue
  | .iqIn _ v => unsignedValue v
  | .envOut _ v => unsignedValue v
  | .lpfOut _ v => signedValue v
  | .fmOut _ v => signedValue v
  | .bitIn _ v => bitValue v
  | .frameBuf _ v => unsignedValue v

/-- The size of a memory (R38). -/
def memSize (p : Params) : MemName → Nat
  | .iqIn => p.nIq
  | .envOut => p.nEnv
  | .lpfOut => p.nLpf
  | .fmOut => p.nFm
  | .bitIn => p.nBits
  | .frameBuf => p.frameCap

/-- A host write of a value in its element's range to an index inside its memory (R14, R45). -/
def HostWrite.InRange (p : Params) (w : HostWrite) : Prop :=
  w.target.2 < memSize p w.target.1 ∧
  ∀ i v, w = .fmOut i v → p.fmOutWidth = .w16 → -(2 ^ 15) ≤ v.toInt ∧ v.toInt < 2 ^ 15

/-! The spec's formulas, written apart from the definitions of the machine, for claims to compare them with. -/

/-- r is wrap_N(v) (R13): the value in the signed N-bit range that is congruent to v modulo 2^N. -/
def WrapsTo (N : Nat) (v r : Int) : Prop :=
  -(2 ^ (N - 1)) ≤ r ∧ r ≤ 2 ^ (N - 1) - 1 ∧ (r - v) % 2 ^ N = 0

/-- Every product and partial sum of the kernel (R73) is in the signed 32-bit range. -/
def KernelFits (c : Coefs) (x xp yp : Int) : Prop :=
  inS32 (c.a1.toInt * yp) ∧ inS32 (c.b0.toInt * x) ∧ inS32 (c.b1.toInt * xp) ∧
  inS32 (c.a1.toInt * yp / 2 + c.b0.toInt * x / 2) ∧
  inS32 (c.a1.toInt * yp / 2 + c.b0.toInt * x / 2 + c.b1.toInt * xp / 2)

/-- The value of the kernel (R73); the division of integers by a positive number here is the floor. -/
def kernelValue (c : Coefs) (x xp yp : Int) : Int :=
  (c.a1.toInt * yp / 2 + c.b0.toInt * x / 2 + c.b1.toInt * xp / 2) / 2 ^ 14

/-- The value before element i of a sequence: the carried value a, then the sequence itself. -/
def prevOr {α : Type} (a : α) (f : Nat → α) : Nat → α
  | 0 => a
  | i + 1 => f i

/-- Sample i of LPF.FILTER on inputs x and outputs y from the carried values xp and yp (R76): the kernel fits. -/
def LpfFitsAt (c : Coefs) (xp yp : Half) (x y : Nat → Half) (i : Nat) : Prop :=
  KernelFits c ((x i).toNat : Int) ((prevOr xp x i).toNat : Int) (prevOr yp y i).toInt

/-- Sample i of LPF.FILTER (R76): the output is wrap_16 of the kernel's value. -/
def LpfSampleAt (c : Coefs) (xp yp : Half) (x y : Nat → Half) (i : Nat) : Prop :=
  LpfFitsAt c xp yp x y i ∧
  WrapsTo 16 (kernelValue c ((x i).toNat : Int) ((prevOr xp x i).toNat : Int) (prevOr yp y i).toInt) (y i).toInt

/-- Step 3 of R80 on an IQ pair (I, Q) and the history: p = ai*br - ar*bi. -/
def fmP (h : FmHist) (i q : Byte) : Int := ((q.toNat : Int) - 128) * h.ar.toInt - ((i.toNat : Int) - 128) * h.ai.toInt

/-- Step 4 of R80: the DC-blocked value. -/
def fmYd (h : FmHist) (i q : Byte) : Int := fmP h i q - h.xdc.toInt + h.ydc.toInt - h.ydc.toInt.tdiv 256

/-- Step 5 of R80: the second low-pass stage. -/
def fmYl (c : Coefs) (h : FmHist) (i q : Byte) : Int := kernelValue c (fmYd h i q) h.ydc.toInt h.ylp.toInt

/-- Every checked value of the step (R80) is in the signed 32-bit range. -/
def FmFits (c : Coefs) (h : FmHist) (i q : Byte) : Prop :=
  inS32 (fmP h i q - h.xdc.toInt) ∧ inS32 (fmP h i q - h.xdc.toInt + h.ydc.toInt) ∧ inS32 (fmYd h i q) ∧
  KernelFits c (fmYd h i q) h.ydc.toInt h.ylp.toInt

/-- The history after a step that fits (R80): every field holds its value exactly. -/
def FmNext (c : Coefs) (h : FmHist) (i q : Byte) (h' : FmHist) : Prop :=
  h'.ar.toInt = (i.toNat : Int) - 128 ∧ h'.ai.toInt = (q.toNat : Int) - 128 ∧ h'.xdc.toInt = fmP h i q ∧
  h'.ydc.toInt = fmYd h i q ∧ h'.ylp.toInt = fmYl c h i q

/-- The bits of FM_OUT_WIDTH (R7). -/
def fmWidthBits : FmWidth → Nat
  | .w16 => 16
  | .w32 => 32

/-- The bytes B[off .. off+len) (R12). -/
def slice (B : Nat → Byte) (off len : Nat) : List Byte := (List.range len).map fun j => B (off + j)

/-- The big-endian 32-bit value of B[off .. off+4) (R42). -/
def word32 (B : Nat → Byte) (off : Nat) : Word := B off ++ B (off + 1) ++ B (off + 2) ++ B (off + 3)

/-- The bytes B[off .. off+4) as an address field (R42, D22). -/
def addr4 (B : Nat → Byte) (off : Nat) : Vector Byte 4 := #v[B off, B (off + 1), B (off + 2), B (off + 3)]

/-- The bytes B[off .. off+6) as an address field (R42, D22). -/
def addr6 (B : Nat → Byte) (off : Nat) : Vector Byte 6 :=
  #v[B off, B (off + 1), B (off + 2), B (off + 3), B (off + 4), B (off + 5)]

/-- The payload start P and the declared length L that the header gives (R63). -/
def HeaderGives (B : Nat → Byte) (P L : Nat) : Prop :=
  ((B 3 = 0x55 ∨ B 3 = 0xD5) ∧ P = 6 ∧ L = 256 * (B 4).toNat + (B 5).toNat) ∨
  (B 3 = 0xD2 ∧ P = 5 ∧ L = (B 4).toNat)

/-- The bytes B[off .. off+len) check under the candidate v (R88): CRC16 of all but the last two is their value. -/
def ChecksUnder (B : Nat → Byte) (off len : Nat) (v : Half) : Prop :=
  crc16 (slice B off (len - 2)) v = B (off + len - 2) ++ B (off + len - 1)

/-- k is the lowest index whose candidate checks (R89). -/
def LowestMatch (p : Params) (B : Nat → Byte) (off len : Nat) (k : Fin 8) : Prop :=
  ChecksUnder B off len p.crcInit[k] ∧ ∀ j : Fin 8, j < k → ¬ChecksUnder B off len p.crcInit[j]

/-- No candidate checks (R89). -/
def NoMatch (p : Params) (B : Nat → Byte) (off len : Nat) : Prop :=
  ∀ j : Fin 8, ¬ChecksUnder B off len p.crcInit[j]

/-- The fields (offset, length) that ExtractingFields reads, in order, for a subtype and a declared length (R102 to
R104). -/
def fieldReads (t : Byte) (L : Nat) : List (Nat × Nat) :=
  if t = 0x55 then [(7, 6), (13, 6), (20, 4), (26, 4)]
  else if t = 0xD5 then (7, 4) :: (26, 4) :: (if L = 0x47 then [(16, 4), (24, 4), (32, 6)] else [])
  else []

/-- The record of a frame of n bytes with declared length L (R102 to R104), all of its fields below n (R101). -/
def RecordOf (B : Nat → Byte) (n L : Nat) (r : Record) : Prop :=
  (B 3 = 0x55 ∧ 30 ≤ n ∧ r = .k55 (addr6 B 7) (addr6 B 13) (word32 B 20) (addr4 B 26)) ∨
  (B 3 = 0xD2 ∧ r = .kd2) ∨
  (B 3 = 0xD5 ∧ L ≠ 0x47 ∧ 30 ≤ n ∧ r = .kd5s (addr4 B 7) (addr4 B 26)) ∨
  (B 3 = 0xD5 ∧ L = 0x47 ∧ r = .kd5l (addr4 B 7) (addr4 B 26) (word32 B 16) (word32 B 24) (addr6 B 32))

/-- The n bytes B[0..n) are a frame that decodes to the record r with its CRC under candidate k (R98 to R105). -/
def ValidFrame (p : Params) (B : Nat → Byte) (n : Nat) (k : Fin 8) (r : Record) : Prop :=
  5 ≤ n ∧ B 2 = 0x2A ∧ ∃ P L, HeaderGives B P L ∧ 2 ≤ L ∧ P + L + 2 ≤ n ∧ LowestMatch p B P L k ∧ RecordOf B n L r

/-- FRAME.DECODE nbits gets to its parser on this state (R92, R96, R97, R108): nbits is in bounds and BIT_IN[0..nbits)
is `bits`, SEARCH finds the pattern at pos and the pattern stands there, and EXTRACT answers the bytes es. -/
def Extracts (s : State) (bits : List Bool) (pos : Nat) (es : List Byte) : Prop :=
  bits.length ≤ s.params.nBits ∧ (∀ j (h : j < bits.length), Memory.get? s.bitIn j = some bits[j]) ∧
  runSearch s.params.search bits 0 s.params.syncPattern = some pos ∧
  pos + s.params.syncPattern.length ≤ bits.length ∧
  (bits.drop pos).take s.params.syncPattern.length = s.params.syncPattern ∧
  es = runExtract s.params.extract bits (pos + s.params.syncExtractOffset)
    (bits.length - (pos + s.params.syncExtractOffset))

end Sys2Proof.Machine
end

