-- ==== Sys2Proof/Certificates/Slice0/Obligations.lean ====
section
/-! DEFINITION. The statements for the provers, in the order of OBLIGATIONS.json. "fault r" below is
`takeFault` with the opcode of the command (R116). -/

open Sys2Proof Sys2Proof.Machine

/-! Encoding and decoding (30_encoding.md) -/

/-- Words written out from R57, R59 and R61 decode to what they stand for, and words of R60 are refused. -/
def Obligations.SpecWordsDecode : Prop :=
  decode ⟨0x00000010, 1, 0, 0⟩ = .ok (.envDetect 0 1) ∧
  decode ⟨0x00000F10, 32768, 7, 9⟩ = .ok (.envDetect 15 32768) ∧
  decode ⟨0x00000020, 5, 6, 7⟩ = .ok .lpfReset ∧
  decode ⟨0x00000021, 4, 0, 0⟩ = .ok (.lpfFilter 4) ∧
  decode ⟨0x00000030, 0, 0, 0⟩ = .ok .fmReset ∧
  decode ⟨0x00000031, 2, 0, 0⟩ = .ok (.fmDemod 2) ∧
  decode ⟨0x00000040, 0, 9, 0x00011D0F⟩ = .ok (.crcCompute 0 9 0x1D0F) ∧
  decode ⟨0x00000041, 9, 2, 0⟩ = .ok (.crcVerify 9 2) ∧
  decode ⟨0x00000050, 0x188, 0, 0⟩ = .ok (.frameDecode 392) ∧
  decode ⟨0x00000051, 0x26, 0, 0⟩ = .ok (.frameParse 38) ∧
  decode ⟨0x00000121, 0, 0, 0⟩ = .error .decimationField ∧
  decode ⟨0x00001010, 0, 0, 0⟩ = .error .reservedBits ∧
  decode ⟨0x00000011, 0, 0, 0⟩ = .error .unknownOpcode

/-- R59 (with the operands of R58): a CMD word that equals a row's match under the row's mask decodes to that row's
instruction, and no CMD word is selected by two rows. -/
def Obligations.OpcodeMapDecodesByMatchAndMask : Prop :=
  (∀ c : Command,
    (c.cmd &&& 0xFFFFF0FF = 0x00000010 →
      decode c = .ok (.envDetect (c.cmd.extractLsb' 8 4).toNat c.arg0.toNat)) ∧
    (c.cmd &&& 0xFFFFFFFF = 0x00000020 → decode c = .ok .lpfReset) ∧
    (c.cmd &&& 0xFFFFFFFF = 0x00000021 → decode c = .ok (.lpfFilter c.arg0.toNat)) ∧
    (c.cmd &&& 0xFFFFFFFF = 0x00000030 → decode c = .ok .fmReset) ∧
    (c.cmd &&& 0xFFFFFFFF = 0x00000031 → decode c = .ok (.fmDemod c.arg0.toNat)) ∧
    (c.cmd &&& 0xFFFFFFFF = 0x00000040 →
      decode c = .ok (.crcCompute c.arg0.toNat c.arg1.toNat (c.arg2.setWidth 16))) ∧
    (c.cmd &&& 0xFFFFFFFF = 0x00000041 → decode c = .ok (.crcVerify c.arg0.toNat c.arg1.toNat)) ∧
    (c.cmd &&& 0xFFFFFFFF = 0x00000050 → decode c = .ok (.frameDecode c.arg0.toNat)) ∧
    (c.cmd &&& 0xFFFFFFFF = 0x00000051 → decode c = .ok (.frameParse c.arg0.toNat))) ∧
  (∀ (cmd : Word) (r q : OpcodeRow), r ∈ opcodeMap → q ∈ opcodeMap →
    r.selects cmd = true → q.selects cmd = true → r = q)

/-- Decoding the words of a well-formed instruction gives it back, with every operand at every value its field admits. -/
def Obligations.DecodeOfEncodeIsIdentity : Prop :=
  ∀ i : Instr, i.wf = true → decode (encode i) = .ok i

/-- Whatever decodes is well-formed, and its words have the CMD word it was decoded from. -/
def Obligations.DecodedInstructionIsWellFormed : Prop :=
  ∀ (c : Command) (i : Instr), decode c = .ok i → i.wf = true ∧ (encode i).cmd = c.cmd

/-- R60: exactly the three cases are illegal; an illegal command executed faults ILLEGAL_CMD with its OPC field as
issued, and has no other effect. -/
def Obligations.IllegalCommandFaults : Prop :=
  (∀ c : Command, (∃ e, decode c = .error e) ↔
    (c.cmd.extractLsb' 0 8 ∉ ([0x10, 0x20, 0x21, 0x30, 0x31, 0x40, 0x41, 0x50, 0x51] : List Byte) ∨
     (c.cmd.extractLsb' 8 4 ≠ 0 ∧ c.cmd.extractLsb' 0 8 ≠ 0x10) ∨ c.cmd.extractLsb' 12 20 ≠ 0)) ∧
  (∀ (s : State) (c : Command) (rest : List HostMove) (e : DecodeError),
    s.port = .command c :: rest → s.halted = false → decode c = .error e →
    step s = .next { s with
      port := rest
      status := 0xF
      fault := ((c.cmd.extractLsb' 0 8).setWidth 32 <<< 8) ||| 1 })

/-! The step, the halted state, reset, the host (60_exceptions.md, 70_reset_and_hazards.md) -/

/-- A step on a command that decodes runs exec of the decoded instruction, on the state with the command taken off the
port; nothing else is around it. -/
def Obligations.StepRunsDecodedInstruction : Prop :=
  ∀ (s : State) (c : Command) (rest : List HostMove) (i : Instr),
    s.port = .command c :: rest → s.halted = false → decode c = .ok i →
    step s = exec i { s with port := rest }

/-- With no move pending the block waits: the step changes nothing (the model's choice, log 4). -/
def Obligations.EmptyPortWaits : Prop := ∀ s : State, s.port = [] → step s = .next s

/-- The halted block, from R120, R127 and R136 with the model's own port (log 4) and place for what a read returned
(log 5): a command issued while FAULT[7:0] is not 0 changes nothing but being taken off the port; no step of a halted
block changes FAULT or STATUS but the reset move, which always completes and sets both to 0; every host write in range
writes its element, and every host read leaves in lastRead what it would in a block that is not halted (FAULT itself
apart). R120 says that the host may still read and write; that a read's value lands in lastRead is log 5's choice. -/
def Obligations.HaltedUntilReset : Prop :=
  (∀ (s : State) (c : Command) (rest : List HostMove),
    s.port = .command c :: rest → s.fault.extractLsb' 0 8 ≠ 0 → step s = .next { s with port := rest }) ∧
  (∀ s t : State, s.fault.extractLsb' 0 8 ≠ 0 → step s = .next t →
    (t.fault = s.fault ∧ t.status = s.status) ∨ (∃ rest, s.port = .reset :: rest ∧ t.fault = 0 ∧ t.status = 0)) ∧
  (∀ (s : State) (rest : List HostMove), s.port = .reset :: rest → s.fault.extractLsb' 0 8 ≠ 0 →
    ∃ t, step s = .next t ∧ t.fault = 0 ∧ t.status = 0 ∧ t.port = rest) ∧
  (∀ (s : State) (w : HostWrite) (rest : List HostMove),
    s.port = .write w :: rest → s.fault.extractLsb' 0 8 ≠ 0 → w.InRange s.params →
    ∃ t, step s = .next t ∧ hostRead (.mem w.target.1 w.target.2) t = .ok w.value ∧ t.port = rest) ∧
  (∀ (s : State) (r : HostRead) (v : HostValue) (rest : List HostMove),
    s.port = .read r :: rest → s.fault.extractLsb' 0 8 ≠ 0 → r ≠ .reg .fault →
    hostRead r { s with fault := 0 } = .ok v → step s = .next { s with port := rest, lastRead := some v }) ∧
  (∀ (s : State) (rest : List HostMove), s.port = .read (.reg .fault) :: rest → s.fault.extractLsb' 0 8 ≠ 0 →
    step s = .next { s with port := rest, lastRead := some (.num s.fault.toNat) })

/-- The reset move (R127): every state element as after reset; the parameters, the host's other pending moves and what
the host read last are kept (the last two are the model's fields, log 4, log 5). -/
def Obligations.ResetMoveResets : Prop :=
  ∀ (s : State) (rest : List HostMove), s.port = .reset :: rest →
    step s = .next { State.reset with params := s.params, port := rest, lastRead := s.lastRead }

/-- R37, as the host reads it: the value of each state element after reset, and no value where R37 gives none. R136 says
only that the host's read of such a history or of REC is refused: that the read then answers noValue and the block goes
on is the model's choice (log 5). No memory element is written, so a read of one faults (R49, as a stop of the model). -/
def Obligations.ResetValuesAsRead : Prop :=
  let s := State.reset
  (∀ i : Byte, hostRead (.sq i) s = .ok (.num ((127 - (i.toNat : Int)) ^ 2))) ∧
  hostRead (.reg .lpfValid) s = .ok (.num 0) ∧ hostRead (.reg .fmValid) s = .ok (.num 0) ∧
  (∀ r ∈ ([.lpfXp, .lpfYp, .fmAr, .fmAi, .fmXdc, .fmYdc, .fmYlp, .recKind, .recSrc, .recDst, .recDstWan, .recSrcWan,
      .recWan, .recUptime, .recTs] : List RegName), hostRead (.reg r) s = .ok .noValue) ∧
  hostRead (.reg .status) s = .ok (.num 0) ∧ hostRead (.reg .fault) s = .ok (.num 0) ∧
  hostRead (.reg .result) s = .ok (.num 0) ∧ hostRead (.reg .crcIdx) s = .ok (.num 0xFF) ∧
  hostRead (.reg .flen) s = .ok (.num 0) ∧ hostRead (.reg .fsm) s = .ok (.fsm .idle) ∧
  hostRead (.reg .recValid) s = .ok (.num 0) ∧ hostRead (.out 0) s = .ok (.events []) ∧
  (∀ (m : MemName) (i : Nat), i < memSize s.params m → hostRead (.mem m i) s = .error .hostReadUnwritten)

/-- Host writes and reads as steps (R36, R49, R136). A write of a value in range to an index inside its memory: the
element then reads as the value, every other element of every memory reads as before, and nothing but the six memories
changes; a write outside its memory or its element's range stops (log 6). A read leaves in lastRead exactly the value
hostRead gives and changes nothing else, and stops exactly where hostRead has none (log 5). -/
def Obligations.HostWriteThenRead : Prop :=
  (∀ (s : State) (w : HostWrite) (rest : List HostMove), s.port = .write w :: rest →
    (w.InRange s.params → ∃ t, step s = .next t ∧
      hostRead (.mem w.target.1 w.target.2) t = .ok w.value ∧
      (∀ (m : MemName) (i : Nat), (m, i) ≠ w.target → hostRead (.mem m i) t = hostRead (.mem m i) s) ∧
      t = { s with port := rest, iqIn := t.iqIn, envOut := t.envOut, lpfOut := t.lpfOut, fmOut := t.fmOut,
                   bitIn := t.bitIn, frameBuf := t.frameBuf }) ∧
    (¬w.InRange s.params → step s = .fault .hostIndexOutside ∨ step s = .fault .hostValueRange)) ∧
  (∀ (s : State) (r : HostRead) (rest : List HostMove), s.port = .read r :: rest →
    (∀ v, hostRead r s = .ok v → step s = .next { s with port := rest, lastRead := some v }) ∧
    (∀ f, hostRead r s = .error f → step s = .fault f)) ∧
  (∀ (s : State) (i : Nat), hostRead (.out i) s = .ok (.events (s.out.drop i)))

/-- A step stops the model only on a host write or a host read that has no result, with the fault that says why: never
on a command, a reset or an empty port, and never by a refusal. -/
def Obligations.OnlyHostAccessesStop : Prop :=
  (∀ (s : State) (f : Fault), step s = .fault f →
    ∃ rest, (∃ w, s.port = .write w :: rest ∧ hostWrite w { s with port := rest } = .error f) ∨
      (∃ r, s.port = .read r :: rest ∧ hostRead r { s with port := rest } = .error f)) ∧
  (∀ (s : State) (r : Refusal), step s ≠ .refused r)

/-! Faults (60_exceptions.md) -/

/-- R114 and R116 as numbers: the fault word of each reason, and what fault entry changes. -/
def Obligations.FaultEntryWords : Prop :=
  (∀ (s : State) (o : Byte) (r : FaultReason), s.takeFault o r =
    { s with
      status := 0xF
      fault := (o.setWidth 32 <<< 8) ||| (match r with
        | .illegalCmd => 1 | .stateUninit => 2 | .lenContract => 3 | .stride => 4 | .bounds => 5
        | .unwrittenRead => 6 | .overflow => 7 | .fieldBounds => 8 | .collabContract => 9) }) ∧
  (∀ (s : State) (o : Byte) (r : FaultReason),
    (s.takeFault o r).fault.extractLsb' 8 8 = o ∧ (s.takeFault o r).fault.extractLsb' 16 16 = 0 ∧
    (s.takeFault o r).halted = true)

/-- R117: a command that ends halted, on the port or as an instruction, has changed nothing but STATUS and FAULT,
whichever check raised the fault; FAULT holds the OPC of the command and a reason. -/
def Obligations.FaultsArePrecise : Prop :=
  (∀ (s t : State) (c : Command) (rest : List HostMove),
    s.port = .command c :: rest → s.halted = false → step s = .next t → t.halted = true →
    ∃ r, t = ({ s with port := rest } : State).takeFault c.opc r) ∧
  (∀ (i : Instr) (s t : State), s.halted = false → exec i s = .next t → t.halted = true →
    ∃ r, t = s.takeFault i.opc r)

/-- R25 and R26: the result codes each command can leave, and TRUNC only from FRAME.DECODE. -/
def Obligations.StatusCodesOfCommands : Prop :=
  ∀ (i : Instr) (s t : State), exec i s = .next t →
    match i with
    | .frameDecode _ => t.status ∈ ([0x2, 0x12, 0x3, 0x13, 0x4, 0x14, 0x5, 0x15, 0x6, 0xF] : List Word)
    | .frameParse _ => t.status ∈ ([0x2, 0x3, 0x4, 0x5, 0xF] : List Word)
    | _ => t.status ∈ ([0x1, 0xF] : List Word)

/-! The envelope detector (41_envelope.md) -/

/-- R68, R69: the contents and the symmetry of the square ROM, its largest entry, and the sum of two entries. -/
def Obligations.SquareRomContents : Prop :=
  (∀ i : Byte, ((sqRom i).toNat : Int) = (127 - (i.toNat : Int)) ^ 2) ∧ sqRom 127 = 0 ∧
  (∀ i : Byte, i.toNat ≤ 254 → sqRom i = sqRom (254 - i)) ∧ (∀ i : Byte, (sqRom i).toNat ≤ (sqRom 255).toNat) ∧
  (sqRom 255).toNat = 16384 ∧ (∀ i j : Byte, (sqRom i).toNat + (sqRom j).toNat ≤ 32768)

/-- R70, every path of ENV.DETECT. Wrong operands fault STRIDE, then BOUNDS, whatever the memories hold. With operands in
order, an unwritten byte of a sampled pair faults UNWRITTEN_READ; where all of them are written the command completes:
output op is SQ of the two bytes of pair op*2^d (32768 only for the pair (255, 255), 0 only for (127, 127)), the elements
from n/2^d on are unchanged, and nothing else changes but STATUS. -/
def Obligations.EnvDetectCommand : Prop :=
  ∀ (s : State) (d n : Nat),
    (n % 2 ^ d ≠ 0 → exec (.envDetect d n) s = .next (s.takeFault 0x10 .stride)) ∧
    (n % 2 ^ d = 0 → s.params.nIq < 2 * n ∨ s.params.nEnv < n / 2 ^ d →
      exec (.envDetect d n) s = .next (s.takeFault 0x10 .bounds)) ∧
    (n % 2 ^ d = 0 → 2 * n ≤ s.params.nIq → n / 2 ^ d ≤ s.params.nEnv →
      (∀ op, op < n / 2 ^ d →
        Memory.get? s.iqIn (2 * (op * 2 ^ d)) = none ∨ Memory.get? s.iqIn (2 * (op * 2 ^ d) + 1) = none →
        exec (.envDetect d n) s = .next (s.takeFault 0x10 .unwrittenRead)) ∧
      (∀ I Q : Nat → Byte,
        (∀ op, op < n / 2 ^ d → Memory.get? s.iqIn (2 * (op * 2 ^ d)) = some (I op) ∧
          Memory.get? s.iqIn (2 * (op * 2 ^ d) + 1) = some (Q op)) →
        ∃ t, exec (.envDetect d n) s = .next t ∧ t = { s with envOut := t.envOut, status := 1 } ∧
          (∀ op, op < n / 2 ^ d → ∃ e, Memory.get? t.envOut op = some e ∧
            (e.toNat : Int) = (127 - ((I op).toNat : Int)) ^ 2 + (127 - ((Q op).toNat : Int)) ^ 2 ∧
            (e.toNat = 32768 ↔ I op = 255 ∧ Q op = 255) ∧ (e.toNat = 0 ↔ I op = 127 ∧ Q op = 127)) ∧
          (∀ j, n / 2 ^ d ≤ j → Memory.get? t.envOut j = Memory.get? s.envOut j)))

/-- R71: every element that a completed ENV.DETECT writes is in [0, 32768]. -/
def Obligations.EnvelopeSamplesInRange : Prop :=
  ∀ (s t : State) (d n op : Nat), exec (.envDetect d n) s = .next t → t.status = 1 → op < n / 2 ^ d →
    ∃ e, Memory.get? t.envOut op = some e ∧ e.toNat ≤ 32768

/-- What ENV.DETECT leaves unchanged, however it ends: everything but ENV_OUT[0 .. n/2^d), STATUS and FAULT. -/
def Obligations.EnvDetectFrame : Prop :=
  ∀ (s t : State) (d n : Nat), exec (.envDetect d n) s = .next t →
    t = { s with envOut := t.envOut, status := t.status, fault := t.fault } ∧
    (∀ j, n / 2 ^ d ≤ j → Memory.get? t.envOut j = Memory.get? s.envOut j)

/-! The low-pass filter (42_lowpass.md) -/

/-- R73: the kernel answers the floor formula where every product and partial sum fits 32 bits, and OVERFLOW elsewhere. -/
def Obligations.KernelValueOrOverflow : Prop :=
  ∀ (c : Coefs) (x xp yp : Int),
    (KernelFits c x xp yp → lpfKernel c x xp yp = .ok (kernelValue c x xp yp)) ∧
    (¬KernelFits c x xp yp → lpfKernel c x xp yp = .error .overflow)

/-- R74: the kernel's value is at most the exact floor and at least that minus 1, and equal to it when at most one
product is odd; a negative output at zero input never decays; zeros give zero; non-negative operands give a
non-negative value; and the rule's example of a difference. -/
def Obligations.KernelLaws : Prop :=
  (∀ (c : Coefs) (x xp yp v : Int), lpfKernel c x xp yp = .ok v →
    let exact := (c.a1.toInt * yp + c.b0.toInt * x + c.b1.toInt * xp) / 2 ^ 15
    v ≤ exact ∧ exact - 1 ≤ v ∧
    ((c.a1.toInt * yp) % 2 + (c.b0.toInt * x) % 2 + (c.b1.toInt * xp) % 2 ≤ 1 → v = exact) ∧
    (c.b0.toInt % 2 = 0 → c.b1.toInt % 2 = 0 → v = exact)) ∧
  (∀ c : Coefs, 0 < c.a1.toInt → lpfKernel c 0 0 (-1) = .ok (-1)) ∧
  (∀ c : Coefs, lpfKernel c 0 0 0 = .ok 0) ∧
  (∀ (c : Coefs) (x xp yp v : Int), 0 ≤ c.a1.toInt → 0 ≤ c.b0.toInt → 0 ≤ c.b1.toInt → 0 ≤ x → 0 ≤ xp → 0 ≤ yp →
    lpfKernel c x xp yp = .ok v → 0 ≤ v) ∧
  lpfKernel ⟨1, 1, 1⟩ 10923 10923 10923 = .ok 0 ∧ (32769 : Int) / 2 ^ 15 = 1

/-- R75: LPF.RESET completes in every state, zeroes the history and marks it valid; nothing else changes but STATUS. -/
def Obligations.LpfResetCompletes : Prop :=
  ∀ s : State, exec .lpfReset s = .next { s with lpfXp := 0, lpfYp := 0, lpfValid := true, status := 1 }

/-- R76, every path of LPF.FILTER. An invalid history faults STATE_UNINIT, len ≤ 1 LEN_CONTRACT, a len beyond either
memory BOUNDS, in this order. With operands in order, the first sample that is unwritten or whose kernel overflows
decides the fault; where there is none the command completes: output i is wrap_16 of the kernel on sample i and the
values before it, the history becomes the last input and output, the elements from len on are unchanged, and nothing
else changes but STATUS. -/
def Obligations.LpfFilterCommand : Prop :=
  ∀ (s : State) (len : Nat),
    (s.lpfValid = false → exec (.lpfFilter len) s = .next (s.takeFault 0x21 .stateUninit)) ∧
    (s.lpfValid = true → len ≤ 1 → exec (.lpfFilter len) s = .next (s.takeFault 0x21 .lenContract)) ∧
    (s.lpfValid = true → 2 ≤ len → s.params.nEnv < len ∨ s.params.nLpf < len →
      exec (.lpfFilter len) s = .next (s.takeFault 0x21 .bounds)) ∧
    (s.lpfValid = true → 2 ≤ len → len ≤ s.params.nEnv → len ≤ s.params.nLpf → ∀ x y : Nat → Half,
      (∀ m, m < len →
        (∀ i, i < m → Memory.get? s.envOut i = some (x i) ∧ LpfSampleAt s.params.coefEnv s.lpfXp s.lpfYp x y i) →
        (Memory.get? s.envOut m = none → exec (.lpfFilter len) s = .next (s.takeFault 0x21 .unwrittenRead)) ∧
        (Memory.get? s.envOut m = some (x m) → ¬LpfFitsAt s.params.coefEnv s.lpfXp s.lpfYp x y m →
          exec (.lpfFilter len) s = .next (s.takeFault 0x21 .overflow))) ∧
      ((∀ i, i < len → Memory.get? s.envOut i = some (x i) ∧ LpfSampleAt s.params.coefEnv s.lpfXp s.lpfYp x y i) →
        ∃ t, exec (.lpfFilter len) s = .next t ∧
          t = { s with lpfOut := t.lpfOut, lpfXp := x (len - 1), lpfYp := y (len - 1), status := 1 } ∧
          (∀ i, i < len → Memory.get? t.lpfOut i = some (y i)) ∧
          (∀ i, len ≤ i → Memory.get? t.lpfOut i = Memory.get? s.lpfOut i)))

/-- R78: with the reference coefficients and inputs in [0, 32768], a history in range (zero is) stays in range over every
LPF.FILTER, which completes without overflow or wrap: every output is in [0, 32765], and so is the history it leaves. -/
def Obligations.ReferenceFilterNeverOverflows : Prop :=
  ∀ (s : State) (len : Nat) (x : Nat → Half),
    s.params.coefEnv = ⟨31754, 506, 506⟩ → s.lpfValid = true → 2 ≤ len → len ≤ s.params.nEnv → len ≤ s.params.nLpf →
    (∀ i, i < len → Memory.get? s.envOut i = some (x i) ∧ (x i).toNat ≤ 32768) →
    s.lpfXp.toNat ≤ 32768 → 0 ≤ s.lpfYp.toInt → s.lpfYp.toInt ≤ 32767 →
    ∃ (t : State) (y : Nat → Half), exec (.lpfFilter len) s = .next t ∧ t.status = 1 ∧
      t.lpfXp.toNat ≤ 32768 ∧ 0 ≤ t.lpfYp.toInt ∧ t.lpfYp.toInt ≤ 32765 ∧
      (∀ i, i < len → Memory.get? t.lpfOut i = some (y i) ∧ 0 ≤ (y i).toInt ∧ (y i).toInt ≤ 32765 ∧
        lpfKernel s.params.coefEnv ((x i).toNat : Int) ((prevOr s.lpfXp x i).toNat : Int) (prevOr s.lpfYp y i).toInt =
          .ok (y i).toInt)

/-- R79, the reference coefficients: for a constant input X in [0, 32768] from the zero history, the kernel answers on
every sample, its answers fit s16 (so that wrap_16 stores them unchanged), rise, and reach a fixed point of the kernel
after finitely many samples; for the six inputs of the rule it is the value the rule gives. -/
def Obligations.ReferenceOutputsRiseToFixedPoint : Prop :=
  let c : Coefs := ⟨31754, 506, 506⟩
  (∀ X : Int, 0 ≤ X → X ≤ 32768 →
    ∃ y : Nat → Int, lpfKernel c X 0 0 = .ok (y 0) ∧ (∀ i, lpfKernel c X X (y i) = .ok (y (i + 1))) ∧
      (∀ i, 0 ≤ y i ∧ y i ≤ 32767 ∧ y i ≤ y (i + 1)) ∧
      ∃ N, lpfKernel c X X (y N) = .ok (y N) ∧ ∀ i, N ≤ i → y i = y N) ∧
  (∀ (X Y : Int) (y : Nat → Int),
    (X, Y) ∈ ([(1, 0), (10, 0), (100, 68), (1000, 966), (10000, 9948), (32768, 32672)] : List (Int × Int)) →
    lpfKernel c X 0 0 = .ok (y 0) → (∀ i, lpfKernel c X X (y i) = .ok (y (i + 1))) →
    ∃ N, ∀ i, N ≤ i → y i = Y)

/-- R129, envelope path: filtering a buffer in two pieces, each of at least 2 samples, the second loaded where the first
was, gives the outputs and the history of one LPF.FILTER over the whole buffer. -/
def Obligations.LpfSplitEqualsWhole : Prop :=
  ∀ (s s1 s3 : State) (a b : Nat) (second : Memory Half),
    s.halted = false → a + b ≤ s.params.nEnv → a + b ≤ s.params.nLpf →
    (∀ i, i < b → Memory.get? second i = Memory.get? s.envOut (a + i)) →
    exec (.lpfFilter a) s = .next s1 → s1.halted = false →
    exec (.lpfFilter b) { s1 with envOut := second } = .next s3 → s3.halted = false →
    ∃ t, exec (.lpfFilter (a + b)) s = .next t ∧ t.halted = false ∧ t.lpfXp = s3.lpfXp ∧ t.lpfYp = s3.lpfYp ∧
      (∀ i, i < a → Memory.get? t.lpfOut i = Memory.get? s1.lpfOut i) ∧
      (∀ i, i < b → Memory.get? t.lpfOut (a + i) = Memory.get? s3.lpfOut i)

/-- What the LPF commands leave unchanged, however they end: LPF.RESET all but the history, lpf_valid and STATUS;
LPF.FILTER all but LPF_OUT[0 .. len), the history, STATUS and FAULT. -/
def Obligations.LpfCommandsFrame : Prop :=
  (∀ s t : State, exec .lpfReset s = .next t →
    t = { s with lpfXp := t.lpfXp, lpfYp := t.lpfYp, lpfValid := t.lpfValid, status := t.status }) ∧
  (∀ (s t : State) (len : Nat), exec (.lpfFilter len) s = .next t →
    t = { s with lpfOut := t.lpfOut, lpfXp := t.lpfXp, lpfYp := t.lpfYp, status := t.status, fault := t.fault } ∧
    (∀ i, len ≤ i → Memory.get? t.lpfOut i = Memory.get? s.lpfOut i))

/-! The FM demodulator (43_fm_demod.md) -/

/-- R80: the step answers the second stage's value and the new history where every checked value fits 32 bits, and
OVERFLOW elsewhere. Every field of the new history holds its value exactly. -/
def Obligations.FmStepValueOrOverflow : Prop :=
  ∀ (c : Coefs) (h : FmHist) (I Q : Byte),
    (FmFits c h I Q → ∃ h', fmStep c h I Q = .ok (fmYl c h I Q, h') ∧ FmNext c h I Q h') ∧
    (¬FmFits c h I Q → fmStep c h I Q = .error .overflow)

/-- R81: with both samples in range the phase-difference proxy is in [-32640, 32640], both extremes are reached, and it
fits 32 bits. -/
def Obligations.PhaseDifferenceRange : Prop :=
  (∀ ar ai br bi : Int, -128 ≤ ar → ar ≤ 127 → -128 ≤ ai → ai ≤ 127 → -128 ≤ br → br ≤ 127 → -128 ≤ bi → bi ≤ 127 →
    -16256 ≤ ai * br ∧ ai * br ≤ 16384 ∧ -16256 ≤ ar * bi ∧ ar * bi ≤ 16384 ∧
    -32640 ≤ phaseDiff ar ai br bi ∧ phaseDiff ar ai br bi ≤ 32640 ∧ inS32 (phaseDiff ar ai br bi)) ∧
  phaseDiff (-128) (-128) (-128) 127 = 32640 ∧ phaseDiff (-128) (-128) 127 (-128) = -32640

/-- R83: the leak term is 0 below 256; with a constant input the DC-blocked value stays constant there, is the input
itself from a zero state, and otherwise falls by its leak toward (-256, 256) without crossing 0. -/
def Obligations.DcBlockerLaws : Prop :=
  (∀ y : Int, -256 < y → y < 256 → tdiv y dcLeakDiv = 0) ∧
  (∀ p y : Int, -256 < y → y < 256 → dcBlock p p y = .ok y) ∧
  (∀ p : Int, inS32 p → dcBlock p 0 0 = .ok p) ∧
  (∀ p y : Int, inS32 y → dcBlock p p y = .ok (y - tdiv y dcLeakDiv)) ∧
  (∀ y : Int, (256 ≤ y → 0 < y - tdiv y dcLeakDiv ∧ y - tdiv y dcLeakDiv < y) ∧
    (y ≤ -256 → y < y - tdiv y dcLeakDiv ∧ y - tdiv y dcLeakDiv < 0))

/-- R84: FM.RESET completes in every state, zeroes the five history fields and marks them valid; nothing else changes
but STATUS. From a zero previous sample a step that answers has p = 0, whatever its input; the first step after FM.RESET
always answers, with output 0 and the new sample in an otherwise zero history. -/
def Obligations.FmResetCompletes : Prop :=
  (∀ s : State, exec .fmReset s = .next
    { s with fmAr := 0, fmAi := 0, fmXdc := 0, fmYdc := 0, fmYlp := 0, fmValid := true, status := 1 }) ∧
  (∀ (c : Coefs) (h h' : FmHist) (I Q : Byte) (v : Int), h.ar = 0 → h.ai = 0 → fmStep c h I Q = .ok (v, h') →
    h'.xdc = 0) ∧
  (∀ (c : Coefs) (I Q : Byte), ∃ ar ai : Half, ar.toInt = (I.toNat : Int) - 128 ∧ ai.toInt = (Q.toNat : Int) - 128 ∧
    fmStep c ⟨0, 0, 0, 0, 0⟩ I Q = .ok (0, ⟨ar, ai, 0, 0, 0⟩))

/-- R85, every path of FM.DEMOD. An invalid history faults STATE_UNINIT, an n beyond either memory BOUNDS. With operands
in order, the first step with an unwritten byte or an overflow decides the fault; where there is none the command
completes: output k is wrap_W of step k's value, the history becomes the one after the last step (with n = 0 it is
unchanged), the elements from n on are unchanged, and nothing else changes but STATUS. -/
def Obligations.FmDemodCommand : Prop :=
  ∀ (s : State) (n : Nat),
    (s.fmValid = false → exec (.fmDemod n) s = .next (s.takeFault 0x31 .stateUninit)) ∧
    (s.fmValid = true → s.params.nIq < 2 * n ∨ s.params.nFm < n →
      exec (.fmDemod n) s = .next (s.takeFault 0x31 .bounds)) ∧
    (s.fmValid = true → 2 * n ≤ s.params.nIq → n ≤ s.params.nFm →
      ∀ (I Q : Nat → Byte) (h : Nat → FmHist), h 0 = s.fmHist →
      (∀ m, m < n →
        (∀ k, k < m → Memory.get? s.iqIn (2 * k) = some (I k) ∧ Memory.get? s.iqIn (2 * k + 1) = some (Q k) ∧
          FmFits s.params.coefFm (h k) (I k) (Q k) ∧ FmNext s.params.coefFm (h k) (I k) (Q k) (h (k + 1))) →
        (Memory.get? s.iqIn (2 * m) = none ∨ Memory.get? s.iqIn (2 * m + 1) = none →
          exec (.fmDemod n) s = .next (s.takeFault 0x31 .unwrittenRead)) ∧
        (Memory.get? s.iqIn (2 * m) = some (I m) → Memory.get? s.iqIn (2 * m + 1) = some (Q m) →
          ¬FmFits s.params.coefFm (h m) (I m) (Q m) →
          exec (.fmDemod n) s = .next (s.takeFault 0x31 .overflow))) ∧
      ((∀ k, k < n → Memory.get? s.iqIn (2 * k) = some (I k) ∧ Memory.get? s.iqIn (2 * k + 1) = some (Q k) ∧
          FmFits s.params.coefFm (h k) (I k) (Q k) ∧ FmNext s.params.coefFm (h k) (I k) (Q k) (h (k + 1))) →
        ∃ t, exec (.fmDemod n) s = .next t ∧
          t = { s with fmOut := t.fmOut, fmAr := (h n).ar, fmAi := (h n).ai, fmXdc := (h n).xdc, fmYdc := (h n).ydc,
                       fmYlp := (h n).ylp, status := 1 } ∧
          (∀ k, k < n → ∃ o, Memory.get? t.fmOut k = some o ∧
            WrapsTo (fmWidthBits s.params.fmOutWidth) (fmYl s.params.coefFm (h k) (I k) (Q k)) o.toInt) ∧
          (∀ k, n ≤ k → Memory.get? t.fmOut k = Memory.get? s.fmOut k)))

/-- R85, R129: demodulating a buffer in two pieces, the second loaded where the first was, gives the outputs and the
history of one FM.DEMOD over the whole buffer, for every split. -/
def Obligations.FmSplitEqualsWhole : Prop :=
  ∀ (s s1 s3 : State) (a b : Nat) (second : Memory Byte),
    s.halted = false → 2 * (a + b) ≤ s.params.nIq → a + b ≤ s.params.nFm →
    (∀ i, i < 2 * b → Memory.get? second i = Memory.get? s.iqIn (2 * a + i)) →
    exec (.fmDemod a) s = .next s1 → s1.halted = false →
    exec (.fmDemod b) { s1 with iqIn := second } = .next s3 → s3.halted = false →
    ∃ t, exec (.fmDemod (a + b)) s = .next t ∧ t.halted = false ∧ t.fmHist = s3.fmHist ∧
      (∀ i, i < a → Memory.get? t.fmOut i = Memory.get? s1.fmOut i) ∧
      (∀ i, i < b → Memory.get? t.fmOut (a + i) = Memory.get? s3.fmOut i)

/-- What the FM commands leave unchanged, however they end: FM.RESET all but the history, fm_valid and STATUS; FM.DEMOD
all but FM_OUT[0 .. n), the history, STATUS and FAULT. -/
def Obligations.FmCommandsFrame : Prop :=
  (∀ s t : State, exec .fmReset s = .next t →
    t = { s with fmAr := t.fmAr, fmAi := t.fmAi, fmXdc := t.fmXdc, fmYdc := t.fmYdc, fmYlp := t.fmYlp,
                 fmValid := t.fmValid, status := t.status }) ∧
  (∀ (s t : State) (n : Nat), exec (.fmDemod n) s = .next t →
    t = { s with fmOut := t.fmOut, fmAr := t.fmAr, fmAi := t.fmAi, fmXdc := t.fmXdc, fmYdc := t.fmYdc,
                 fmYlp := t.fmYlp, status := t.status, fault := t.fault } ∧
    (∀ k, n ≤ k → Memory.get? t.fmOut k = Memory.get? s.fmOut k))

/-! The CRC unit (44_crc.md) -/

/-- R87: the empty sequence gives init, CRC16 is linear, it is a bijection of the init value, two different init values
never validate the same payload, and the check values. -/
def Obligations.CrcLaws : Prop :=
  (∀ init : Half, crc16 [] init = init) ∧
  (∀ (bs : List Byte) (init : Half), crc16 bs init = crc16 bs 0 ^^^ crc16 (List.replicate bs.length 0) init) ∧
  (∀ bs : List Byte, Function.Bijective (crc16 bs)) ∧
  crc16 [0x31, 0x32, 0x33, 0x34, 0x35, 0x36, 0x37, 0x38, 0x39] 0x0000 = 0x31C3 ∧
  crc16 [0x31, 0x32, 0x33, 0x34, 0x35, 0x36, 0x37, 0x38, 0x39] 0xFFFF = 0x29B1 ∧
  crc16 [0x31, 0x32, 0x33, 0x34, 0x35, 0x36, 0x37, 0x38, 0x39] 0x1D0F = 0xE5CC ∧
  crc16 [0x01] 0x0000 = 0x1021

/-- R90, every path of CRC.COMPUTE: BOUNDS beyond FRAME_CAP, UNWRITTEN_READ for an unwritten byte, else RESULT is the CRC
zero-extended, and nothing else changes but STATUS. -/
def Obligations.CrcComputeCommand : Prop :=
  ∀ (s : State) (off len : Nat) (init : Half),
    (s.params.frameCap < off + len → exec (.crcCompute off len init) s = .next (s.takeFault 0x40 .bounds)) ∧
    (off + len ≤ s.params.frameCap →
      (∀ k, k < len → Memory.get? s.frameBuf (off + k) = none →
        exec (.crcCompute off len init) s = .next (s.takeFault 0x40 .unwrittenRead)) ∧
      (∀ B : Nat → Byte, (∀ i, off ≤ i → i < off + len → Memory.get? s.frameBuf i = some (B i)) →
        exec (.crcCompute off len init) s =
          .next { s with result := (crc16 (slice B off len) init).setWidth 32, status := 1 }))

/-- R91, every path of CRC.VERIFY: LEN_CONTRACT below 2, then BOUNDS, then UNWRITTEN_READ for an unwritten byte. Else,
with k the lowest index whose candidate checks, CRC_IDX is k and RESULT the candidate; with none, CRC_IDX is 0xFF and
RESULT 0xFFFFFFFF; nothing else changes but STATUS. One of the two cases always holds. -/
def Obligations.CrcVerifyCommand : Prop :=
  (∀ (s : State) (off len : Nat),
    (len < 2 → exec (.crcVerify off len) s = .next (s.takeFault 0x41 .lenContract)) ∧
    (2 ≤ len → s.params.frameCap < off + len → exec (.crcVerify off len) s = .next (s.takeFault 0x41 .bounds)) ∧
    (2 ≤ len → off + len ≤ s.params.frameCap →
      (∀ k, k < len → Memory.get? s.frameBuf (off + k) = none →
        exec (.crcVerify off len) s = .next (s.takeFault 0x41 .unwrittenRead)) ∧
      (∀ B : Nat → Byte, (∀ i, off ≤ i → i < off + len → Memory.get? s.frameBuf i = some (B i)) →
        (∀ k : Fin 8, LowestMatch s.params B off len k →
          exec (.crcVerify off len) s =
            .next { s with crcIdx := BitVec.ofNat 8 k.val, result := s.params.crcInit[k].setWidth 32, status := 1 }) ∧
        (NoMatch s.params B off len →
          exec (.crcVerify off len) s = .next { s with crcIdx := 0xFF, result := 0xFFFFFFFF, status := 1 })))) ∧
  (∀ (p : Params) (B : Nat → Byte) (off len : Nat),
    NoMatch p B off len ∨ ∃ k, LowestMatch p B off len k)

/-- What the CRC commands leave unchanged, however they end: all but RESULT, STATUS and FAULT, and for CRC.VERIFY
CRC_IDX. Both store to no memory. -/
def Obligations.CrcCommandsFrame : Prop :=
  (∀ (s t : State) (off len : Nat) (init : Half), exec (.crcCompute off len init) s = .next t →
    t = { s with result := t.result, status := t.status, fault := t.fault }) ∧
  (∀ (s t : State) (off len : Nat), exec (.crcVerify off len) s = .next t →
    t = { s with result := t.result, crcIdx := t.crcIdx, status := t.status, fault := t.fault })

/-! The frame decoder (45_frame_decoder.md) -/

/-- R94: the transitions of the machine, for every staged context in each of its states. -/
def Obligations.FrameTransitions : Prop :=
  ∀ (p : Params) (c : FrameCtx),
    (c.fsm = .searchingPreamble → runSearch p.search c.bits 0 p.syncPattern = none →
      ∃ c', frameStep p c = .ok c' ∧ c'.fsm = .noSync ∧ c'.n = 0) ∧
    (∀ pos, c.fsm = .searchingPreamble → runSearch p.search c.bits 0 p.syncPattern = some pos →
      (patternAt c.bits p.syncPattern pos = true →
        ∃ c', frameStep p c = .ok c' ∧ c'.fsm = .extractingBytes ∧ c'.pos = pos) ∧
      (patternAt c.bits p.syncPattern pos = false → frameStep p c = .error .collabContract)) ∧
    (c.fsm = .extractingBytes → ∃ c', frameStep p c = .ok c' ∧ c'.n ≤ p.frameCap ∧
      (c'.n < 5 → c'.fsm = .failSanity) ∧ (5 ≤ c'.n → c'.fsm = .dispatchType)) ∧
    (∀ b, c.fsm = .dispatchType → c.byte p 2 = .ok b → ∃ c', frameStep p c = .ok c' ∧
      (b ≠ 0x2A → c'.fsm = .abortLength) ∧ (b = 0x2A → c'.fsm = .dispatchSubtype)) ∧
    (∀ B : Nat → Byte, c.fsm = .dispatchSubtype → c.byte p 3 = .ok (B 3) →
      (B 3 ∉ ([0x55, 0xD2, 0xD5] : List Byte) → ∃ c', frameStep p c = .ok c' ∧ c'.fsm = .abortLength) ∧
      (B 3 ∈ ([0x55, 0xD5] : List Byte) → c.n < 6 → ∃ c', frameStep p c = .ok c' ∧ c'.fsm = .abortLength) ∧
      (∀ P L, HeaderGives B P L → P ≤ c.n → (∀ i, 4 ≤ i → i < P → c.byte p i = .ok (B i)) →
        ∃ c', frameStep p c = .ok c' ∧ c'.payload = P ∧ c'.len = L ∧ c'.subtype = B 3 ∧
          (L < 2 ∨ c.n < P + L + 2 → c'.fsm = .abortLength) ∧
          (2 ≤ L → P + L + 2 ≤ c.n → c'.fsm = .validatingCrc))) ∧
    (∀ r, c.fsm = .validatingCrc → verify p c.buf c.payload c.len = .ok r →
      (p.diagEnable = true → r = none → ∃ bs, memReadRange p.frameCap c.buf 0 c.n = .ok bs) →
      ∃ c', frameStep p c = .ok c' ∧ (r = none → c'.fsm = .failMic ∧ c'.crcIdx = 0xFF) ∧
        (∀ k v, r = some (k, v) → c'.fsm = .extractingFields ∧ c'.crcIdx = BitVec.ofNat 8 k)) ∧
    (∀ rec, c.fsm = .extractingFields → fieldsOf p c = .ok rec →
      ∃ c', frameStep p c = .ok c' ∧ c'.fsm = .emit ∧ c'.record = rec) ∧
    (c.fsm = .emit → ∃ c', frameStep p c = .ok c' ∧ c'.fsm = .success ∧ c'.recValid = true ∧
      c'.ev = some (.emit c.record))

/-- R94: a run of the machine from either entry state ends in a terminal state or in a fault, within the one command. -/
def Obligations.FrameMachineEnds : Prop :=
  ∀ (p : Params) (c c' : FrameCtx), c.fsm ≠ .idle → frameRun p frameFuel c = .ok c' →
    c'.fsm.atRest = true ∧ c'.fsm ≠ .idle

/-- R92: the reference SEARCH answers the least position from the start bit on where the pattern stands, and NotFound
only where there is none; and whichever SEARCH a block is built with, it answers NotFound only where the pattern stands
nowhere. -/
def Obligations.ReferenceSearchIsLeast : Prop :=
  (∀ (bits pattern : List Bool) (start : Nat),
    (∀ pos, runSearch .least bits start pattern = some pos ↔
      (start ≤ pos ∧ patternAt bits pattern pos = true ∧
        ∀ q, start ≤ q → q < pos → patternAt bits pattern q = false)) ∧
    (runSearch .least bits start pattern = none ↔ ∀ q, start ≤ q → patternAt bits pattern q = false)) ∧
  (∀ (w : SearchImpl) (bits pattern : List Bool) (start : Nat), runSearch w bits start pattern = none →
    ∀ q, start ≤ q → patternAt bits pattern q = false)

/-- R108, R109, R118: the operand faults of the FRAME commands; the unwritten bit of FRAME.DECODE, which wins over every
later fault; and the unwritten byte of FRAME.PARSE at each of the machine's reads: the tag, the subtype, the length, the
payload with its CRC, the bytes of a DIAG event (log 16), and the fields, where the first field that is out of bounds or
unwritten decides. -/
def Obligations.FrameOperandAndReadFaults : Prop :=
  (∀ (s : State) (n : Nat),
    (s.params.nBits < n → exec (.frameDecode n) s = .next (s.takeFault 0x50 .bounds)) ∧
    (∀ k, n ≤ s.params.nBits → k < n → Memory.get? s.bitIn k = none →
      exec (.frameDecode n) s = .next (s.takeFault 0x50 .unwrittenRead)) ∧
    (s.params.frameCap < n → exec (.frameParse n) s = .next (s.takeFault 0x51 .bounds))) ∧
  (∀ (s : State) (n : Nat) (B : Nat → Byte), 5 ≤ n → n ≤ s.params.frameCap →
    Memory.get? s.frameBuf 2 = none ∨
    Memory.get? s.frameBuf 2 = some 0x2A ∧ Memory.get? s.frameBuf 3 = none ∨
    Memory.get? s.frameBuf 2 = some 0x2A ∧ Memory.get? s.frameBuf 3 = some (B 3) ∧
      (B 3 = 0xD2 ∧ Memory.get? s.frameBuf 4 = none ∨
       (B 3 = 0x55 ∨ B 3 = 0xD5) ∧ 6 ≤ n ∧ (Memory.get? s.frameBuf 4 = none ∨ Memory.get? s.frameBuf 5 = none)) →
    exec (.frameParse n) s = .next (s.takeFault 0x51 .unwrittenRead)) ∧
  (∀ (s : State) (n P L k : Nat) (B : Nat → Byte), n ≤ s.params.frameCap →
    B 2 = 0x2A → HeaderGives B P L → 2 ≤ L → P + L + 2 ≤ n →
    (∀ i, 2 ≤ i → i < P → Memory.get? s.frameBuf i = some (B i)) →
    Memory.get? s.frameBuf k = none →
    (P ≤ k ∧ k < P + L) ∨
      ((∀ i, P ≤ i → i < P + L → Memory.get? s.frameBuf i = some (B i)) ∧ NoMatch s.params B P L ∧
        s.params.diagEnable = true ∧ k < n) →
    exec (.frameParse n) s = .next (s.takeFault 0x51 .unwrittenRead)) ∧
  (∀ (s : State) (n P L off len : Nat) (k : Fin 8) (B : Nat → Byte) (before after : List (Nat × Nat)),
    n ≤ s.params.frameCap → B 2 = 0x2A → HeaderGives B P L → 2 ≤ L → P + L + 2 ≤ n →
    (∀ i, 2 ≤ i → i < P + L → Memory.get? s.frameBuf i = some (B i)) → LowestMatch s.params B P L k →
    fieldReads (B 3) L = before ++ (off, len) :: after →
    (∀ f ∈ before, f.1 + f.2 ≤ n ∧ ∀ i, f.1 ≤ i → i < f.1 + f.2 → Memory.get? s.frameBuf i ≠ none) →
    (n < off + len → exec (.frameParse n) s = .next (s.takeFault 0x51 .fieldBounds)) ∧
    (∀ i, off + len ≤ n → off ≤ i → i < off + len → Memory.get? s.frameBuf i = none →
      exec (.frameParse n) s = .next (s.takeFault 0x51 .unwrittenRead)))

/-- R97: fewer than 5 bytes end in FailSanity before any header byte is read. FRAME.PARSE (R109) reads no byte at all.
FRAME.DECODE (R108) gets that few where EXTRACT stops early, and with any EXTRACT where fewer than 50 bits follow, ten
bits per 8N1 character (R67); the bytes it got are in FRAME_BUF, and the elements beyond them are unchanged. -/
def Obligations.ShortFrameFailsSanity : Prop :=
  (∀ (s : State) (n : Nat), n < 5 → n ≤ s.params.frameCap →
    exec (.frameParse n) s = .next
      { s with flen := BitVec.ofNat 32 n, fsm := .failSanity, crcIdx := 0xFF, recValid := false, status := 4 }) ∧
  (∀ (s : State) (bits : List Bool) (pos : Nat) (es : List Byte), Extracts s bits pos es → 5 ≤ s.params.frameCap →
    es.length < 5 ∨ bits.length - (pos + s.params.syncExtractOffset) < 50 →
    ∃ t, exec (.frameDecode bits.length) s = .next t ∧
      t = { s with
        flen := BitVec.ofNat 32 es.length
        fsm := .failSanity
        crcIdx := 0xFF
        recValid := false
        status := 4
        frameBuf := t.frameBuf } ∧
      (∀ i, i < es.length → Memory.get? t.frameBuf i = es[i]?) ∧
      (∀ i, es.length ≤ i → Memory.get? t.frameBuf i = Memory.get? s.frameBuf i))

/-- R98, R99: FRAME.PARSE ends in AbortLength on a wrong type tag, an unknown subtype, a 2-byte length that is not there,
a declared length below 2 and one longer than the bytes available, having read only the header bytes up to the one
that decides. -/
def Obligations.ParseAbortsOnLength : Prop :=
  ∀ (s : State) (n : Nat) (B : Nat → Byte), 5 ≤ n → n ≤ s.params.frameCap →
    Memory.get? s.frameBuf 2 = some (B 2) →
    (B 2 ≠ 0x2A ∨
     (Memory.get? s.frameBuf 3 = some (B 3) ∧ B 3 ∉ ([0x55, 0xD2, 0xD5] : List Byte)) ∨
     (Memory.get? s.frameBuf 3 = some (B 3) ∧ B 3 ∈ ([0x55, 0xD5] : List Byte) ∧ n < 6) ∨
     (∃ P L, HeaderGives B P L ∧ P ≤ n ∧ (∀ i, 3 ≤ i → i < P → Memory.get? s.frameBuf i = some (B i)) ∧
       (L < 2 ∨ n < P + L + 2))) →
    exec (.frameParse n) s = .next
      { s with flen := BitVec.ofNat 32 n, fsm := .abortLength, crcIdx := 0xFF, recValid := false, status := 3 }

/-- R100, R111: FRAME.PARSE of a frame whose CRC matches no candidate ends in FailMic, with a DIAG event of the n bytes
exactly when DIAG_ENABLE is true. -/
def Obligations.ParseFailsMic : Prop :=
  ∀ (s : State) (n P L : Nat) (B : Nat → Byte), n ≤ s.params.frameCap →
    B 2 = 0x2A → HeaderGives B P L → 2 ≤ L → P + L + 2 ≤ n → NoMatch s.params B P L →
    (∀ i, (2 ≤ i ∧ i < P + L) ∨ (s.params.diagEnable = true ∧ i < n) → Memory.get? s.frameBuf i = some (B i)) →
    exec (.frameParse n) s = .next
      { s with
        flen := BitVec.ofNat 32 n
        fsm := .failMic
        crcIdx := 0xFF
        recValid := false
        out := if s.params.diagEnable = true then s.out ++ [.diag (slice B 0 n)] else s.out
        status := 5 }

/-- R101: FRAME.PARSE of a 0x55 or short 0xD5 frame with a valid CRC and fewer than 30 bytes faults FIELD_BOUNDS. -/
def Obligations.ParseFieldBeyondFrameFaults : Prop :=
  ∀ (s : State) (n L : Nat) (k : Fin 8) (B : Nat → Byte), n ≤ s.params.frameCap →
    B 2 = 0x2A → HeaderGives B 6 L → 2 ≤ L → 6 + L + 2 ≤ n → n < 30 → LowestMatch s.params B 6 L k →
    (∀ i, 2 ≤ i → i < n → Memory.get? s.frameBuf i = some (B i)) →
    exec (.frameParse n) s = .next (s.takeFault 0x51 .fieldBounds)

/-- R102: FRAME.PARSE of a valid 0x55 frame emits the record K55 with the fields of the layout. -/
def Obligations.ParseEmitsK55 : Prop :=
  ∀ (s : State) (n L : Nat) (k : Fin 8) (B : Nat → Byte), n ≤ s.params.frameCap → 30 ≤ n →
    B 2 = 0x2A → B 3 = 0x55 → L = 256 * (B 4).toNat + (B 5).toNat → 2 ≤ L → 6 + L + 2 ≤ n →
    LowestMatch s.params B 6 L k →
    (∀ i, (2 ≤ i ∧ i < 6 + L) ∨ (7 ≤ i ∧ i < 19) ∨ (20 ≤ i ∧ i < 24) ∨ (26 ≤ i ∧ i < 30) →
      Memory.get? s.frameBuf i = some (B i)) →
    exec (.frameParse n) s = .next
      { s with
        flen := BitVec.ofNat 32 n
        fsm := .success
        crcIdx := BitVec.ofNat 8 k.val
        recValid := true
        record := .k55 (addr6 B 7) (addr6 B 13) (word32 B 20) (addr4 B 26)
        out := s.out ++ [.emit (.k55 (addr6 B 7) (addr6 B 13) (word32 B 20) (addr4 B 26))]
        status := 2 }

/-- R103: FRAME.PARSE of a valid 0xD2 frame emits the record KD2 and reads no byte beyond the checked payload. -/
def Obligations.ParseEmitsKD2 : Prop :=
  ∀ (s : State) (n L : Nat) (k : Fin 8) (B : Nat → Byte), n ≤ s.params.frameCap →
    B 2 = 0x2A → B 3 = 0xD2 → L = (B 4).toNat → 2 ≤ L → 5 + L + 2 ≤ n → LowestMatch s.params B 5 L k →
    (∀ i, 2 ≤ i → i < 5 + L → Memory.get? s.frameBuf i = some (B i)) →
    exec (.frameParse n) s = .next
      { s with
        flen := BitVec.ofNat 32 n
        fsm := .success
        crcIdx := BitVec.ofNat 8 k.val
        recValid := true
        record := .kd2
        out := s.out ++ [.emit .kd2]
        status := 2 }

/-- R104: FRAME.PARSE of a valid 0xD5 frame emits KD5S where the declared length is not 0x47, and KD5L with its five
fields, UPTIME and SRC sharing bytes 26 and 27, where it is. -/
def Obligations.ParseEmitsKD5 : Prop :=
  ∀ (s : State) (n L : Nat) (k : Fin 8) (B : Nat → Byte), n ≤ s.params.frameCap → 30 ≤ n →
    B 2 = 0x2A → B 3 = 0xD5 → L = 256 * (B 4).toNat + (B 5).toNat → 2 ≤ L → 6 + L + 2 ≤ n →
    LowestMatch s.params B 6 L k →
    (∀ i, (2 ≤ i ∧ i < 6 + L) ∨ (7 ≤ i ∧ i < 11) ∨ (26 ≤ i ∧ i < 30) → Memory.get? s.frameBuf i = some (B i)) →
    exec (.frameParse n) s = .next
      { s with
        flen := BitVec.ofNat 32 n
        fsm := .success
        crcIdx := BitVec.ofNat 8 k.val
        recValid := true
        record := if L = 0x47 then .kd5l (addr4 B 7) (addr4 B 26) (word32 B 16) (word32 B 24) (addr6 B 32)
          else .kd5s (addr4 B 7) (addr4 B 26)
        out := s.out ++ [.emit (if L = 0x47 then
          .kd5l (addr4 B 7) (addr4 B 26) (word32 B 16) (word32 B 24) (addr6 B 32)
          else .kd5s (addr4 B 7) (addr4 B 26))]
        status := 2 }

/-- R108: FRAME.DECODE that finds the pattern and extracts a valid frame of any kind completes: the extracted bytes, cut
at FRAME_CAP, are in FRAME_BUF, the elements beyond them are unchanged, the record is held and emitted, TRUNC says
whether bytes were cut, and nothing else changes. -/
def Obligations.DecodeEmitsRecord : Prop :=
  ∀ (s : State) (bits : List Bool) (pos : Nat) (es : List Byte) (k : Fin 8) (r : Record),
    Extracts s bits pos es →
    ValidFrame s.params (fun i => es.getD i 0) (min es.length s.params.frameCap) k r →
    ∃ t, exec (.frameDecode bits.length) s = .next t ∧
      t = { s with
        flen := BitVec.ofNat 32 (min es.length s.params.frameCap)
        fsm := .success
        crcIdx := BitVec.ofNat 8 k.val
        recValid := true
        record := r
        out := s.out ++ [.emit r]
        status := if s.params.frameCap < es.length then 0x12 else 0x2
        frameBuf := t.frameBuf } ∧
      (∀ i, i < min es.length s.params.frameCap → Memory.get? t.frameBuf i = es[i]?) ∧
      (∀ i, min es.length s.params.frameCap ≤ i → Memory.get? t.frameBuf i = Memory.get? s.frameBuf i)

/-- D53, R97: where SEARCH finds the pattern, FRAME.DECODE does what FRAME.PARSE does on the extracted bytes: from the
state with those bytes in FRAME_BUF, it reaches the same state but for TRUNC, and it faults for the same reason. -/
def Obligations.DecodeRefinesParse : Prop :=
  ∀ (s : State) (bits : List Bool) (pos : Nat) (es : List Byte) (u : State),
    s.halted = false → Extracts s bits pos es →
    exec (.frameParse (min es.length s.params.frameCap))
      { s with frameBuf := Memory.setRange s.frameBuf 0 (es.take s.params.frameCap) } = .next u →
    (u.halted = false → exec (.frameDecode bits.length) s =
      .next { u with status := u.status ||| (if s.params.frameCap < es.length then 0x10 else 0) }) ∧
    (∀ f, u = ({ s with frameBuf := Memory.setRange s.frameBuf 0 (es.take s.params.frameCap) } : State).takeFault 0x51 f →
      exec (.frameDecode bits.length) s = .next (s.takeFault 0x50 f))

/-- R96, R108: FRAME.DECODE with every bit written ends in NoSync where SEARCH finds nothing, with FLEN 0 and FRAME_BUF
unchanged, and faults COLLAB_CONTRACT where SEARCH answers a position at which the pattern does not stand. -/
def Obligations.DecodeWithoutSync : Prop :=
  ∀ (s : State) (bits : List Bool), bits.length ≤ s.params.nBits →
    (∀ j (h : j < bits.length), Memory.get? s.bitIn j = some bits[j]) →
    (runSearch s.params.search bits 0 s.params.syncPattern = none →
      exec (.frameDecode bits.length) s = .next
        { s with flen := 0, fsm := .noSync, crcIdx := 0xFF, recValid := false, status := 6 }) ∧
    (∀ pos, runSearch s.params.search bits 0 s.params.syncPattern = some pos →
      ¬(pos + s.params.syncPattern.length ≤ bits.length ∧
        (bits.drop pos).take s.params.syncPattern.length = s.params.syncPattern) →
      exec (.frameDecode bits.length) s = .next (s.takeFault 0x50 .collabContract))

/-- R112 (a duty of the host; no step uses it, log 15): the field sequence of each kind. -/
def Obligations.RenderingOfEmits : Prop :=
  ∀ (p : Params) (d4 s4 : Vector Byte 4) (a6 b6 : Vector Byte 6) (ts up : Word),
    (OutEvent.emit (.k55 a6 b6 up s4)).render p =
      [⟨"model", .string, p.modelName⟩, ⟨"id", .string, hexOf s4.toList⟩, ⟨"destwanaddress", .string, hexOf a6.toList⟩,
       ⟨"srcwanaddress", .string, hexOf b6.toList⟩, ⟨"uptime", .integer, toString up.toNat⟩, ⟨"mic", .string, "CRC"⟩] ∧
    (OutEvent.emit .kd2).render p =
      [⟨"model", .string, p.modelName⟩, ⟨"id", .integer, "0"⟩, ⟨"mic", .string, "CRC"⟩] ∧
    (OutEvent.emit (.kd5s d4 s4)).render p =
      [⟨"model", .string, p.modelName⟩, ⟨"id", .string, hexOf s4.toList⟩, ⟨"destaddress", .string, hexOf d4.toList⟩,
       ⟨"mic", .string, "CRC"⟩] ∧
    (OutEvent.emit (.kd5l d4 s4 ts up a6)).render p =
      [⟨"model", .string, p.modelName⟩, ⟨"id", .string, hexOf s4.toList⟩, ⟨"destaddress", .string, hexOf d4.toList⟩,
       ⟨"timestamp", .string, Config.localtime ts⟩, ⟨"uptime", .integer, toString up.toNat⟩,
       ⟨"wanaddress", .string, hexOf a6.toList⟩, ⟨"mic", .string, "CRC"⟩] ∧
    hexOf [0x00, 0x0A, 0xDE, 0xF0] = "000adef0"

/-- R107: the outcome of a FRAME command depends on its operand, BIT_IN or FRAME_BUF, and the parameters only. Two blocks
that agree on those, whatever else they hold, either both fault with one FAULT word, or leave the same STATUS, FLEN,
fsm, CRC_IDX, REC_VALID, record (if valid) and event, and, after FRAME.DECODE, the same valid frame bytes. -/
def Obligations.FrameOutcomeIndependent : Prop :=
  ∀ (s1 s2 t1 t2 : State) (i : Instr),
    s1.halted = false → s2.halted = false → s1.params = s2.params →
    ((∃ n, i = .frameDecode n ∧ s1.bitIn = s2.bitIn) ∨ (∃ n, i = .frameParse n ∧ s1.frameBuf = s2.frameBuf)) →
    exec i s1 = .next t1 → exec i s2 = .next t2 →
    t1.status = t2.status ∧
    ((t1.halted = true ∧ t2.halted = true ∧ t1.fault = t2.fault) ∨
     (t1.halted = false ∧ t2.halted = false ∧ t1.flen = t2.flen ∧ t1.fsm = t2.fsm ∧ t1.crcIdx = t2.crcIdx ∧
      t1.recValid = t2.recValid ∧ (t1.recValid = true → t1.record = t2.record) ∧
      (∃ evs, t1.out = s1.out ++ evs ∧ t2.out = s2.out ++ evs) ∧
      (∀ j, j < t1.flen.toNat → Memory.get? t1.frameBuf j = Memory.get? t2.frameBuf j)))

/-- What the FRAME commands leave unchanged, however they end: all but FLEN, fsm, CRC_IDX, REC, OUT, STATUS, FAULT and,
for FRAME.DECODE, FRAME_BUF[0 .. FLEN). FRAME.PARSE stores to no memory. -/
def Obligations.FrameCommandsFrame : Prop :=
  (∀ (s t : State) (n : Nat), exec (.frameParse n) s = .next t →
    t = { s with flen := t.flen, fsm := t.fsm, crcIdx := t.crcIdx, recValid := t.recValid, record := t.record,
                 out := t.out, status := t.status, fault := t.fault }) ∧
  (∀ (s t : State) (n : Nat), exec (.frameDecode n) s = .next t →
    t = { s with flen := t.flen, fsm := t.fsm, crcIdx := t.crcIdx, recValid := t.recValid, record := t.record,
                 out := t.out, status := t.status, fault := t.fault, frameBuf := t.frameBuf } ∧
    (s.params.frameCap < 2 ^ 32 → ∀ j, t.flen.toNat ≤ j → Memory.get? t.frameBuf j = Memory.get? s.frameBuf j))

/-! The whole machine -/

/-- The invariant of Safety.lean holds after reset. -/
def Obligations.ResetMeetsInvariant : Prop := State.reset.Inv

/-- Every step keeps the invariant: canonical memories inside their sizes, FLEN at most FRAME_CAP (R30), fsm at rest
(R31), REC_VALID exactly in Success (R32), STATUS and FAULT words of R25 and R27, halted exactly with STATUS = 15,
CRC_IDX in range (R29), fm_ar and fm_ai in range (R24). -/
def Obligations.StepKeepsInvariant : Prop :=
  ∀ s t : State, s.Inv → step s = .next t → t.Inv

/-- R33: OUT is append-only, at most one event a step; only the reset move empties it. -/
def Obligations.OutIsAppendOnly : Prop :=
  ∀ s t : State, step s = .next t →
    (∃ evs, evs.length ≤ 1 ∧ t.out = s.out ++ evs ∧ (evs ≠ [] → ∃ c rest, s.port = .command c :: rest)) ∨
    (t.out = [] ∧ ∃ rest, s.port = .reset :: rest)

/-- R21: no step, the reset move among them, changes a parameter. -/
def Obligations.ParametersNeverChange : Prop :=
  ∀ s t : State, step s = .next t → t.params = s.params

/-- R34: no command reads STATUS, CRC_IDX, REC_VALID, FAULT, RESULT, FLEN, fsm, REC or OUT as an input. Two runs of an
instruction that differ in these only end with the same STATUS, memories, filter histories and valid bits; each of the
others is either written alike in both runs or kept in both; and OUT gets the same events. -/
def Obligations.FlagsAreNotInputs : Prop :=
  ∀ (i : Instr) (s t u : State) (st f res fl : Word) (ci : Byte) (fs : Fsm) (rv : Bool) (rec : Record)
    (ev : List OutEvent),
    exec i s = .next t →
    exec i { s with status := st, fault := f, result := res, flen := fl, crcIdx := ci, fsm := fs, recValid := rv,
                    record := rec, out := ev } = .next u →
    u = { t with fault := u.fault, result := u.result, flen := u.flen, crcIdx := u.crcIdx, fsm := u.fsm,
                 recValid := u.recValid, record := u.record, out := u.out } ∧
    (u.fault = t.fault ∨ (t.fault = s.fault ∧ u.fault = f)) ∧
    (u.result = t.result ∨ (t.result = s.result ∧ u.result = res)) ∧
    (u.flen = t.flen ∨ (t.flen = s.flen ∧ u.flen = fl)) ∧
    (u.crcIdx = t.crcIdx ∨ (t.crcIdx = s.crcIdx ∧ u.crcIdx = ci)) ∧
    (u.fsm = t.fsm ∨ (t.fsm = s.fsm ∧ u.fsm = fs)) ∧
    (u.recValid = t.recValid ∨ (t.recValid = s.recValid ∧ u.recValid = rv)) ∧
    (u.record = t.record ∨ (t.record = s.record ∧ u.record = rec)) ∧
    (∃ evs, t.out = s.out ++ evs ∧ u.out = ev ++ evs)
end

