-- ==== Sys2Proof/Laws/State.lean ====
section
/-! SUPPORT. What each named update of State leaves in each field: one lemma per field per update, true by rfl. -/

namespace Sys2Proof.Machine

open Sys2Proof

@[simp] theorem State.markDone_params (s : State) : (s.markDone).params = s.params := rfl
@[simp] theorem State.markDone_port (s : State) : (s.markDone).port = s.port := rfl
@[simp] theorem State.markDone_lastRead (s : State) : (s.markDone).lastRead = s.lastRead := rfl
@[simp] theorem State.markDone_lpfValid (s : State) : (s.markDone).lpfValid = s.lpfValid := rfl
@[simp] theorem State.markDone_lpfXp (s : State) : (s.markDone).lpfXp = s.lpfXp := rfl
@[simp] theorem State.markDone_lpfYp (s : State) : (s.markDone).lpfYp = s.lpfYp := rfl
@[simp] theorem State.markDone_fmValid (s : State) : (s.markDone).fmValid = s.fmValid := rfl
@[simp] theorem State.markDone_fmAr (s : State) : (s.markDone).fmAr = s.fmAr := rfl
@[simp] theorem State.markDone_fmAi (s : State) : (s.markDone).fmAi = s.fmAi := rfl
@[simp] theorem State.markDone_fmXdc (s : State) : (s.markDone).fmXdc = s.fmXdc := rfl
@[simp] theorem State.markDone_fmYdc (s : State) : (s.markDone).fmYdc = s.fmYdc := rfl
@[simp] theorem State.markDone_fmYlp (s : State) : (s.markDone).fmYlp = s.fmYlp := rfl
@[simp] theorem State.markDone_status (s : State) : (s.markDone).status = statusWord .done false := rfl
@[simp] theorem State.markDone_fault (s : State) : (s.markDone).fault = s.fault := rfl
@[simp] theorem State.markDone_result (s : State) : (s.markDone).result = s.result := rfl
@[simp] theorem State.markDone_crcIdx (s : State) : (s.markDone).crcIdx = s.crcIdx := rfl
@[simp] theorem State.markDone_flen (s : State) : (s.markDone).flen = s.flen := rfl
@[simp] theorem State.markDone_fsm (s : State) : (s.markDone).fsm = s.fsm := rfl
@[simp] theorem State.markDone_recValid (s : State) : (s.markDone).recValid = s.recValid := rfl
@[simp] theorem State.markDone_record (s : State) : (s.markDone).record = s.record := rfl
@[simp] theorem State.markDone_out (s : State) : (s.markDone).out = s.out := rfl
@[simp] theorem State.markDone_iqIn (s : State) : (s.markDone).iqIn = s.iqIn := rfl
@[simp] theorem State.markDone_envOut (s : State) : (s.markDone).envOut = s.envOut := rfl
@[simp] theorem State.markDone_lpfOut (s : State) : (s.markDone).lpfOut = s.lpfOut := rfl
@[simp] theorem State.markDone_fmOut (s : State) : (s.markDone).fmOut = s.fmOut := rfl
@[simp] theorem State.markDone_bitIn (s : State) : (s.markDone).bitIn = s.bitIn := rfl
@[simp] theorem State.markDone_frameBuf (s : State) : (s.markDone).frameBuf = s.frameBuf := rfl

@[simp] theorem State.takeFault_params (s : State) (o : Byte) (r : FaultReason) : (s.takeFault o r).params = s.params := rfl
@[simp] theorem State.takeFault_port (s : State) (o : Byte) (r : FaultReason) : (s.takeFault o r).port = s.port := rfl
@[simp] theorem State.takeFault_lastRead (s : State) (o : Byte) (r : FaultReason) : (s.takeFault o r).lastRead = s.lastRead := rfl
@[simp] theorem State.takeFault_lpfValid (s : State) (o : Byte) (r : FaultReason) : (s.takeFault o r).lpfValid = s.lpfValid := rfl
@[simp] theorem State.takeFault_lpfXp (s : State) (o : Byte) (r : FaultReason) : (s.takeFault o r).lpfXp = s.lpfXp := rfl
@[simp] theorem State.takeFault_lpfYp (s : State) (o : Byte) (r : FaultReason) : (s.takeFault o r).lpfYp = s.lpfYp := rfl
@[simp] theorem State.takeFault_fmValid (s : State) (o : Byte) (r : FaultReason) : (s.takeFault o r).fmValid = s.fmValid := rfl
@[simp] theorem State.takeFault_fmAr (s : State) (o : Byte) (r : FaultReason) : (s.takeFault o r).fmAr = s.fmAr := rfl
@[simp] theorem State.takeFault_fmAi (s : State) (o : Byte) (r : FaultReason) : (s.takeFault o r).fmAi = s.fmAi := rfl
@[simp] theorem State.takeFault_fmXdc (s : State) (o : Byte) (r : FaultReason) : (s.takeFault o r).fmXdc = s.fmXdc := rfl
@[simp] theorem State.takeFault_fmYdc (s : State) (o : Byte) (r : FaultReason) : (s.takeFault o r).fmYdc = s.fmYdc := rfl
@[simp] theorem State.takeFault_fmYlp (s : State) (o : Byte) (r : FaultReason) : (s.takeFault o r).fmYlp = s.fmYlp := rfl
@[simp] theorem State.takeFault_status (s : State) (o : Byte) (r : FaultReason) : (s.takeFault o r).status = statusWord .fault false := rfl
@[simp] theorem State.takeFault_fault (s : State) (o : Byte) (r : FaultReason) : (s.takeFault o r).fault = faultWord o r := rfl
@[simp] theorem State.takeFault_result (s : State) (o : Byte) (r : FaultReason) : (s.takeFault o r).result = s.result := rfl
@[simp] theorem State.takeFault_crcIdx (s : State) (o : Byte) (r : FaultReason) : (s.takeFault o r).crcIdx = s.crcIdx := rfl
@[simp] theorem State.takeFault_flen (s : State) (o : Byte) (r : FaultReason) : (s.takeFault o r).flen = s.flen := rfl
@[simp] theorem State.takeFault_fsm (s : State) (o : Byte) (r : FaultReason) : (s.takeFault o r).fsm = s.fsm := rfl
@[simp] theorem State.takeFault_recValid (s : State) (o : Byte) (r : FaultReason) : (s.takeFault o r).recValid = s.recValid := rfl
@[simp] theorem State.takeFault_record (s : State) (o : Byte) (r : FaultReason) : (s.takeFault o r).record = s.record := rfl
@[simp] theorem State.takeFault_out (s : State) (o : Byte) (r : FaultReason) : (s.takeFault o r).out = s.out := rfl
@[simp] theorem State.takeFault_iqIn (s : State) (o : Byte) (r : FaultReason) : (s.takeFault o r).iqIn = s.iqIn := rfl
@[simp] theorem State.takeFault_envOut (s : State) (o : Byte) (r : FaultReason) : (s.takeFault o r).envOut = s.envOut := rfl
@[simp] theorem State.takeFault_lpfOut (s : State) (o : Byte) (r : FaultReason) : (s.takeFault o r).lpfOut = s.lpfOut := rfl
@[simp] theorem State.takeFault_fmOut (s : State) (o : Byte) (r : FaultReason) : (s.takeFault o r).fmOut = s.fmOut := rfl
@[simp] theorem State.takeFault_bitIn (s : State) (o : Byte) (r : FaultReason) : (s.takeFault o r).bitIn = s.bitIn := rfl
@[simp] theorem State.takeFault_frameBuf (s : State) (o : Byte) (r : FaultReason) : (s.takeFault o r).frameBuf = s.frameBuf := rfl

@[simp] theorem State.setFmHist_params (s : State) (h : FmHist) : (s.setFmHist h).params = s.params := rfl
@[simp] theorem State.setFmHist_port (s : State) (h : FmHist) : (s.setFmHist h).port = s.port := rfl
@[simp] theorem State.setFmHist_lastRead (s : State) (h : FmHist) : (s.setFmHist h).lastRead = s.lastRead := rfl
@[simp] theorem State.setFmHist_lpfValid (s : State) (h : FmHist) : (s.setFmHist h).lpfValid = s.lpfValid := rfl
@[simp] theorem State.setFmHist_lpfXp (s : State) (h : FmHist) : (s.setFmHist h).lpfXp = s.lpfXp := rfl
@[simp] theorem State.setFmHist_lpfYp (s : State) (h : FmHist) : (s.setFmHist h).lpfYp = s.lpfYp := rfl
@[simp] theorem State.setFmHist_fmValid (s : State) (h : FmHist) : (s.setFmHist h).fmValid = s.fmValid := rfl
@[simp] theorem State.setFmHist_fmAr (s : State) (h : FmHist) : (s.setFmHist h).fmAr = h.ar := rfl
@[simp] theorem State.setFmHist_fmAi (s : State) (h : FmHist) : (s.setFmHist h).fmAi = h.ai := rfl
@[simp] theorem State.setFmHist_fmXdc (s : State) (h : FmHist) : (s.setFmHist h).fmXdc = h.xdc := rfl
@[simp] theorem State.setFmHist_fmYdc (s : State) (h : FmHist) : (s.setFmHist h).fmYdc = h.ydc := rfl
@[simp] theorem State.setFmHist_fmYlp (s : State) (h : FmHist) : (s.setFmHist h).fmYlp = h.ylp := rfl
@[simp] theorem State.setFmHist_status (s : State) (h : FmHist) : (s.setFmHist h).status = s.status := rfl
@[simp] theorem State.setFmHist_fault (s : State) (h : FmHist) : (s.setFmHist h).fault = s.fault := rfl
@[simp] theorem State.setFmHist_result (s : State) (h : FmHist) : (s.setFmHist h).result = s.result := rfl
@[simp] theorem State.setFmHist_crcIdx (s : State) (h : FmHist) : (s.setFmHist h).crcIdx = s.crcIdx := rfl
@[simp] theorem State.setFmHist_flen (s : State) (h : FmHist) : (s.setFmHist h).flen = s.flen := rfl
@[simp] theorem State.setFmHist_fsm (s : State) (h : FmHist) : (s.setFmHist h).fsm = s.fsm := rfl
@[simp] theorem State.setFmHist_recValid (s : State) (h : FmHist) : (s.setFmHist h).recValid = s.recValid := rfl
@[simp] theorem State.setFmHist_record (s : State) (h : FmHist) : (s.setFmHist h).record = s.record := rfl
@[simp] theorem State.setFmHist_out (s : State) (h : FmHist) : (s.setFmHist h).out = s.out := rfl
@[simp] theorem State.setFmHist_iqIn (s : State) (h : FmHist) : (s.setFmHist h).iqIn = s.iqIn := rfl
@[simp] theorem State.setFmHist_envOut (s : State) (h : FmHist) : (s.setFmHist h).envOut = s.envOut := rfl
@[simp] theorem State.setFmHist_lpfOut (s : State) (h : FmHist) : (s.setFmHist h).lpfOut = s.lpfOut := rfl
@[simp] theorem State.setFmHist_fmOut (s : State) (h : FmHist) : (s.setFmHist h).fmOut = s.fmOut := rfl
@[simp] theorem State.setFmHist_bitIn (s : State) (h : FmHist) : (s.setFmHist h).bitIn = s.bitIn := rfl
@[simp] theorem State.setFmHist_frameBuf (s : State) (h : FmHist) : (s.setFmHist h).frameBuf = s.frameBuf := rfl

@[simp] theorem State.applyReset_params (s : State) : (s.applyReset).params = s.params := rfl
@[simp] theorem State.applyReset_port (s : State) : (s.applyReset).port = s.port := rfl
@[simp] theorem State.applyReset_lastRead (s : State) : (s.applyReset).lastRead = s.lastRead := rfl
@[simp] theorem State.applyReset_lpfValid (s : State) : (s.applyReset).lpfValid = State.reset.lpfValid := rfl
@[simp] theorem State.applyReset_lpfXp (s : State) : (s.applyReset).lpfXp = State.reset.lpfXp := rfl
@[simp] theorem State.applyReset_lpfYp (s : State) : (s.applyReset).lpfYp = State.reset.lpfYp := rfl
@[simp] theorem State.applyReset_fmValid (s : State) : (s.applyReset).fmValid = State.reset.fmValid := rfl
@[simp] theorem State.applyReset_fmAr (s : State) : (s.applyReset).fmAr = State.reset.fmAr := rfl
@[simp] theorem State.applyReset_fmAi (s : State) : (s.applyReset).fmAi = State.reset.fmAi := rfl
@[simp] theorem State.applyReset_fmXdc (s : State) : (s.applyReset).fmXdc = State.reset.fmXdc := rfl
@[simp] theorem State.applyReset_fmYdc (s : State) : (s.applyReset).fmYdc = State.reset.fmYdc := rfl
@[simp] theorem State.applyReset_fmYlp (s : State) : (s.applyReset).fmYlp = State.reset.fmYlp := rfl
@[simp] theorem State.applyReset_status (s : State) : (s.applyReset).status = State.reset.status := rfl
@[simp] theorem State.applyReset_fault (s : State) : (s.applyReset).fault = State.reset.fault := rfl
@[simp] theorem State.applyReset_result (s : State) : (s.applyReset).result = State.reset.result := rfl
@[simp] theorem State.applyReset_crcIdx (s : State) : (s.applyReset).crcIdx = State.reset.crcIdx := rfl
@[simp] theorem State.applyReset_flen (s : State) : (s.applyReset).flen = State.reset.flen := rfl
@[simp] theorem State.applyReset_fsm (s : State) : (s.applyReset).fsm = State.reset.fsm := rfl
@[simp] theorem State.applyReset_recValid (s : State) : (s.applyReset).recValid = State.reset.recValid := rfl
@[simp] theorem State.applyReset_record (s : State) : (s.applyReset).record = State.reset.record := rfl
@[simp] theorem State.applyReset_out (s : State) : (s.applyReset).out = State.reset.out := rfl
@[simp] theorem State.applyReset_iqIn (s : State) : (s.applyReset).iqIn = State.reset.iqIn := rfl
@[simp] theorem State.applyReset_envOut (s : State) : (s.applyReset).envOut = State.reset.envOut := rfl
@[simp] theorem State.applyReset_lpfOut (s : State) : (s.applyReset).lpfOut = State.reset.lpfOut := rfl
@[simp] theorem State.applyReset_fmOut (s : State) : (s.applyReset).fmOut = State.reset.fmOut := rfl
@[simp] theorem State.applyReset_bitIn (s : State) : (s.applyReset).bitIn = State.reset.bitIn := rfl
@[simp] theorem State.applyReset_frameBuf (s : State) : (s.applyReset).frameBuf = State.reset.frameBuf := rfl

@[simp] theorem State.withCommand_params (s : State) (c : Command) : (s.withCommand c).params = s.params := rfl
@[simp] theorem State.withCommand_port (s : State) (c : Command) : (s.withCommand c).port = .command c :: s.port := rfl
@[simp] theorem State.withCommand_lastRead (s : State) (c : Command) : (s.withCommand c).lastRead = s.lastRead := rfl
@[simp] theorem State.withCommand_lpfValid (s : State) (c : Command) : (s.withCommand c).lpfValid = s.lpfValid := rfl
@[simp] theorem State.withCommand_lpfXp (s : State) (c : Command) : (s.withCommand c).lpfXp = s.lpfXp := rfl
@[simp] theorem State.withCommand_lpfYp (s : State) (c : Command) : (s.withCommand c).lpfYp = s.lpfYp := rfl
@[simp] theorem State.withCommand_fmValid (s : State) (c : Command) : (s.withCommand c).fmValid = s.fmValid := rfl
@[simp] theorem State.withCommand_fmAr (s : State) (c : Command) : (s.withCommand c).fmAr = s.fmAr := rfl
@[simp] theorem State.withCommand_fmAi (s : State) (c : Command) : (s.withCommand c).fmAi = s.fmAi := rfl
@[simp] theorem State.withCommand_fmXdc (s : State) (c : Command) : (s.withCommand c).fmXdc = s.fmXdc := rfl
@[simp] theorem State.withCommand_fmYdc (s : State) (c : Command) : (s.withCommand c).fmYdc = s.fmYdc := rfl
@[simp] theorem State.withCommand_fmYlp (s : State) (c : Command) : (s.withCommand c).fmYlp = s.fmYlp := rfl
@[simp] theorem State.withCommand_status (s : State) (c : Command) : (s.withCommand c).status = s.status := rfl
@[simp] theorem State.withCommand_fault (s : State) (c : Command) : (s.withCommand c).fault = s.fault := rfl
@[simp] theorem State.withCommand_result (s : State) (c : Command) : (s.withCommand c).result = s.result := rfl
@[simp] theorem State.withCommand_crcIdx (s : State) (c : Command) : (s.withCommand c).crcIdx = s.crcIdx := rfl
@[simp] theorem State.withCommand_flen (s : State) (c : Command) : (s.withCommand c).flen = s.flen := rfl
@[simp] theorem State.withCommand_fsm (s : State) (c : Command) : (s.withCommand c).fsm = s.fsm := rfl
@[simp] theorem State.withCommand_recValid (s : State) (c : Command) : (s.withCommand c).recValid = s.recValid := rfl
@[simp] theorem State.withCommand_record (s : State) (c : Command) : (s.withCommand c).record = s.record := rfl
@[simp] theorem State.withCommand_out (s : State) (c : Command) : (s.withCommand c).out = s.out := rfl
@[simp] theorem State.withCommand_iqIn (s : State) (c : Command) : (s.withCommand c).iqIn = s.iqIn := rfl
@[simp] theorem State.withCommand_envOut (s : State) (c : Command) : (s.withCommand c).envOut = s.envOut := rfl
@[simp] theorem State.withCommand_lpfOut (s : State) (c : Command) : (s.withCommand c).lpfOut = s.lpfOut := rfl
@[simp] theorem State.withCommand_fmOut (s : State) (c : Command) : (s.withCommand c).fmOut = s.fmOut := rfl
@[simp] theorem State.withCommand_bitIn (s : State) (c : Command) : (s.withCommand c).bitIn = s.bitIn := rfl
@[simp] theorem State.withCommand_frameBuf (s : State) (c : Command) : (s.withCommand c).frameBuf = s.frameBuf := rfl

@[simp] theorem frameCommit_params (c : FrameCtx) (s : State) : (frameCommit c s).params = s.params := rfl
@[simp] theorem frameCommit_port (c : FrameCtx) (s : State) : (frameCommit c s).port = s.port := rfl
@[simp] theorem frameCommit_lastRead (c : FrameCtx) (s : State) : (frameCommit c s).lastRead = s.lastRead := rfl
@[simp] theorem frameCommit_lpfValid (c : FrameCtx) (s : State) : (frameCommit c s).lpfValid = s.lpfValid := rfl
@[simp] theorem frameCommit_lpfXp (c : FrameCtx) (s : State) : (frameCommit c s).lpfXp = s.lpfXp := rfl
@[simp] theorem frameCommit_lpfYp (c : FrameCtx) (s : State) : (frameCommit c s).lpfYp = s.lpfYp := rfl
@[simp] theorem frameCommit_fmValid (c : FrameCtx) (s : State) : (frameCommit c s).fmValid = s.fmValid := rfl
@[simp] theorem frameCommit_fmAr (c : FrameCtx) (s : State) : (frameCommit c s).fmAr = s.fmAr := rfl
@[simp] theorem frameCommit_fmAi (c : FrameCtx) (s : State) : (frameCommit c s).fmAi = s.fmAi := rfl
@[simp] theorem frameCommit_fmXdc (c : FrameCtx) (s : State) : (frameCommit c s).fmXdc = s.fmXdc := rfl
@[simp] theorem frameCommit_fmYdc (c : FrameCtx) (s : State) : (frameCommit c s).fmYdc = s.fmYdc := rfl
@[simp] theorem frameCommit_fmYlp (c : FrameCtx) (s : State) : (frameCommit c s).fmYlp = s.fmYlp := rfl
@[simp] theorem frameCommit_status (c : FrameCtx) (s : State) : (frameCommit c s).status = statusWord c.fsm.resultCode (if c.fsm = .noSync then false else c.trunc) := rfl
@[simp] theorem frameCommit_fault (c : FrameCtx) (s : State) : (frameCommit c s).fault = s.fault := rfl
@[simp] theorem frameCommit_result (c : FrameCtx) (s : State) : (frameCommit c s).result = s.result := rfl
@[simp] theorem frameCommit_crcIdx (c : FrameCtx) (s : State) : (frameCommit c s).crcIdx = c.crcIdx := rfl
@[simp] theorem frameCommit_flen (c : FrameCtx) (s : State) : (frameCommit c s).flen = mod32 c.n := rfl
@[simp] theorem frameCommit_fsm (c : FrameCtx) (s : State) : (frameCommit c s).fsm = c.fsm := rfl
@[simp] theorem frameCommit_recValid (c : FrameCtx) (s : State) : (frameCommit c s).recValid = c.recValid := rfl
@[simp] theorem frameCommit_record (c : FrameCtx) (s : State) : (frameCommit c s).record = (if c.fsm = .success then c.record else s.record) := rfl
@[simp] theorem frameCommit_out (c : FrameCtx) (s : State) : (frameCommit c s).out = s.out ++ c.ev.toList := rfl
@[simp] theorem frameCommit_iqIn (c : FrameCtx) (s : State) : (frameCommit c s).iqIn = s.iqIn := rfl
@[simp] theorem frameCommit_envOut (c : FrameCtx) (s : State) : (frameCommit c s).envOut = s.envOut := rfl
@[simp] theorem frameCommit_lpfOut (c : FrameCtx) (s : State) : (frameCommit c s).lpfOut = s.lpfOut := rfl
@[simp] theorem frameCommit_fmOut (c : FrameCtx) (s : State) : (frameCommit c s).fmOut = s.fmOut := rfl
@[simp] theorem frameCommit_bitIn (c : FrameCtx) (s : State) : (frameCommit c s).bitIn = s.bitIn := rfl
@[simp] theorem frameCommit_frameBuf (c : FrameCtx) (s : State) : (frameCommit c s).frameBuf = s.frameBuf := rfl

end Sys2Proof.Machine
end

