-- ==== Sys2Proof/Laws/Ops.lean ====
section
/-! SUPPORT. What each shared operation does, said once: fault-carrying computations, arithmetic, memories, the end of a
command. -/

namespace Sys2Proof.Machine

open Sys2Proof

/-! Computations that may fault -/

theorem bind_ok_iff {ε α β : Type} {x : Except ε α} {f : α → Except ε β} {b : β} :
    (x >>= f) = .ok b ↔ ∃ a, x = .ok a ∧ f a = .ok b := by
  cases x <;> simp [bind, Except.bind]

theorem bind_error_iff {ε α β : Type} {x : Except ε α} {f : α → Except ε β} {e : ε} :
    (x >>= f) = .error e ↔ x = .error e ∨ ∃ a, x = .ok a ∧ f a = .error e := by
  cases x <;> simp [bind, Except.bind]

@[simp] theorem ok_bind {ε α β : Type} (a : α) (f : α → Except ε β) : ((.ok a : Except ε α) >>= f) = f a := rfl

@[simp] theorem error_bind {ε α β : Type} (e : ε) (f : α → Except ε β) :
    ((.error e : Except ε α) >>= f) = .error e := rfl

@[simp] theorem pure_eq_ok {ε α : Type} (a : α) : (pure a : Except ε α) = .ok a := rfl

theorem ok_eq_ok_iff {ε α : Type} {a b : α} : (.ok a : Except ε α) = .ok b ↔ b = a := by
  rw [Except.ok.injEq, eq_comm]

theorem faultIf_ok_iff {c : Prop} [Decidable c] {r : FaultReason} {u : Unit} : faultIf c r = .ok u ↔ ¬c := by
  unfold faultIf; split <;> simp_all

theorem faultIf_false {c : Prop} [Decidable c] (h : ¬c) (r : FaultReason) : faultIf c r = .ok () := if_neg h

theorem faultIf_true {c : Prop} [Decidable c] (h : c) (r : FaultReason) : faultIf c r = .error r := if_pos h

/-! Arithmetic -/

theorem asr_eq_ediv (v : Int) (k : Nat) : asr v k = v / 2 ^ k :=
  Int.fdiv_eq_ediv_of_nonneg v (by positivity)

theorem chk32_ok_iff {v w : Int} : chk32 v = .ok w ↔ inS32 v ∧ w = v := by
  unfold chk32
  split
  · rename_i h
    exact ⟨fun e => ⟨by cases e; exact h, by cases e; rfl⟩, fun e => by rw [e.2]⟩
  · rename_i h
    exact ⟨nofun, fun e => absurd e.1 h⟩

theorem chk32_of_range {v : Int} (h : inS32 v) : chk32 v = .ok v := if_pos h

theorem chk32_of_overflow {v : Int} (h : ¬inS32 v) : chk32 v = .error .overflow := if_neg h

theorem chk32_error_iff {v : Int} {r : FaultReason} : chk32 v = .error r ↔ ¬inS32 v ∧ r = .overflow := by
  unfold chk32
  split
  · rename_i h
    exact ⟨nofun, fun e => absurd h e.1⟩
  · rename_i h
    exact ⟨fun e => ⟨h, by cases e; rfl⟩, fun e => by rw [e.2]⟩

theorem wrap16_toInt {v : Int} (h : -(2 ^ 15) ≤ v ∧ v ≤ 2 ^ 15 - 1) : (wrap16 v).toInt = v := by
  simp only [wrap16, BitVec.toInt_ofInt]
  exact Int.bmod_eq_of_le (by norm_num; omega) (by norm_num; omega)

theorem wrap32_toInt {v : Int} (h : inS32 v) : (wrap32 v).toInt = v := by
  simp only [wrap32, BitVec.toInt_ofInt]
  exact Int.bmod_eq_of_le (by norm_num; omega) (by norm_num; omega)

/-! One memory: a read after a write, and the canonical form -/

namespace Memory

variable {α : Type}

@[simp] theorem get?_nil (i : Nat) : get? ([] : Memory α) i = none := rfl

@[simp] theorem get?_set_self (m : Memory α) (i : Nat) (v : α) : get? (set m i v) i = some v := by
  induction m with
  | nil => simp [set, get?]
  | cons c rest ih =>
    obtain ⟨j, w⟩ := c
    simp only [set]
    split
    · simp [get?]
    · split <;> simp_all [get?]

theorem get?_set_of_ne (m : Memory α) {i k : Nat} (v : α) (h : k ≠ i) : get? (set m i v) k = get? m k := by
  induction m with
  | nil => simp [set, get?, h]
  | cons c rest ih =>
    obtain ⟨j, w⟩ := c
    simp only [set]
    split
    · simp [get?, h]
    · split <;> simp_all [get?]

theorem get?_setRange_of_lt (m : Memory α) {i k : Nat} (vs : List α) (h : k < i) :
    get? (setRange m i vs) k = get? m k := by
  induction vs generalizing m i with
  | nil => rfl
  | cons v vs ih => rw [setRange, ih (set m i v) (by omega), get?_set_of_ne m v (by omega)]

theorem get?_setRange_of_ge (m : Memory α) {i k : Nat} (vs : List α) (h : i + vs.length ≤ k) :
    get? (setRange m i vs) k = get? m k := by
  induction vs generalizing m i with
  | nil => rfl
  | cons v vs ih =>
    rw [List.length_cons] at h
    rw [setRange, ih (set m i v) (by omega), get?_set_of_ne m v (by omega)]

theorem get?_setRange (m : Memory α) {i k : Nat} (vs : List α) (h : k < vs.length) :
    get? (setRange m i vs) (i + k) = some vs[k] := by
  induction vs generalizing m i k with
  | nil => simp at h
  | cons v vs ih =>
    rw [setRange]
    cases k with
    | zero => simp [get?_setRange_of_lt (set m i v) vs (Nat.lt_succ_self i)]
    | succ k =>
      rw [show i + (k + 1) = i + 1 + k by omega]
      simpa using ih (set m i v) (i := i + 1) (by simpa using h)

theorem fst_of_mem_set {m : Memory α} {i : Nat} {v : α} {c : Nat × α} (h : c ∈ set m i v) : c = (i, v) ∨ c ∈ m := by
  induction m with
  | nil => exact .inl (by simpa [set] using h)
  | cons d rest ih =>
    obtain ⟨j, w⟩ := d
    simp only [set] at h
    split at h
    · simpa using h
    · split at h
      · rcases List.mem_cons.1 h with h | h
        · exact .inl h
        · exact .inr (List.mem_cons_of_mem _ h)
      · rcases List.mem_cons.1 h with h | h
        · exact .inr (by simp [h])
        · exact (ih h).imp_right (List.mem_cons_of_mem _)

/-- A write keeps the canonical form. -/
theorem wf_set {m : Memory α} (h : wf m) (i : Nat) (v : α) : wf (set m i v) := by
  induction m with
  | nil => simp [set, wf]
  | cons d rest ih =>
    obtain ⟨j, w⟩ := d
    have hd := List.pairwise_cons.1 h
    simp only [set]
    split
    · refine List.pairwise_cons.2 ⟨fun c hc => ?_, h⟩
      rcases List.mem_cons.1 hc with rfl | hc
      · assumption
      · exact Nat.lt_trans ‹_› (hd.1 c hc)
    · split
      · subst i; exact List.pairwise_cons.2 ⟨hd.1, hd.2⟩
      · refine List.pairwise_cons.2 ⟨fun c hc => ?_, ih hd.2⟩
        rcases fst_of_mem_set hc with rfl | hc
        · show j < i; omega
        · exact hd.1 c hc

theorem within_set {m : Memory α} {size i : Nat} (h : within size m) (hi : i < size) (v : α) :
    within size (set m i v) := fun c hc => (fst_of_mem_set hc).elim (fun e => e ▸ hi) (h c)

theorem ok_set {m : Memory α} {size i : Nat} (h : ok size m) (hi : i < size) (v : α) : ok size (set m i v) :=
  ⟨wf_set h.1 i v, within_set h.2 hi v⟩

/-- A write of a range keeps the canonical form. -/
theorem wf_setRange {m : Memory α} (h : wf m) (i : Nat) (vs : List α) : wf (setRange m i vs) := by
  induction vs generalizing m i with
  | nil => exact h
  | cons v vs ih => exact ih (wf_set h i v) (i + 1)

theorem ok_setRange {m : Memory α} {size i : Nat} {vs : List α} (h : ok size m) (hi : i + vs.length ≤ size) :
    ok size (setRange m i vs) := by
  induction vs generalizing m i with
  | nil => exact h
  | cons v vs ih =>
    rw [List.length_cons] at hi
    exact ih (ok_set h (by omega) v) (by omega)

theorem mem_setRange {m : Memory α} {i : Nat} {vs : List α} {c : Nat × α} (h : c ∈ setRange m i vs) :
    c.2 ∈ vs ∨ c ∈ m := by
  induction vs generalizing m i with
  | nil => exact .inr h
  | cons v vs ih =>
    rcases ih h with h | h
    · exact .inl (List.mem_cons_of_mem _ h)
    · exact (fst_of_mem_set h).imp (fun e => by simp [e]) id

end Memory

/-! MemRead -/

theorem memRead_ok_iff {α : Type} {size : Nat} {m : Memory α} {i : Nat} {v : α} :
    memRead size m i = .ok v ↔ i < size ∧ Memory.get? m i = some v := by
  unfold memRead
  split
  · simp; omega
  · split <;> simp_all

theorem memRead_of_get {α : Type} {size : Nat} {m : Memory α} {i : Nat} {v : α} (hi : i < size)
    (h : Memory.get? m i = some v) : memRead size m i = .ok v := memRead_ok_iff.2 ⟨hi, h⟩

theorem memRead_unwritten {α : Type} {size : Nat} {m : Memory α} {i : Nat} (hi : i < size)
    (h : Memory.get? m i = none) : memRead size m i = .error .unwrittenRead := by
  simp [memRead, h]; omega

/-- A range read answers the elements exactly when all of them are inside the memory and written. -/
theorem memReadRange_ok_iff {α : Type} {size : Nat} {m : Memory α} {i n : Nat} {vs : List α} :
    memReadRange size m i n = .ok vs ↔
      vs.length = n ∧ ∀ k (h : k < vs.length), i + k < size ∧ Memory.get? m (i + k) = some vs[k] := by
  induction n generalizing i vs with
  | zero =>
    simp only [memReadRange]
    constructor
    · intro h; cases h; simp
    · rintro ⟨h, _⟩; rw [List.length_eq_zero_iff.1 h]
  | succ n ih =>
    simp only [memReadRange, bind_ok_iff, pure_eq_ok, memRead_ok_iff, ih]
    constructor
    · rintro ⟨v, ⟨hi, hv⟩, ws, ⟨hl, hw⟩, h⟩
      cases h
      refine ⟨by simp [hl], fun k hk => ?_⟩
      cases k with
      | zero => exact ⟨hi, hv⟩
      | succ k =>
        have := hw k (by simpa using hk)
        simpa [Nat.add_assoc, Nat.add_comm 1 k] using this
    · rintro ⟨hl, h⟩
      cases vs with
      | nil => simp at hl
      | cons v ws =>
        refine ⟨v, h 0 (Nat.succ_pos _), ws, ⟨by simpa using hl, fun k hk => ?_⟩, rfl⟩
        have := h (k + 1) (by simpa using hk)
        simpa [Nat.add_assoc, Nat.add_comm 1 k] using this

/-- A range read of bytes given by a function. -/
theorem memReadRange_of_fn {α : Type} {size : Nat} {m : Memory α} {i n : Nat} (f : Nat → α) (hi : i + n ≤ size)
    (h : ∀ k, k < n → Memory.get? m (i + k) = some (f k)) :
    memReadRange size m i n = .ok ((List.range n).map f) :=
  memReadRange_ok_iff.2 ⟨by simp, fun k hk => by
    have hk' : k < n := by simpa using hk
    exact ⟨by omega, by simpa using h k hk'⟩⟩

/-- A range read faults only for an index outside the memory or an unwritten element. -/
theorem memReadRange_unwritten {α : Type} {size : Nat} {m : Memory α} {i n k : Nat} (hi : i + n ≤ size) (hk : k < n)
    (h : Memory.get? m (i + k) = none) : memReadRange size m i n = .error .unwrittenRead := by
  induction n generalizing i k with
  | zero => omega
  | succ n ih =>
    rw [memReadRange]
    cases k with
    | zero => rw [memRead_unwritten (show i < size by omega) h]; rfl
    | succ k =>
      have hr := ih (i := i + 1) (k := k) (by omega) (by omega) (by rwa [show i + 1 + k = i + (k + 1) by omega])
      cases hg : Memory.get? m i with
      | none => rw [memRead_unwritten (by omega) hg]; rfl
      | some v => rw [memRead_of_get (by omega) hg, ok_bind, hr]; rfl

/-! The end of a command -/

theorem finish_ok {o : Byte} {s t : State} {r : Except FaultReason State} (h : r = .ok t) : finish o s r = .next t := by
  rw [h]; rfl

theorem finish_error {o : Byte} {s : State} {r : Except FaultReason State} {f : FaultReason} (h : r = .error f) :
    finish o s r = .next (s.takeFault o f) := by rw [h]; rfl

/-- A command ends in its commit or in fault entry on the state it began with; it never stops the model. -/
theorem finish_next_iff {o : Byte} {s t : State} {r : Except FaultReason State} :
    finish o s r = .next t ↔ r = .ok t ∨ ∃ f, r = .error f ∧ t = s.takeFault o f := by
  cases r with
  | ok u => simp [finish]
  | error f => simp [finish, eq_comm]

theorem faultWord_low (o : Byte) (r : FaultReason) : (faultWord o r).extractLsb' 0 8 = r.code := by
  simp only [faultWord]
  generalize r.code = c
  ext i hi
  simp [show i < 32 by omega, hi]

@[simp] theorem takeFault_halted (s : State) (o : Byte) (r : FaultReason) : (s.takeFault o r).halted = true := by
  simp only [State.halted, State.takeFault_fault, faultWord_low]
  cases r <;> decide

@[simp] theorem markDone_halted (s : State) : s.markDone.halted = s.halted := rfl

end Sys2Proof.Machine
end

