-- ==== Sys2Proof/Laws/Crc.lean ====
section
/-! SUPPORT. What the candidate search and the CRC commands do (44_crc.md R88 to R91). -/

namespace Sys2Proof.Machine

open Sys2Proof

/-- The search answers the first candidate, in table order, under which the bytes check. -/
theorem firstMatch_some_iff {bs : List Byte} {rx v : Half} {k j : Nat} {vs : List Half} :
    firstMatch bs rx k vs = some (j, v) ↔
      ∃ m, j = k + m ∧ vs[m]? = some v ∧ crc16 bs v = rx ∧ ∀ l w, l < m → vs[l]? = some w → crc16 bs w ≠ rx := by
  induction vs generalizing k with
  | nil => simp [firstMatch]
  | cons w ws ih =>
    simp only [firstMatch]
    split
    · rename_i hw
      constructor
      · intro h
        cases h
        exact ⟨0, by simp, by simp, hw, fun _ _ h => absurd h (Nat.not_lt_zero _)⟩
      · rintro ⟨m, rfl, hv, hc, hl⟩
        cases m with
        | zero => simp at hv; simp [hv]
        | succ m => exact absurd hw (hl 0 w (Nat.succ_pos _) (by simp))
    · rename_i hw
      rw [ih]
      constructor
      · rintro ⟨m, rfl, hv, hc, hl⟩
        refine ⟨m + 1, by omega, by simpa using hv, hc, fun l u h hu => ?_⟩
        cases l with
        | zero => simp at hu; exact hu ▸ hw
        | succ l => exact hl l u (by omega) (by simpa using hu)
      · rintro ⟨m, rfl, hv, hc, hl⟩
        cases m with
        | zero => simp at hv; exact absurd (hv ▸ hc) hw
        | succ m =>
          exact ⟨m, by omega, by simpa using hv, hc, fun l u h hu => hl (l + 1) u (by omega) (by simpa using hu)⟩

/-- The search answers NOMATCH exactly when no candidate checks. -/
theorem firstMatch_none_iff {bs : List Byte} {rx : Half} {k : Nat} {vs : List Half} :
    firstMatch bs rx k vs = none ↔ ∀ v ∈ vs, crc16 bs v ≠ rx := by
  induction vs generalizing k with
  | nil => simp [firstMatch]
  | cons w ws ih =>
    simp only [firstMatch]
    split <;> simp_all

/-- The index of a match is an index of the table. -/
theorem firstMatch_lt {bs : List Byte} {rx v : Half} {j : Nat} {vs : List Half}
    (h : firstMatch bs rx 0 vs = some (j, v)) : j < vs.length := by
  obtain ⟨m, rfl, hv, -⟩ := firstMatch_some_iff.1 h
  simpa using (List.getElem?_eq_some_iff.1 hv).1

/-- Everything VERIFY does: it reads the CRC field and the payload, and searches the table. -/
theorem verify_ok_iff {p : Params} {b : Memory Byte} {off len : Nat} {r : Option (Nat × Half)} :
    verify p b off len = .ok r ↔ ∃ field payload, memReadRange p.frameCap b (off + len - 2) 2 = .ok field ∧
      memReadRange p.frameCap b off (len - 2) = .ok payload ∧
      r = firstMatch payload (rxCrc field) 0 p.crcInit.toList := by
  simp only [verify, bind_ok_iff, pure_eq_ok, Except.ok.injEq]
  exact ⟨fun ⟨f, hf, q, hq, h⟩ => ⟨f, q, hf, hq, h.symm⟩, fun ⟨f, q, hf, hq, h⟩ => ⟨f, hf, q, hq, h.symm⟩⟩

/-- VERIFY answers an index of the table or NOMATCH. -/
theorem verify_index {p : Params} {b : Memory Byte} {off len k : Nat} {v : Half}
    (h : verify p b off len = .ok (some (k, v))) : k < 8 := by
  obtain ⟨_, _, -, -, h⟩ := verify_ok_iff.1 h
  simpa using firstMatch_lt h.symm

/-- Everything a completed CRC.COMPUTE does. -/
theorem crcCompute_ok_iff {s t : State} {off len : Nat} {init : Half} :
    crcCompute off len init s = .ok t ↔ off + len ≤ s.params.frameCap ∧
      ∃ bs, memReadRange s.params.frameCap s.frameBuf off len = .ok bs ∧
        t = ({ s with result := (crc16 bs init).setWidth 32 } : State).markDone := by
  simp only [crcCompute, checkCrcCompute, bind_ok_iff, faultIf_ok_iff, pure_eq_ok, Except.ok.injEq, Nat.not_lt]
  exact ⟨fun ⟨_, h, bs, h1, h2⟩ => ⟨h, bs, h1, h2.symm⟩, fun ⟨h, bs, h1, h2⟩ => ⟨(), h, bs, h1, h2.symm⟩⟩

/-- Everything a completed CRC.VERIFY does. -/
theorem crcVerify_ok_iff {s t : State} {off len : Nat} :
    crcVerify off len s = .ok t ↔ (2 ≤ len ∧ off + len ≤ s.params.frameCap) ∧
      ∃ r, verify s.params s.frameBuf off len = .ok r ∧
        t = ({ s with crcIdx := crcIdxOf r, result := resultOf r } : State).markDone := by
  simp only [crcVerify, checkCrcVerify, bind_ok_iff, faultIf_ok_iff, pure_eq_ok, Except.ok.injEq, Nat.not_lt]
  exact ⟨fun ⟨_, ⟨_, h1, h2⟩, r, h3, h4⟩ => ⟨⟨h1, h2⟩, r, h3, h4.symm⟩,
    fun ⟨⟨h1, h2⟩, r, h3, h4⟩ => ⟨(), ⟨(), h1, h2⟩, r, h3, h4.symm⟩⟩

end Sys2Proof.Machine
end

