-- ==== Sys2Proof/Laws/Dsp.lean ====
section
/-! SUPPORT. What the loops of the DSP commands do (41_envelope.md R70, 42_lowpass.md R76, 43_fm_demod.md R85): how many
elements they answer, which state a completed command leaves, and that a loop over n + m samples is a loop over n
samples followed by a loop over m. -/

namespace Sys2Proof.Machine

open Sys2Proof

/-! The envelope detector -/

theorem envSample_ok_iff {p : Params} {iq : Memory Byte} {i : Nat} {e : Half} :
    envSample p iq i = .ok e ↔ ∃ a b, memRead p.nIq iq (2 * i) = .ok a ∧ memRead p.nIq iq (2 * i + 1) = .ok b ∧
      e = sqRom a + sqRom b := by
  simp only [envSample, bind_ok_iff, pure_eq_ok, Except.ok.injEq, eq_comm (a := e)]
  exact ⟨fun ⟨a, ha, b, hb, h⟩ => ⟨a, b, ha, hb, h⟩, fun ⟨a, b, ha, hb, h⟩ => ⟨a, ha, b, hb, h⟩⟩

/-- The loop answers m samples, each the sample of its own pair. -/
theorem envLoop_ok_iff {p : Params} {iq : Memory Byte} {stride op m : Nat} {es : List Half} :
    envLoop p iq stride op m = .ok es ↔
      es.length = m ∧ ∀ k (h : k < es.length), envSample p iq ((op + k) * stride) = .ok es[k] := by
  induction m generalizing op es with
  | zero =>
    simp only [envLoop]
    exact ⟨fun h => by cases h; simp, fun h => by rw [List.length_eq_zero_iff.1 h.1]⟩
  | succ m ih =>
    simp only [envLoop, bind_ok_iff, pure_eq_ok, ih]
    constructor
    · rintro ⟨e, he, es', ⟨hl, h'⟩, h⟩
      cases h
      refine ⟨by simp [hl], fun k hk => ?_⟩
      cases k with
      | zero => exact he
      | succ k => simpa [Nat.add_assoc, Nat.add_comm 1 k] using h' k (by simpa using hk)
    · rintro ⟨hl, h⟩
      cases es with
      | nil => simp at hl
      | cons e es' =>
        refine ⟨e, h 0 (Nat.succ_pos _), es', ⟨by simpa using hl, fun k hk => ?_⟩, rfl⟩
        have := h (k + 1) (by simpa using hk)
        rwa [show op + (k + 1) = op + 1 + k by omega, List.getElem_cons_succ] at this

theorem checkEnvDetect_ok_iff {p : Params} {d n : Nat} {u : Unit} :
    checkEnvDetect p d n = .ok u ↔ n % 2 ^ d = 0 ∧ 2 * n ≤ p.nIq ∧ n / 2 ^ d ≤ p.nEnv := by
  simp only [checkEnvDetect, bind_ok_iff, faultIf_ok_iff]
  simp [strideOf, envOutputs]

/-- Everything a completed ENV.DETECT does. -/
theorem envDetect_ok_iff {s t : State} {d n : Nat} :
    envDetect d n s = .ok t ↔ (n % 2 ^ d = 0 ∧ 2 * n ≤ s.params.nIq ∧ n / 2 ^ d ≤ s.params.nEnv) ∧
      ∃ es, envLoop s.params s.iqIn (2 ^ d) 0 (n / 2 ^ d) = .ok es ∧
        t = ({ s with envOut := Memory.setRange s.envOut 0 es } : State).markDone := by
  simp only [envDetect, bind_ok_iff, checkEnvDetect_ok_iff, pure_eq_ok, Except.ok.injEq, strideOf, envOutputs]
  exact ⟨fun ⟨_, h, es, h1, h2⟩ => ⟨h, es, h1, h2.symm⟩, fun ⟨h, es, h1, h2⟩ => ⟨(), h, es, h1, h2.symm⟩⟩

/-! The low-pass filter -/

/-- The loop answers as many outputs as samples. -/
theorem lpfLoop_length {p : Params} {env : Memory Half} {i n : Nat} {h h' : LpfHist} {ys : List Half}
    (e : lpfLoop p env i n h = .ok (ys, h')) : ys.length = n := by
  induction n generalizing i h ys with
  | zero => cases e; rfl
  | succ n ih =>
    simp only [lpfLoop, bind_ok_iff, pure_eq_ok] at e
    obtain ⟨x, -, y, -, ⟨ys', h''⟩, e', e⟩ := e
    cases e
    simp [ih e']

/-- A loop over n + m samples is a loop over n and then, from its history, one over m. -/
theorem lpfLoop_add (p : Params) (env : Memory Half) (i n m : Nat) (h : LpfHist) :
    lpfLoop p env i (n + m) h = (do
      let a ← lpfLoop p env i n h
      let b ← lpfLoop p env (i + n) m a.2
      return (a.1 ++ b.1, b.2)) := by
  induction n generalizing i h with
  | zero =>
    simp only [Nat.zero_add, lpfLoop, ok_bind, Nat.add_zero, List.nil_append]
    cases lpfLoop p env i m h <;> rfl
  | succ n ih =>
    rw [Nat.succ_add, lpfLoop, lpfLoop]
    cases memRead p.nEnv env i with
    | error r => rfl
    | ok x =>
      simp only [ok_bind]
      cases lpfSample p.coefEnv h x with
      | error r => rfl
      | ok y =>
        simp only [ok_bind, ih, Nat.add_assoc, Nat.add_comm 1 n]
        cases lpfLoop p env (i + 1) n ⟨x, y⟩ with
        | error r => rfl
        | ok a =>
          simp only [ok_bind, pure_eq_ok]
          cases lpfLoop p env (i + (n + 1)) m a.2 <;> rfl

/-- The loop reads only the samples it is given. -/
theorem lpfLoop_congr {p : Params} {env env' : Memory Half} {i j n : Nat} {h : LpfHist}
    (e : ∀ k, k < n → memRead p.nEnv env (i + k) = memRead p.nEnv env' (j + k)) :
    lpfLoop p env i n h = lpfLoop p env' j n h := by
  induction n generalizing i j h with
  | zero => rfl
  | succ n ih =>
    have h0 : memRead p.nEnv env i = memRead p.nEnv env' j := e 0 (Nat.succ_pos _)
    rw [lpfLoop, lpfLoop, h0]
    cases memRead p.nEnv env' j with
    | error r => rfl
    | ok x =>
      simp only [ok_bind]
      cases lpfSample p.coefEnv h x with
      | error r => rfl
      | ok y =>
        simp only [ok_bind]
        rw [ih (i := i + 1) (j := j + 1) fun k hk => by
          have := e (k + 1) (by omega)
          rwa [show i + (k + 1) = i + 1 + k by omega, show j + (k + 1) = j + 1 + k by omega] at this]

theorem checkLpfFilter_ok_iff {p : Params} {v : Bool} {len : Nat} {u : Unit} :
    checkLpfFilter p v len = .ok u ↔ v = true ∧ 2 ≤ len ∧ len ≤ p.nEnv ∧ len ≤ p.nLpf := by
  simp only [checkLpfFilter, bind_ok_iff, faultIf_ok_iff]
  simp [filterOrder]
  omega

/-- Everything a completed LPF.FILTER does. -/
theorem lpfFilter_ok_iff {s t : State} {len : Nat} :
    lpfFilter len s = .ok t ↔ (s.lpfValid = true ∧ 2 ≤ len ∧ len ≤ s.params.nEnv ∧ len ≤ s.params.nLpf) ∧
      ∃ ys h, lpfLoop s.params s.envOut 0 len ⟨s.lpfXp, s.lpfYp⟩ = .ok (ys, h) ∧
        t = ({ s with lpfOut := Memory.setRange s.lpfOut 0 ys, lpfXp := h.xp, lpfYp := h.yp } : State).markDone := by
  simp only [lpfFilter, bind_ok_iff, checkLpfFilter_ok_iff, pure_eq_ok, Except.ok.injEq, Prod.exists]
  exact ⟨fun ⟨_, h, ys, h', h1, h2⟩ => ⟨h, ys, h', h1, h2.symm⟩, fun ⟨h, ys, h', h1, h2⟩ => ⟨(), h, ys, h', h1, h2.symm⟩⟩

/-! The FM demodulator -/

/-- The loop answers as many outputs as pairs. -/
theorem fmLoop_length {p : Params} {iq : Memory Byte} {k n : Nat} {h h' : FmHist} {os : List Word}
    (e : fmLoop p iq k n h = .ok (os, h')) : os.length = n := by
  induction n generalizing k h os with
  | zero => cases e; rfl
  | succ n ih =>
    simp only [fmLoop, bind_ok_iff, pure_eq_ok] at e
    obtain ⟨i, -, q, -, ⟨v, h1⟩, -, ⟨os', h2⟩, e', e⟩ := e
    cases e
    simp [ih e']

/-- A loop over n + m pairs is a loop over n and then, from its history, one over m. -/
theorem fmLoop_add (p : Params) (iq : Memory Byte) (k n m : Nat) (h : FmHist) :
    fmLoop p iq k (n + m) h = (do
      let a ← fmLoop p iq k n h
      let b ← fmLoop p iq (k + n) m a.2
      return (a.1 ++ b.1, b.2)) := by
  induction n generalizing k h with
  | zero =>
    simp only [Nat.zero_add, fmLoop, ok_bind, Nat.add_zero, List.nil_append]
    cases fmLoop p iq k m h <;> rfl
  | succ n ih =>
    rw [Nat.succ_add, fmLoop, fmLoop]
    cases memRead p.nIq iq (2 * k) with
    | error r => rfl
    | ok i =>
      simp only [ok_bind]
      cases memRead p.nIq iq (2 * k + 1) with
      | error r => rfl
      | ok q =>
        simp only [ok_bind]
        cases fmStep p.coefFm h i q with
        | error r => rfl
        | ok v =>
          simp only [ok_bind, ih, Nat.add_assoc, Nat.add_comm 1 n]
          cases fmLoop p iq (k + 1) n v.2 with
          | error r => rfl
          | ok a =>
            simp only [ok_bind, pure_eq_ok]
            cases fmLoop p iq (k + (n + 1)) m a.2 <;> rfl

/-- The loop reads only the pairs it is given. -/
theorem fmLoop_congr {p : Params} {iq iq' : Memory Byte} {i j n : Nat} {h : FmHist}
    (e : ∀ k, k < 2 * n → memRead p.nIq iq (2 * i + k) = memRead p.nIq iq' (2 * j + k)) :
    fmLoop p iq i n h = fmLoop p iq' j n h := by
  induction n generalizing i j h with
  | zero => rfl
  | succ n ih =>
    have h0 : memRead p.nIq iq (2 * i) = memRead p.nIq iq' (2 * j) := e 0 (by omega)
    have h1 : memRead p.nIq iq (2 * i + 1) = memRead p.nIq iq' (2 * j + 1) := e 1 (by omega)
    rw [fmLoop, fmLoop, h0, h1]
    cases memRead p.nIq iq' (2 * j) with
    | error r => rfl
    | ok a =>
      simp only [ok_bind]
      cases memRead p.nIq iq' (2 * j + 1) with
      | error r => rfl
      | ok b =>
        simp only [ok_bind]
        cases fmStep p.coefFm h a b with
        | error r => rfl
        | ok v =>
          simp only [ok_bind]
          rw [ih (i := i + 1) (j := j + 1) fun k hk => by
            have := e (k + 2) (by omega)
            rwa [show 2 * i + (k + 2) = 2 * (i + 1) + k by omega,
              show 2 * j + (k + 2) = 2 * (j + 1) + k by omega] at this]

theorem checkFmDemod_ok_iff {p : Params} {v : Bool} {n : Nat} {u : Unit} :
    checkFmDemod p v n = .ok u ↔ v = true ∧ 2 * n ≤ p.nIq ∧ n ≤ p.nFm := by
  simp only [checkFmDemod, bind_ok_iff, faultIf_ok_iff]
  simp

/-- Everything a completed FM.DEMOD does. -/
theorem fmDemod_ok_iff {s t : State} {n : Nat} :
    fmDemod n s = .ok t ↔ (s.fmValid = true ∧ 2 * n ≤ s.params.nIq ∧ n ≤ s.params.nFm) ∧
      ∃ os h, fmLoop s.params s.iqIn 0 n s.fmHist = .ok (os, h) ∧
        t = ({ s.setFmHist h with fmOut := Memory.setRange s.fmOut 0 os } : State).markDone := by
  simp only [fmDemod, bind_ok_iff, checkFmDemod_ok_iff, pure_eq_ok, Except.ok.injEq, Prod.exists]
  exact ⟨fun ⟨_, h, os, h', h1, h2⟩ => ⟨h, os, h', h1, h2.symm⟩, fun ⟨h, os, h', h1, h2⟩ => ⟨(), h, os, h', h1, h2.symm⟩⟩

end Sys2Proof.Machine
end

