-- ==== Sys2Proof/Laws/Frame.lean ====
section
/-! SUPPORT. What the frame machine does, state by state, and what the FRAME commands commit (45_frame_decoder.md R94 to
R109). -/

namespace Sys2Proof.Machine

open Sys2Proof

/-- patternAt decides PatternStands. -/
theorem patternAt_iff {bits pattern : List Bool} {p : Nat} :
    patternAt bits pattern p = true ↔ PatternStands bits pattern p := by
  simp [patternAt, PatternStands]

/-- The least-position search answers none only where the pattern stands at none of the positions it tries. -/
theorem leastFrom_none {bits pattern : List Bool} {p n q : Nat} (h : leastFrom bits pattern p n = none) (hp : p ≤ q)
    (hq : q < p + n) : patternAt bits pattern q = false := by
  induction n generalizing p with
  | zero => omega
  | succ n ih =>
    simp only [leastFrom] at h
    split at h
    · cases h
    · rename_i hf
      rcases Nat.eq_or_lt_of_le hp with rfl | hlt
      · exact Bool.eq_false_iff.2 hf
      · exact ih h hlt (by omega)

/-- Every SEARCH keeps the NotFound half of its contract (R92). -/
theorem runSearch_notFound {w : SearchImpl} {bits pattern : List Bool} {start q : Nat}
    (h : runSearch w bits start pattern = none) (hq : start ≤ q) : ¬PatternStands bits pattern q := by
  cases w with
  | least =>
    intro hs
    have : q < start + (bits.length + 1 - start) := by have := hs.1; omega
    exact Bool.eq_false_iff.1 (leastFrom_none h hq this) (patternAt_iff.2 hs)
  | always pos => cases h
  | other k => exact (Config.otherSearch k).notFound bits start pattern h q hq

/-- Bit i of the byte with the given data bits is data bit i. -/
theorem testBit_byteOfBits (l : List Bool) (i : Nat) : (byteOfBits l).testBit i = l[i]?.getD false := by
  induction l generalizing i with
  | nil => simp [byteOfBits]
  | cons b bs ih =>
    cases i with
    | zero => cases b <;> simp [byteOfBits, Nat.add_mod]
    | succ i =>
      have h : ((if b then 1 else 0) + 2 * byteOfBits bs) / 2 = byteOfBits bs := by split <;> omega
      rw [byteOfBits, Nat.testBit_succ, h, ih, List.getElem?_cons_succ]

/-- Bytes read from 8N1 characters take ten bits each (R108). -/
theorem reads_length_le {f : CharFormat} {bits : List Bool} {stop : Nat} {inRun : Bool} {e : Nat}
    {bs : List Byte} (h : f.Reads bits stop inRun e bs) : 10 * bs.length ≤ stop - e := by
  induction bs generalizing inRun e with
  | nil => simp
  | cons b bs ih =>
    obtain ⟨q, h1, h2, -, -, h3⟩ := h
    have := ih h3
    simp only [List.length_cons]
    omega

/-- While every character is well framed, byte j is the j-th character's: a run of 8N1 characters reads as its bytes,
whichever EXTRACT reads it. -/
theorem reads_run {f : CharFormat} {bits : List Bool} {stop : Nat} {e : Nat} {bs : List Byte}
    (h : f.Reads bits stop true e bs) {j : Nat} (hj : j < bs.length)
    (hf : ∀ i, i ≤ j → f.framed bits (e + 10 * i) = true) : f.carries bits (e + 10 * j) bs[j] := by
  induction bs generalizing e j with
  | nil => simp at hj
  | cons b bs ih =>
    obtain ⟨q, -, -, h1, h2, h3⟩ := h
    have he : f.framed bits e = true := hf 0 (Nat.zero_le _)
    obtain rfl := h1 rfl he
    cases j with
    | zero => exact h2 he
    | succ j =>
      rw [he, Bool.and_self] at h3
      have := ih h3 (j := j) (by simpa using hj) fun i hi => by
        have := hf (i + 1) (by omega)
        rwa [show q + 10 * (i + 1) = q + 10 + 10 * i by omega] at this
      rwa [show q + 10 * (j + 1) = q + 10 + 10 * j by omega, List.getElem_cons_succ]

/-- The informative EXTRACT reads the characters it stands on, one after the other. -/
theorem uart8n1Chars_reads (bits : List Bool) (stop : Nat) {n : Nat} {inRun : Bool} {e : Nat} (h : e + 10 * n ≤ stop) :
    ({} : CharFormat).Reads bits stop inRun e (uart8n1Chars (bits.drop e) n) := by
  induction n generalizing inRun e with
  | zero => exact True.intro
  | succ n ih =>
    unfold uart8n1Chars
    split
    · rename_i rest hr
      have hrest : ∀ k, rest[k]? = bits[e + 1 + k]? := fun k => by
        have := congrArg (·[k + 1]?) hr
        simpa [List.getElem?_drop, Nat.add_assoc, Nat.add_comm 1 k] using this.symm
      have hdrop : rest.drop 9 = bits.drop (e + 10) := by
        have := congrArg (List.drop 10) hr
        simpa [List.drop_drop] using this.symm
      refine ⟨e, Nat.le_refl _, by omega, fun _ _ => rfl, fun hf i => ?_, ?_⟩
      · have h9 : e + 9 < bits.length := by
          simp only [CharFormat.framed, Bool.and_eq_true, beq_iff_eq] at hf
          exact (List.getElem?_eq_some_iff.1 hf.2).1
        have hi : e + 1 + i.val < bits.length := by omega
        have hb : (BitVec.ofNat 8 (byteOfBits (rest.take 8))).getLsbD i.val = bits[e + 1 + i.val] := by
          rw [BitVec.getLsbD_ofNat, testBit_byteOfBits, List.getElem?_take_of_lt i.isLt, hrest,
            List.getElem?_eq_getElem hi]
          simp [i.isLt]
        rw [hb]
        exact List.getElem?_eq_getElem hi
      · split
        · rw [hdrop]; exact ih (by omega)
        · exact True.intro
    · exact True.intro

/-- Every EXTRACT keeps the contract of R93: it reads 8N1 characters of some format among the available bits. -/
theorem runExtract_is8N1 (w : ExtractImpl) (bits : List Bool) (start avail : Nat) :
    ∃ f : CharFormat, f.Reads bits (start + avail) true start (runExtract w bits start avail) := by
  cases w with
  | uart8n1 => exact ⟨{}, uart8n1Chars_reads bits _ (by omega)⟩
  | other k => exact ⟨_, (Config.otherExtract k).is8N1 bits start avail⟩

/-- Every EXTRACT takes ten bits per byte (R108): from fewer than 50 bits it gets at most 4 bytes. -/
theorem runExtract_length_le (w : ExtractImpl) (bits : List Bool) (start avail : Nat) :
    10 * (runExtract w bits start avail).length ≤ avail := by
  obtain ⟨f, hf⟩ := runExtract_is8N1 w bits start avail
  simpa using reads_length_le hf

/-- A machine at rest does not move. -/
theorem frameRun_atRest {p : Params} {n : Nat} {c : FrameCtx} (h : c.fsm.atRest = true) : frameRun p n c = .ok c := by
  cases n <;> simp [frameRun, h]

/-- A machine that is not at rest makes one transition and runs on. -/
theorem frameRun_succ {p : Params} {n : Nat} {c : FrameCtx} (h : c.fsm.atRest = false) :
    frameRun p (n + 1) c = (frameStep p c >>= frameRun p n) := by
  rw [frameRun, h]; rfl

/-- SearchingPreamble (R96) in every case. -/
theorem searchingPreamble_ok_iff {p : Params} {c c' : FrameCtx} :
    searchingPreamble p c = .ok c' ↔
      (runSearch p.search c.bits 0 p.syncPattern = none ∧ c' = { c with n := 0, fsm := .noSync }) ∨
      ∃ pos, runSearch p.search c.bits 0 p.syncPattern = some pos ∧ patternAt c.bits p.syncPattern pos = true ∧
        c' = { c with pos := pos, fsm := .extractingBytes } := by
  unfold searchingPreamble
  split
  · simp_all [-Except.ok.injEq, ok_eq_ok_iff]
  · split <;> simp_all [-Except.ok.injEq, ok_eq_ok_iff]

/-- DispatchType (R98) in every case. -/
theorem dispatchType_ok_iff {p : Params} {c c' : FrameCtx} :
    dispatchType p c = .ok c' ↔ ∃ tag, c.byte p 2 = .ok tag ∧
      c' = { c with fsm := if tag = typeTag then .dispatchSubtype else .abortLength } := by
  simp only [dispatchType, bind_ok_iff, pure_eq_ok, ok_eq_ok_iff]

/-- DispatchSubtype (R99) in every case. -/
theorem dispatchSubtype_ok_iff {p : Params} {c c' : FrameCtx} :
    dispatchSubtype p c = .ok c' ↔ ∃ t, c.byte p 3 = .ok t ∧
      (((t = 0x55 ∨ t = 0xD5) ∧ c.n < 6 ∧ c' = { c with subtype := t, payload := 6, fsm := .abortLength }) ∨
       ((t = 0x55 ∨ t = 0xD5) ∧ 6 ≤ c.n ∧ ∃ field, memReadRange p.frameCap c.buf 4 2 = .ok field ∧
          c' = lengthGate { c with subtype := t, payload := 6, len := be field }) ∨
       (t = 0xD2 ∧ ∃ b, c.byte p 4 = .ok b ∧ c' = lengthGate { c with subtype := t, payload := 5, len := b.toNat }) ∨
       (t ≠ 0x55 ∧ t ≠ 0xD5 ∧ t ≠ 0xD2 ∧ c' = { c with subtype := t, fsm := .abortLength })) := by
  simp only [dispatchSubtype, bind_ok_iff]
  refine exists_congr fun t => and_congr_right fun _ => ?_
  by_cases h : t = 0x55 ∨ t = 0xD5
  · have hd2 : t ≠ 0xD2 := by rcases h with rfl | rfl <;> decide
    have hne : ¬(t ≠ 0x55 ∧ t ≠ 0xD5) := fun e => h.elim e.1 e.2
    rw [if_pos h]
    by_cases h6 : c.n < 6
    · rw [if_pos h6, pure_eq_ok, ok_eq_ok_iff]
      exact ⟨fun e => .inl ⟨h, h6, e⟩, fun e => by
        rcases e with e | e | e | e
        · exact e.2.2
        · exact absurd e.2.1 (Nat.not_le.2 h6)
        · exact absurd e.1 hd2
        · exact absurd ⟨e.1, e.2.1⟩ hne⟩
    · simp only [if_neg h6, bind_ok_iff, pure_eq_ok, ok_eq_ok_iff]
      exact ⟨fun e => .inr (.inl ⟨h, Nat.not_lt.1 h6, e⟩), fun e => by
        rcases e with e | e | e | e
        · exact absurd e.2.1 h6
        · exact e.2.2
        · exact absurd e.1 hd2
        · exact absurd ⟨e.1, e.2.1⟩ hne⟩
  · rw [if_neg h]
    by_cases hd2 : t = 0xD2
    · simp only [if_pos hd2, bind_ok_iff, pure_eq_ok, ok_eq_ok_iff]
      exact ⟨fun e => .inr (.inr (.inl ⟨hd2, e⟩)), fun e => by
        rcases e with e | e | e | e
        · exact absurd e.1 h
        · exact absurd e.1 h
        · exact e.2
        · exact absurd hd2 e.2.2.1⟩
    · rw [if_neg hd2, pure_eq_ok, ok_eq_ok_iff]
      exact ⟨fun e => .inr (.inr (.inr ⟨fun x => h (.inl x), fun x => h (.inr x), hd2, e⟩)), fun e => by
        rcases e with e | e | e | e
        · exact absurd e.1 h
        · exact absurd e.1 h
        · exact absurd e.1 hd2
        · exact e.2.2.2⟩

/-- ValidatingCrc (R100, R111) in every case. -/
theorem validatingCrc_ok_iff {p : Params} {c c' : FrameCtx} :
    validatingCrc p c = .ok c' ↔ ∃ r, verify p c.buf c.payload c.len = .ok r ∧
      ((∃ k v, r = some (k, v) ∧ c' = { c with crcIdx := crcIdxOf r, fsm := .extractingFields }) ∨
       (r = none ∧ p.diagEnable = false ∧ c' = { c with crcIdx := crcIdxOf none, fsm := .failMic }) ∨
       (r = none ∧ p.diagEnable = true ∧ ∃ bs, memReadRange p.frameCap c.buf 0 c.n = .ok bs ∧
          c' = { c with crcIdx := crcIdxOf none, ev := some (.diag bs), fsm := .failMic })) := by
  simp only [validatingCrc, bind_ok_iff]
  refine exists_congr fun r => and_congr_right fun _ => ?_
  rcases r with _ | ⟨k, v⟩
  · cases hd : p.diagEnable <;> simp [-Except.ok.injEq, bind_ok_iff, ok_eq_ok_iff]
  · simp [-Except.ok.injEq, ok_eq_ok_iff]

/-- ExtractingFields (R101) in every case. -/
theorem extractingFields_ok_iff {p : Params} {c c' : FrameCtx} :
    extractingFields p c = .ok c' ↔ ∃ r, fieldsOf p c = .ok r ∧ c' = { c with record := r, fsm := .emit } := by
  simp only [extractingFields, bind_ok_iff, pure_eq_ok, ok_eq_ok_iff]

/-- A field of 4 bytes is read exactly when it ends inside the frame and its bytes are written. -/
theorem field4_ok_iff {p : Params} {c : FrameCtx} {off : Nat} {v : Vector Byte 4} :
    field4 p c off = .ok v ↔ off + 4 ≤ c.n ∧ ∃ b0 b1 b2 b3, c.byte p off = .ok b0 ∧ c.byte p (off + 1) = .ok b1 ∧
      c.byte p (off + 2) = .ok b2 ∧ c.byte p (off + 3) = .ok b3 ∧ v = #v[b0, b1, b2, b3] := by
  simp only [field4, bind_ok_iff, faultIf_ok_iff, pure_eq_ok, Except.ok.injEq, Nat.not_lt]
  exact ⟨fun ⟨_, h, b0, h0, b1, h1, b2, h2, b3, h3, e⟩ => ⟨h, b0, b1, b2, b3, h0, h1, h2, h3, e.symm⟩,
    fun ⟨h, b0, b1, b2, b3, h0, h1, h2, h3, e⟩ => ⟨(), h, b0, h0, b1, h1, b2, h2, b3, h3, e.symm⟩⟩

/-- A field of 6 bytes is read exactly when it ends inside the frame and its bytes are written. -/
theorem field6_ok_iff {p : Params} {c : FrameCtx} {off : Nat} {v : Vector Byte 6} :
    field6 p c off = .ok v ↔ off + 6 ≤ c.n ∧ ∃ b0 b1 b2 b3 b4 b5, c.byte p off = .ok b0 ∧
      c.byte p (off + 1) = .ok b1 ∧ c.byte p (off + 2) = .ok b2 ∧ c.byte p (off + 3) = .ok b3 ∧
      c.byte p (off + 4) = .ok b4 ∧ c.byte p (off + 5) = .ok b5 ∧ v = #v[b0, b1, b2, b3, b4, b5] := by
  simp only [field6, bind_ok_iff, faultIf_ok_iff, pure_eq_ok, Except.ok.injEq, Nat.not_lt]
  exact ⟨fun ⟨_, h, b0, h0, b1, h1, b2, h2, b3, h3, b4, h4, b5, h5, e⟩ =>
      ⟨h, b0, b1, b2, b3, b4, b5, h0, h1, h2, h3, h4, h5, e.symm⟩,
    fun ⟨h, b0, b1, b2, b3, b4, b5, h0, h1, h2, h3, h4, h5, e⟩ =>
      ⟨(), h, b0, h0, b1, h1, b2, h2, b3, h3, b4, h4, b5, h5, e.symm⟩⟩

/-- What one transition can do: where it goes, which fields of the context it may touch (R94). -/
theorem frameStep_ok {p : Params} {c c' : FrameCtx} (h : frameStep p c = .ok c') :
    (c.fsm = .searchingPreamble ∧ searchingPreamble p c = .ok c') ∨
    (c.fsm = .extractingBytes ∧ c' = extractingBytes p c) ∨
    (c.fsm = .dispatchType ∧ dispatchType p c = .ok c') ∨
    (c.fsm = .dispatchSubtype ∧ dispatchSubtype p c = .ok c') ∨
    (c.fsm = .validatingCrc ∧ validatingCrc p c = .ok c') ∨
    (c.fsm = .extractingFields ∧ extractingFields p c = .ok c') ∨
    (c.fsm = .emit ∧ c' = emitRecord c) ∨
    (c.fsm.atRest = true ∧ c' = c) := by
  unfold frameStep at h
  split at h <;> simp_all [Fsm.atRest]

/-- Everything a completed FRAME.DECODE does. -/
theorem frameDecode_ok_iff {s t : State} {nbits : Nat} :
    frameDecode nbits s = .ok t ↔ nbits ≤ s.params.nBits ∧
      ∃ bits c, memReadRange s.params.nBits s.bitIn 0 nbits = .ok bits ∧
        frameRun s.params frameFuel (frameEntry s .searchingPreamble bits 0) = .ok c ∧
        t = { frameCommit c s with frameBuf := if c.fsm = .noSync then s.frameBuf else c.buf } := by
  simp only [frameDecode, checkFrameDecode, bind_ok_iff, faultIf_ok_iff, pure_eq_ok, Except.ok.injEq, Nat.not_lt]
  exact ⟨fun ⟨_, h, bits, h1, c, h2, h3⟩ => ⟨h, bits, c, h1, h2, h3.symm⟩,
    fun ⟨h, bits, c, h1, h2, h3⟩ => ⟨(), h, bits, h1, c, h2, h3.symm⟩⟩

/-- Everything a completed FRAME.PARSE does. -/
theorem frameParse_ok_iff {s t : State} {nbytes : Nat} :
    frameParse nbytes s = .ok t ↔ nbytes ≤ s.params.frameCap ∧
      ∃ c, frameRun s.params frameFuel (sanityCheck (frameEntry s .extractingBytes [] nbytes)) = .ok c ∧
        t = frameCommit c s := by
  simp only [frameParse, checkFrameParse, bind_ok_iff, faultIf_ok_iff, pure_eq_ok, Except.ok.injEq, Nat.not_lt]
  exact ⟨fun ⟨_, h, c, h2, h3⟩ => ⟨h, c, h2, h3.symm⟩, fun ⟨h, c, h2, h3⟩ => ⟨(), h, c, h2, h3.symm⟩⟩

/-- A property of the context that every transition keeps holds at the end of a run. -/
theorem frameRun_keeps {p : Params} (P : FrameCtx → Prop) (hs : ∀ c c', P c → frameStep p c = .ok c' → P c')
    {n : Nat} {c c' : FrameCtx} (h : P c) (hr : frameRun p n c = .ok c') : P c' := by
  induction n generalizing c with
  | zero => cases hr; exact h
  | succ n ih =>
    cases hf : c.fsm.atRest with
    | true => rw [frameRun_atRest hf] at hr; cases hr; exact h
    | false =>
      rw [frameRun_succ hf, bind_ok_iff] at hr
      obtain ⟨d, hd, hr⟩ := hr
      exact ih (hs c d h hd) hr

end Sys2Proof.Machine
end

