-- ==== Sys2Proof/Laws/PerInstr.lean ====
section
/-! SUPPORT. The per-instruction family OpcodeByte: the CMD word of a well-formed instruction has the instruction's OPC, a
reserved field of 0, and a DEC field of 0 for every command but ENV.DETECT (30_encoding.md R57, R59, R60). -/

namespace Sys2Proof.Laws.OpcodeByte

open Sys2Proof

/-- What the CMD word of an instruction holds in each of its fields. -/
def Statement (i : Instr) : Prop :=
  i.wf = true → (encode i).opc = i.opc ∧ (encode i).rsv = 0 ∧ ((encode i).dec ≠ 0 → i.opcode = .envDetect)

/-- The CMD word of ENV.DETECT for each of the 16 exponents. -/
theorem envDetect_cmd (d : Fin 16) :
    (Command.mk (plainCmd .envDetect ||| (BitVec.ofNat 32 d.val <<< 8)) 0 0 0).opc = Opcode.opc .envDetect ∧
    (Command.mk (plainCmd .envDetect ||| (BitVec.ofNat 32 d.val <<< 8)) 0 0 0).rsv = 0 := by
  revert d; decide

theorem envDetect (d n : Nat) : Statement (.envDetect d n) := fun h => by
  have hd : d < 16 := by simpa [decFits] using (Bool.and_eq_true_iff.1 h).1
  exact ⟨(envDetect_cmd ⟨d, hd⟩).1, (envDetect_cmd ⟨d, hd⟩).2, fun _ => rfl⟩

/-- The CMD word of every command without a decimation field. -/
theorem plain_cmd (op : Opcode) (a b c : Word) :
    (Command.mk (plainCmd op) a b c).opc = op.opc ∧ (Command.mk (plainCmd op) a b c).rsv = 0 ∧
      (Command.mk (plainCmd op) a b c).dec = 0 := by
  refine ⟨?_, ?_, ?_⟩ <;> simp only [Command.opc, Command.rsv, Command.dec] <;> revert op <;> intro op <;> cases op <;> decide

/-- The family holds of an instruction whose CMD word is plain. -/
theorem of_plain {i : Instr} {a b c : Word} (h : encode i = ⟨plainCmd i.opcode, a, b, c⟩) : Statement i := fun _ => by
  obtain ⟨h1, h2, h3⟩ := plain_cmd i.opcode a b c
  rw [h]
  exact ⟨h1, h2, fun hd => absurd h3 hd⟩

theorem lpfReset : Statement .lpfReset := of_plain rfl

theorem lpfFilter (len : Nat) : Statement (.lpfFilter len) := of_plain rfl

theorem fmReset : Statement .fmReset := of_plain rfl

theorem fmDemod (n : Nat) : Statement (.fmDemod n) := of_plain rfl

theorem crcCompute (off len : Nat) (init : Half) : Statement (.crcCompute off len init) := of_plain rfl

theorem crcVerify (off len : Nat) : Statement (.crcVerify off len) := of_plain rfl

theorem frameDecode (nbits : Nat) : Statement (.frameDecode nbits) := of_plain rfl

theorem frameParse (nbytes : Nat) : Statement (.frameParse nbytes) := of_plain rfl

end Sys2Proof.Laws.OpcodeByte
end

