-- ==== Sys2Proof/Laws/Step.lean ====
section
/-! SUPPORT. What a step and a run can do, said once: a step is one move (70_reset_and_hazards.md R136), a host access
touches memories or lastRead only, exec always answers a next state, a run in its three cases (R137). -/

namespace Sys2Proof.Machine

open Sys2Proof

/-- A step runs the first pending move on the state without it. -/
theorem step_of_port {s : State} {m : HostMove} {rest : List HostMove} (h : s.port = m :: rest) :
    step s = runMove m { s with port := rest } := by
  simp only [step, runPort, h]

/-- Every instruction answers a next state. -/
theorem exec_next (i : Instr) (s : State) : ∃ t, exec i s = .next t := by
  cases i <;> exact ⟨_, rfl⟩

/-- A host write that succeeds changes nothing but the six memories. -/
theorem hostWrite_frame {w : HostWrite} {s t : State} (h : hostWrite w s = .ok t) :
    t = { s with iqIn := t.iqIn, envOut := t.envOut, lpfOut := t.lpfOut, fmOut := t.fmOut, bitIn := t.bitIn,
                 frameBuf := t.frameBuf } := by
  cases w with
  | fmOut i v =>
    simp only [hostWrite] at h
    split at h
    · obtain ⟨m, -, e⟩ := bind_ok_iff.1 h; cases e; rfl
    · cases h
  | iqIn i v | envOut i v | lpfOut i v | bitIn i v | frameBuf i v =>
    obtain ⟨m, -, e⟩ := bind_ok_iff.1 h; cases e; rfl

/-- A host read does not look at the pending moves. -/
@[simp] theorem hostRead_port (r : HostRead) (s : State) (ms : List HostMove) :
    hostRead r { s with port := ms } = hostRead r s := by
  cases r with
  | mem m i => cases m <;> rfl
  | reg n => cases n <;> rfl
  | sq i => rfl
  | out i => rfl

/-- A host read of everything but FAULT does not look at FAULT. -/
theorem hostRead_fault {r : HostRead} (h : r ≠ .reg .fault) (s : State) (f : Word) :
    hostRead r { s with fault := f } = hostRead r s := by
  cases r with
  | mem m i => cases m <;> rfl
  | reg n => cases n <;> first | rfl | exact absurd rfl h
  | sq i => rfl
  | out i => rfl

/-- A host read as a move leaves the value in lastRead. -/
theorem hostReadMove_ok_iff {r : HostRead} {s t : State} :
    hostReadMove r s = .ok t ↔ ∃ v, hostRead r s = .ok v ∧ t = { s with lastRead := some v } := by
  simp only [hostReadMove, bind_ok_iff, pure_eq_ok, ok_eq_ok_iff]

/-- A run with no command left is over. -/
theorem runSteps_done {s : State} (h : s.commandsDone = true) (n : Nat) : runSteps n s = .next s := by
  cases n <;> simp [runSteps, h]

/-- A run ends after the step that raises a fault. -/
theorem runSteps_faulted {s t : State} {n : Nat} (hc : s.commandsDone = false) (h : step s = .next t)
    (hs : s.halted = false) (ht : t.halted = true) : runSteps (n + 1) s = .next t := by
  simp [runSteps, hc, h, hs, ht]

/-- A run goes on after a step that raises no fault. -/
theorem runSteps_next {s t : State} {n : Nat} (hc : s.commandsDone = false) (h : step s = .next t)
    (ht : s.halted = true ∨ t.halted = false) : runSteps (n + 1) s = runSteps n t := by
  rcases ht with ht | ht <;> simp [runSteps, hc, h, ht]

end Sys2Proof.Machine
end

