-- ==== Sys2Proof/Tests/Slice0.lean ====
section
/-! SUPPORT. Own tests: the well-formedness checks, words written out from the encoding, at most two one-step tests per
command with results from 95_test_vectors.md, and witnesses that the hypotheses of every statement can be met. -/

namespace Sys2Proof.Tests

-- One theorem at a time: each thread of the elaborator reserves a stack, and a hundred of them exceed the memory limit.
set_option Elab.async false

open Sys2Proof Sys2Proof.Machine

/-! Small states -/

/-- The state after reset of a block with the reference parameters (R10). -/
def ref : State := { State.reset with params := Params.reference }

/-- The memory whose elements 0, 1, ... are the values listed. -/
def memOf {α : Type} (xs : List α) : Memory α := xs.zipIdx.map fun c => (c.2, c.1)

/-- The reference state with values in IQ_IN. -/
def iqState (xs : List Byte) : State := { ref with iqIn := memOf xs }

/-- The reference state with values in FRAME_BUF. -/
def frameState (xs : List Byte) : State := { ref with frameBuf := memOf xs }

/-- The reference state with values in BIT_IN. -/
def bitState (xs : List Bool) : State := { ref with bitIn := memOf xs }

/-- The reference state with an LPF history and values in ENV_OUT. -/
def lpfState (c : Coefs) (xp yp : Half) (xs : List Half) : State :=
  { ref with params := { Params.reference with coefEnv := c }, lpfValid := true, lpfXp := xp, lpfYp := yp, envOut := memOf xs }

/-- The reference state with the zero FM history and values in IQ_IN. -/
def fmState (xs : List Byte) : State := { iqState xs with fmValid := true }

/-- The outcome is a next state with the property. -/
def nextIs (o : Host.Outcome State Fault Refusal) (p : State → Bool) : Bool :=
  match o with
  | .next t => p t
  | _ => false

/-- The outcome is this fault of the model. -/
def faultIs (o : Host.Outcome State Fault Refusal) (f : Fault) : Bool :=
  match o with
  | .fault g => decide (g = f)
  | _ => false

/-- A decoding is this instruction. -/
def decodesTo (c : Command) (i : Instr) : Bool :=
  match decode c with
  | .ok j => decide (j = i)
  | .error _ => false

/-- A decoding fails for this reason. -/
def refusedAs (c : Command) (e : DecodeError) : Bool :=
  match decode c with
  | .ok _ => false
  | .error g => decide (g = e)

/-- The bits of an 8N1 character (95_test_vectors.md section 8). -/
def charBits (b : Byte) : List Bool := false :: ((List.range 8).map fun k => b.getLsbD k) ++ [true]

/-- The frame FS of 95_test_vectors.md section 1.6. -/
def frameFS : List Byte :=
  [0xAA, 0xAA, 0x2A, 0xD5, 0x00, 0x1E, 0x06, 0xDE, 0xAD, 0xBE, 0xEF, 0x0B, 0x0C, 0x0D, 0x0E, 0x0F,
   0x10, 0x11, 0x12, 0x13, 0x14, 0x15, 0x16, 0x17, 0x18, 0x19, 0x12, 0x34, 0x56, 0x78, 0x1E, 0x1F,
   0x20, 0x21, 0x2E, 0xD1, 0x00, 0x00]

/-- The frame FL of section 1.7. -/
def frameFL : List Byte :=
  [0xAA, 0xAA, 0x2A, 0xD5, 0x00, 0x47, 0x06, 0xDE, 0xAD, 0xBE, 0xEF, 0x0B, 0x0C, 0x0D, 0x0E, 0x0F,
   0x65, 0x53, 0xF1, 0x00, 0x14, 0x15, 0x16, 0x17, 0x00, 0x01, 0x12, 0x34, 0x56, 0x78, 0x1E, 0x1F,
   0x00, 0x11, 0x22, 0x33, 0x44, 0x55, 0x26, 0x27, 0x28, 0x29, 0x2A, 0x2B, 0x2C, 0x2D, 0x2E, 0x2F,
   0x30, 0x31, 0x32, 0x33, 0x34, 0x35, 0x36, 0x37, 0x38, 0x39, 0x3A, 0x3B, 0x3C, 0x3D, 0x3E, 0x3F,
   0x40, 0x41, 0x42, 0x43, 0x44, 0x45, 0x46, 0x47, 0x48, 0x49, 0x4A, 0x22, 0x7E, 0x00, 0x00]

/-- The frame F55 of section 7. -/
def frame55 : List Byte :=
  [0xAA, 0xAA, 0x2A, 0x55, 0x00, 0x20, 0x00, 0x0A, 0x0B, 0x0C, 0x0D, 0x0E, 0x0F, 0x10, 0x21, 0x32,
   0x43, 0x54, 0x65, 0x00, 0x00, 0x00, 0x01, 0x00, 0x00, 0x00, 0xCA, 0xFE, 0x00, 0x01, 0x00, 0x00,
   0x00, 0x00, 0x00, 0x00, 0x0E, 0xB3, 0x00, 0x00]

/-- The frame FD2 of section 7. -/
def frameD2 : List Byte := [0xAA, 0xAA, 0x2A, 0xD2, 0x06, 0x15, 0x16, 0x17, 0x18, 0x5F, 0xFC, 0x00, 0x00]

/-- The frame F55s of section 7: too short for its fields. -/
def frame55s : List Byte := [0xAA, 0xAA, 0x2A, 0x55, 0x00, 0x04, 0x77, 0x77, 0x82, 0xB1, 0x00, 0x00]

/-- The bytes "123456789" of section 6. -/
def digits : List Byte := [0x31, 0x32, 0x33, 0x34, 0x35, 0x36, 0x37, 0x38, 0x39]

/-- The bits of section 8, first row: 7 ones, the characters of FS, 5 ones. -/
def bitsFS : List Bool := List.replicate 7 true ++ frameFS.flatMap charBits ++ List.replicate 5 true

/-- The k-th byte of a list, as the statements give bytes. -/
def byteOf (xs : List Byte) (i : Nat) : Byte := xs.getD i 0

/-! Well-formedness: an ill-formed term for each check -/

theorem test_wf_refuses_exponent : (Instr.envDetect 16 0).wf = false := by decide
theorem test_wf_refuses_envDetect_count : (Instr.envDetect 0 (2 ^ 32)).wf = false := by decide
theorem test_wf_refuses_lpfFilter_length : (Instr.lpfFilter (2 ^ 32)).wf = false := by decide
theorem test_wf_refuses_fmDemod_count : (Instr.fmDemod (2 ^ 32)).wf = false := by decide
theorem test_wf_refuses_crcCompute_offset : (Instr.crcCompute (2 ^ 32) 0 0).wf = false := by decide
theorem test_wf_refuses_crcCompute_length : (Instr.crcCompute 0 (2 ^ 32) 0).wf = false := by decide
theorem test_wf_refuses_crcVerify_offset : (Instr.crcVerify (2 ^ 32) 2).wf = false := by decide
theorem test_wf_refuses_crcVerify_length : (Instr.crcVerify 0 (2 ^ 32)).wf = false := by decide
theorem test_wf_refuses_frameDecode_bits : (Instr.frameDecode (2 ^ 32)).wf = false := by decide
theorem test_wf_refuses_frameParse_bytes : (Instr.frameParse (2 ^ 32)).wf = false := by decide

/-- Every constructor has well-formed terms, at the top of each operand's range. -/
theorem test_wf_accepts_the_range : (Instr.envDetect 15 (2 ^ 32 - 1)).wf = true ∧ Instr.lpfReset.wf = true ∧
    (Instr.lpfFilter (2 ^ 32 - 1)).wf = true ∧ Instr.fmReset.wf = true ∧ (Instr.fmDemod (2 ^ 32 - 1)).wf = true ∧
    (Instr.crcCompute (2 ^ 32 - 1) (2 ^ 32 - 1) 0xFFFF).wf = true ∧
    (Instr.crcVerify (2 ^ 32 - 1) (2 ^ 32 - 1)).wf = true ∧ (Instr.frameDecode (2 ^ 32 - 1)).wf = true ∧
    (Instr.frameParse (2 ^ 32 - 1)).wf = true := by decide

/-! Decoding: words written out from R57, R59, R61, field by field: RSV (20 bits), DEC (4), OPC (8) -/

theorem test_decode_envDetect :
    decodesTo ⟨0b00000000000000000000_0011_00010000#32, 24, 0, 0⟩ (.envDetect 3 24) = true := by decide
theorem test_decode_lpfReset :
    decodesTo ⟨0b00000000000000000000_0000_00100000#32, 0, 0, 0⟩ .lpfReset = true := by decide
theorem test_decode_lpfFilter :
    decodesTo ⟨0b00000000000000000000_0000_00100001#32, 4, 0, 0⟩ (.lpfFilter 4) = true := by decide
theorem test_decode_fmReset :
    decodesTo ⟨0b00000000000000000000_0000_00110000#32, 0, 0, 0⟩ .fmReset = true := by decide
theorem test_decode_fmDemod :
    decodesTo ⟨0b00000000000000000000_0000_00110001#32, 0xFFFFFFFF, 0, 0⟩ (.fmDemod 4294967295) = true := by decide
theorem test_decode_crcCompute :
    decodesTo ⟨0b00000000000000000000_0000_01000000#32, 1, 9, 0x00011D0F⟩ (.crcCompute 1 9 0x1D0F) = true := by decide
theorem test_decode_crcVerify :
    decodesTo ⟨0b00000000000000000000_0000_01000001#32, 9, 2, 5⟩ (.crcVerify 9 2) = true := by decide
theorem test_decode_frameDecode :
    decodesTo ⟨0b00000000000000000000_0000_01010000#32, 0x188, 0, 0⟩ (.frameDecode 392) = true := by decide
theorem test_decode_frameParse :
    decodesTo ⟨0b00000000000000000000_0000_01010001#32, 0x26, 0, 0⟩ (.frameParse 38) = true := by decide

/-- R60 and section 2: the three illegal cases. -/
theorem test_decode_illegal : refusedAs ⟨0x00000121, 0, 0, 0⟩ .decimationField = true ∧
    refusedAs ⟨0x00001010, 0, 0, 0⟩ .reservedBits = true ∧ refusedAs ⟨0x00000011, 0, 0, 0⟩ .unknownOpcode = true ∧
    refusedAs ⟨0x00000000, 0, 0, 0⟩ .unknownOpcode = true ∧ refusedAs ⟨0xFFFFFFFF, 0, 0, 0⟩ .reservedBits = true := by
  decide

/-- The table's numbering: ARG0 in bits 63..32. -/
theorem test_decodeTableWord : decodeTableWord 64 0x00000004_00000021 = some (.lpfFilter 4) ∧
    decodeTableWord 32 0x00000021 = some (.lpfFilter 0) ∧ decodeTableWord 32 0x00000121 = none := by decide

/-! One step of each command, results from 95_test_vectors.md -/

/-- Section 3: decimation by 2, the pairs at odd positions not read. -/
theorem test_envDetect_decimates : nextIs (exec (.envDetect 1 8) (iqState
    [0x00, 0x00, 0x09, 0x09, 0xFF, 0xFF, 0x09, 0x09, 0x7F, 0x7F, 0x09, 0x09, 0x40, 0xC8, 0x09, 0x09]))
    (fun t => decide (t.envOut = memOf [32258, 32768, 0, 9298] ∧ t.status = 1)) = true := by decide +kernel

/-- Section 3: IQ_IN[1] unwritten. -/
theorem test_envDetect_unwritten : nextIs (exec (.envDetect 0 1) (iqState [0x00]))
    (fun t => decide (t.fault = 0x00001006 ∧ t.status = 0xF ∧ t.envOut = [])) = true := by decide +kernel

/-- Rule R75's example. -/
theorem test_lpfReset_zeroes : nextIs (exec .lpfReset (lpfState ⟨1, 1, 1⟩ 7 8 []))
    (fun t => decide (t.lpfXp = 0 ∧ t.lpfYp = 0 ∧ t.lpfValid = true ∧ t.status = 1)) = true := by decide +kernel

/-- Section 4: the kernel's 65533 is stored as -3. -/
theorem test_lpfFilter_wraps : nextIs (exec (.lpfFilter 2) (lpfState ⟨32767, 32767, 32767⟩ 0 0 [65535, 65535]))
    (fun t => decide (t.lpfOut = memOf [-3, -9] ∧ t.lpfXp = 65535 ∧ t.lpfYp = -9)) = true := by decide +kernel

/-- Section 4: OVERFLOW at sample 2, nothing committed. -/
theorem test_lpfFilter_overflows :
    nextIs (exec (.lpfFilter 3) (lpfState ⟨32767, 32767, 32767⟩ 0 0 [16384, 65535, 65535]))
    (fun t => decide (t.fault = 0x00002107 ∧ t.lpfOut = [] ∧ t.lpfXp = 0)) = true := by decide +kernel

/-- Rule R84's example. -/
theorem test_fmReset_zeroes : nextIs (exec .fmReset ref)
    (fun t => decide (t.fmHist = ⟨0, 0, 0, 0, 0⟩ ∧ t.fmValid = true ∧ t.status = 1)) = true := by decide +kernel

/-- Section 5: three pairs, the leak term in use. -/
theorem test_fmDemod_three_pairs : nextIs (exec (.fmDemod 3) (fmState [0xE4, 0x80, 0x80, 0xE4, 0xE4, 0x80]))
    (fun t => decide (t.fmOut = memOf [0, 1367, 987] ∧ t.fmHist = ⟨100, 0, -10000, -10039, 987⟩)) = true := by
  decide +kernel

/-- Section 5: the minimum of the proxy, a negative output. -/
theorem test_fmDemod_minimum : nextIs (exec (.fmDemod 2) (fmState [0x00, 0x00, 0x00, 0xFF]))
    (fun t => decide (t.fmOut = memOf [0, -4463] ∧ t.fmHist = ⟨-128, 127, -32640, -32640, -4463⟩)) = true := by
  decide +kernel

/-- Section 6: CRC-16 of the nine digits from 0xFFFF. -/
theorem test_crcCompute_digits : nextIs (exec (.crcCompute 0 9 0xFFFF) (frameState digits))
    (fun t => decide (t.result = 0x000029B1 ∧ t.status = 1)) = true := by decide +kernel

/-- Section 6: the empty payload. -/
theorem test_crcCompute_empty : nextIs (exec (.crcCompute 0 0 0xBEEF) (frameState digits))
    (fun t => decide (t.result = 0x0000BEEF)) = true := by decide +kernel

/-- Section 6: the match at index 3. -/
theorem test_crcVerify_match : nextIs (exec (.crcVerify 0 11) (frameState (digits ++ [0xED, 0xEB])))
    (fun t => decide (t.crcIdx = 3 ∧ t.result = 0x00001234)) = true := by decide +kernel

/-- Section 6: no match is no fault. -/
theorem test_crcVerify_nomatch : nextIs (exec (.crcVerify 0 11) (frameState (digits ++ [0x00, 0x00])))
    (fun t => decide (t.crcIdx = 0xFF ∧ t.result = 0xFFFFFFFF ∧ t.status = 1)) = true := by decide +kernel

/-- Section 8, first row: the frame FS from bits. -/
theorem test_frameDecode_success : nextIs (exec (.frameDecode 392) (bitState bitsFS))
    (fun t => decide (t.status = 2 ∧ t.flen = 38 ∧ t.crcIdx = 3 ∧ t.frameBuf = memOf frameFS ∧
      t.record = .kd5s #v[0xDE, 0xAD, 0xBE, 0xEF] #v[0x12, 0x34, 0x56, 0x78] ∧ t.out = [.emit t.record])) = true := by
  decide +kernel

/-- Section 8: 40 ones. -/
theorem test_frameDecode_noSync : nextIs (exec (.frameDecode 40) (bitState (List.replicate 40 true)))
    (fun t => decide (t.status = 6 ∧ t.flen = 0 ∧ t.crcIdx = 0xFF ∧ t.fsm = .noSync)) = true := by decide +kernel

/-- Section 7: the long form FL, UPTIME and SRC sharing two bytes. -/
theorem test_frameParse_long : nextIs (exec (.frameParse 79) (frameState frameFL))
    (fun t => decide (t.status = 2 ∧ t.crcIdx = 5 ∧ t.record = .kd5l #v[0xDE, 0xAD, 0xBE, 0xEF]
      #v[0x12, 0x34, 0x56, 0x78] 1700000000 70196 #v[0x00, 0x11, 0x22, 0x33, 0x44, 0x55])) = true := by decide +kernel

/-- Section 7: F55s passes the CRC and faults FIELD_BOUNDS. -/
theorem test_frameParse_fieldBounds : nextIs (exec (.frameParse 12) (frameState frame55s))
    (fun t => decide (t.fault = 0x00005108 ∧ t.flen = 0 ∧ t.crcIdx = 0xFF ∧ t.out = [])) = true := by decide +kernel

/-! The step -/

/-- A command issued right after reset, on the table's numbering. -/
theorem test_step_runs_first_command : nextIs (step (State.reset.withFetchWord 32 0x00000020))
    (fun t => decide (t.lpfValid = true ∧ t.status = 1 ∧ t.port = [])) = true := by decide

/-- Section 2: an illegal command word. -/
theorem test_step_illegal_command : nextIs (step (ref.withCommand ⟨0x00001010, 0, 0, 0⟩))
    (fun t => decide (t.fault = 0x00001001 ∧ t.status = 0xF)) = true := by decide

/-- Section 9, program 7, step 2: a halted block executes nothing. -/
theorem test_step_halted : nextIs (step ({ ref.takeFault 0x21 .stateUninit with port := [.command ⟨0x20, 0, 0, 0⟩] }))
    (fun t => decide (t.lpfValid = false ∧ t.fault = 0x00002102 ∧ t.status = 0xF)) = true := by decide

/-- R49: a host read of an unwritten element has no value. -/
theorem test_step_host_read_unwritten : faultIs (step ({ ref with port := [.read (.mem .iqIn 0)] })) .hostReadUnwritten
    = true := by decide

/-- R37 and R136: a read of a history before its reset command is refused, and the block goes on. -/
theorem test_step_host_read_refused : nextIs (step { ref with port := [.read (.reg .fmXdc), .command ⟨0x30, 0, 0, 0⟩] })
    (fun t => decide (t = { ref with port := [.command ⟨0x30, 0, 0, 0⟩], lastRead := some .noValue })) = true := by decide

/-- R32: the record KD2 has no source address, and reading it faults; with REC_VALID = 0 there is no value. -/
theorem test_step_host_read_absent_field :
    faultIs (step { ref with recValid := true, fsm := .success, port := [.read (.reg .recSrc)] }) .hostReadFieldAbsent = true ∧
    nextIs (step { ref with port := [.read (.reg .recSrc)] }) (fun t => decide (t.lastRead = some .noValue)) = true := by decide

/-- Section 9, program 7, and R137: its run ends at the fault of its first step, so it has no normal end although a
reset follows. -/
theorem test_run_ends_at_first_fault : nextIs (run { ref with port :=
      [.command ⟨0x21, 2, 0, 0⟩, .command ⟨0x20, 0, 0, 0⟩, .reset, .command ⟨0x20, 0, 0, 0⟩] })
    (fun t => decide (t.fault = 0x00002102 ∧ t.lpfValid = false)) = true := by decide

/-- R137: a run without a fault ends after its last command, and normally. -/
theorem test_run_ends_normally : State.normalEnd { ref with port := [.command ⟨0x20, 0, 0, 0⟩, .read (.reg .status)] }
    { ref with port := [.read (.reg .status)], lpfValid := true, status := 1 } := ⟨rfl, rfl⟩

/-- Section 1.6: the rendering of FS. -/
theorem test_render_short : (OutEvent.emit (.kd5s #v[0xDE, 0xAD, 0xBE, 0xEF] #v[0x12, 0x34, 0x56, 0x78])).render
    Params.reference = [⟨"model", .string, "REF"⟩, ⟨"id", .string, "12345678"⟩, ⟨"destaddress", .string, "deadbeef"⟩,
      ⟨"mic", .string, "CRC"⟩] := by decide +kernel

/-! Witnesses: concrete values that meet the hypotheses of each statement, at boundary values clause by clause -/

theorem test_witness_OpcodeMap_words : (0x00000F10 : Word) &&& 0xFFFFF0FF = 0x00000010 ∧
    (0x00000020 : Word) &&& 0xFFFFFFFF = 0x00000020 ∧ (0x00000021 : Word) &&& 0xFFFFFFFF = 0x00000021 ∧
    (0x00000030 : Word) &&& 0xFFFFFFFF = 0x00000030 ∧ (0x00000031 : Word) &&& 0xFFFFFFFF = 0x00000031 ∧
    (0x00000040 : Word) &&& 0xFFFFFFFF = 0x00000040 ∧ (0x00000041 : Word) &&& 0xFFFFFFFF = 0x00000041 ∧
    (0x00000050 : Word) &&& 0xFFFFFFFF = 0x00000050 ∧ (0x00000051 : Word) &&& 0xFFFFFFFF = 0x00000051 := by decide
theorem test_witness_OpcodeMap_rows : (⟨.envDetect, 0x00000010, 0xFFFFF0FF⟩ : OpcodeRow) ∈ opcodeMap ∧
    OpcodeRow.selects ⟨.envDetect, 0x00000010, 0xFFFFF0FF⟩ 0x00000F10 = true := by decide
theorem test_witness_DecodedInstruction : decode ⟨0x00000F10, 0xFFFFFFFF, 0, 0⟩ = .ok (.envDetect 15 4294967295) := by rfl
theorem test_witness_IllegalCommand : (ref.withCommand ⟨0xFFFFFFFF, 0, 0, 0⟩).port = [.command ⟨0xFFFFFFFF, 0, 0, 0⟩] ∧
    (ref.withCommand ⟨0xFFFFFFFF, 0, 0, 0⟩).halted = false ∧ decode ⟨0xFFFFFFFF, 0, 0, 0⟩ = .error .reservedBits :=
  ⟨rfl, rfl, rfl⟩
theorem test_witness_StepRuns : (State.reset.withFetchWord 32 0x51).port = [.command ⟨0x51, 0, 0, 0⟩] ∧
    (State.reset.withFetchWord 32 0x51).halted = false ∧ decode ⟨0x51, 0, 0, 0⟩ = .ok (.frameParse 0) := ⟨rfl, rfl, rfl⟩
theorem test_witness_EmptyPort : State.reset.port = [] := rfl

/-- A halted block with one move pending. -/
def haltedWith (m : HostMove) : State := { ref.takeFault 0x21 .stateUninit with port := [m] }

theorem test_witness_Halted_command : (haltedWith (.command ⟨0x20, 0, 0, 0⟩)).port = [.command ⟨0x20, 0, 0, 0⟩] ∧
    (haltedWith (.command ⟨0x20, 0, 0, 0⟩)).fault.extractLsb' 0 8 ≠ 0 := ⟨rfl, by decide⟩
theorem test_witness_Halted_step : (haltedWith .reset).fault.extractLsb' 0 8 ≠ 0 ∧
    step (haltedWith .reset) = .next (haltedWith .reset |>.applyReset |> fun t => { t with port := [] }) := ⟨by decide, rfl⟩
theorem test_witness_Halted_write : (haltedWith (.write (.frameBuf 95 0xFF))).port = [.write (.frameBuf 95 0xFF)] ∧
    (haltedWith (.write (.frameBuf 95 0xFF))).fault.extractLsb' 0 8 ≠ 0 ∧
    (HostWrite.frameBuf 95 0xFF).InRange (haltedWith (.write (.frameBuf 95 0xFF))).params :=
  ⟨rfl, by decide, by decide, fun _ _ h => by cases h⟩
theorem test_witness_Halted_read : (haltedWith (.read (.reg .status))).port = [.read (.reg .status)] ∧
    (haltedWith (.read (.reg .status))).fault.extractLsb' 0 8 ≠ 0 ∧ HostRead.reg .status ≠ .reg .fault ∧
    hostRead (.reg .status) { haltedWith (.read (.reg .status)) with fault := 0 } = .ok (.num 15) ∧
    (haltedWith (.read (.reg .fault))).port = [.read (.reg .fault)] := ⟨rfl, by decide, by decide, rfl, rfl⟩
theorem test_witness_ResetMove : (haltedWith .reset).port = [.reset] := rfl

/-- FRAME_CAP is at least 5 in every block (R7), so some memory element exists after reset. -/
theorem test_witness_ResetValues : 4 < memSize State.reset.params .frameBuf := by
  have h := Config.params.ok
  simp only [Params.wf, Bool.and_eq_true, decide_eq_true_eq] at h
  exact h.1.1

theorem test_witness_HostWrite_last_elements : (HostWrite.iqIn 63 0xFF).target.2 < memSize ref.params .iqIn ∧
    (HostWrite.envOut 31 0xFFFF).target.2 < memSize ref.params .envOut ∧
    (HostWrite.lpfOut 31 0x8000).target.2 < memSize ref.params .lpfOut ∧
    (HostWrite.bitIn 1023 true).target.2 < memSize ref.params .bitIn ∧
    (HostWrite.frameBuf 95 0xFF).target.2 < memSize ref.params .frameBuf := by decide
theorem test_witness_HostWrite_fmOut : (HostWrite.fmOut 31 (-32768)).target.2 < memSize ref.params .fmOut ∧
    ref.params.fmOutWidth = .w16 ∧ -(2 ^ 15) ≤ (-32768 : Word).toInt ∧ (-32768 : Word).toInt < 2 ^ 15 ∧
    -(2 ^ 15) ≤ (32767 : Word).toInt ∧ (32767 : Word).toInt < 2 ^ 15 := by decide
/-- Every other element is in range of its type; beyond the last element, and beyond s16, no write is in range. -/
theorem test_witness_HostWrite_inRange : (HostWrite.iqIn 63 0xFF).InRange ref.params ∧
    (HostWrite.fmOut 31 (-32768)).InRange ref.params ∧ ¬(HostWrite.iqIn 64 0xFF).InRange ref.params ∧
    ¬(HostWrite.fmOut 31 32768).InRange ref.params :=
  ⟨⟨by decide, fun _ _ h => by cases h⟩, ⟨by decide, fun _ _ h _ => by cases h; decide⟩, fun h => absurd h.1 (by decide),
    fun h => absurd (h.2 _ _ rfl rfl).2 (by decide)⟩
/-- A read with a value, and one without. -/
theorem test_witness_HostRead : hostRead (.out 0) ref = .ok (.events []) ∧
    hostRead (.mem .iqIn 0) ref = .error .hostReadUnwritten ∧
    ({ ref with port := [.read (.out 0)] } : State).port = [.read (.out 0)] := ⟨rfl, rfl, rfl⟩
theorem test_witness_OnlyHostAccesses : step { ref with port := [.read (.mem .iqIn 0)] } = .fault .hostReadUnwritten ∧
    step { ref with port := [.write (.iqIn 64 0)] } = .fault .hostIndexOutside := ⟨rfl, rfl⟩
theorem test_witness_FaultsArePrecise : ref.halted = false ∧
    exec (.lpfFilter 2) ref = .next (ref.takeFault 0x21 .stateUninit) ∧
    (ref.takeFault 0x21 .stateUninit).halted = true := ⟨rfl, rfl, rfl⟩
/-- The step clause: a command that faults, and a command word that is illegal. -/
theorem test_witness_FaultsArePrecise_step :
    nextIs (step (ref.withCommand ⟨0x21, 2, 0, 0⟩)) (fun t => t.halted) = true ∧
    nextIs (step (ref.withCommand ⟨0x11, 2, 0, 0⟩)) (fun t => t.halted) = true := ⟨rfl, rfl⟩
theorem test_witness_StatusCodes : exec .fmReset ref = .next ({ ref with fmValid := true, status := 1 }) ∧
    exec (.frameParse 97) ref = .next (ref.takeFault 0x51 .bounds) ∧
    exec (.frameDecode 1025) ref = .next (ref.takeFault 0x50 .bounds) := ⟨rfl, rfl, rfl⟩

/-- The reference state with both valid bits set. -/
def validState : State := { ref with lpfValid := true, fmValid := true }

/-- Operands just beyond each check's limit (EnvDetectCommand, LpfFilterCommand, FmDemodCommand). -/
theorem test_witness_OperandFaults_dsp : 3 % 2 ^ 1 ≠ 0 ∧ (33 % 2 ^ 0 = 0 ∧ ref.params.nIq < 2 * 33) ∧
    ref.lpfValid = false ∧ (validState.lpfValid = true ∧ 1 ≤ 1) ∧ (1 < 33 ∧ validState.params.nEnv < 33) ∧
    ref.fmValid = false ∧ (validState.fmValid = true ∧ validState.params.nIq < 2 * 33) := by decide
/-- The second half of ENV.DETECT's bounds, apart from the first: 32 outputs in a memory of 31. -/
theorem test_witness_OperandFaults_outputs : 32 % 2 ^ 0 = 0 ∧ ¬({ Params.reference with nEnv := 31 } : Params).nIq < 2 * 32 ∧
    ({ Params.reference with nEnv := 31 } : Params).nEnv < 32 / 2 ^ 0 ∧
    ({ Params.reference with nLpf := 31 } : Params).nLpf < 32 ∧ ({ Params.reference with nFm := 31 } : Params).nFm < 32 := by
  decide
/-- The same for CrcComputeCommand, CrcVerifyCommand and FrameOperandAndReadFaults. -/
theorem test_witness_OperandFaults_frame : ref.params.frameCap < 90 + 7 ∧ 1 < 2 ∧ (2 ≤ 2 ∧ ref.params.frameCap < 95 + 2) ∧
    ref.params.nBits < 1025 ∧ ref.params.frameCap < 97 := by decide

/-- Unwritten inputs of EnvDetectCommand, CrcComputeCommand and CrcVerifyCommand, FrameOperandAndReadFaults. -/
theorem test_witness_Unwritten_envDetect : 4 % 2 ^ 1 = 0 ∧ 2 * 4 ≤ ref.params.nIq ∧ 4 / 2 ^ 1 ≤ ref.params.nEnv ∧ 1 < 4 / 2 ^ 1 ∧
    Memory.get? (iqState [1, 2, 3, 4, 5]).iqIn (2 * (1 * 2 ^ 1) + 1) = none ∧
    Memory.get? (iqState [1, 2, 3, 4]).iqIn (2 * (1 * 2 ^ 1)) = none := by decide
theorem test_witness_Unwritten_crc : 0 + 10 ≤ ref.params.frameCap ∧ 9 < 10 ∧ 2 ≤ 10 ∧
    Memory.get? (frameState digits).frameBuf (0 + 9) = none := by decide
theorem test_witness_Unwritten_bits : 1024 ≤ ref.params.nBits ∧ 1023 < 1024 ∧ Memory.get? ref.bitIn 1023 = none := by decide
theorem test_witness_SquareRom : (254 : Byte).toNat ≤ 254 := by decide

theorem test_witness_EnvDetect : 4 % 2 ^ 1 = 0 ∧ 2 * 4 ≤ ref.params.nIq ∧ 4 / 2 ^ 1 ≤ ref.params.nEnv ∧
    ∀ op, op < 4 / 2 ^ 1 →
      Memory.get? (iqState [0xFF, 0xFF, 1, 2, 0x7F, 0x7F]).iqIn (2 * (op * 2 ^ 1)) =
        some (byteOf [0xFF, 0x7F] op) ∧
      Memory.get? (iqState [0xFF, 0xFF, 1, 2, 0x7F, 0x7F]).iqIn (2 * (op * 2 ^ 1) + 1) =
        some (byteOf [0xFF, 0x7F] op) := by decide
/-- One pair (0xFF, 0xFF): the largest sample; element 1 and above stand for the elements beyond the output. -/
theorem test_witness_EnvelopeSamples : exec (.envDetect 0 1) (iqState [0xFF, 0xFF]) =
    .next { iqState [0xFF, 0xFF] with envOut := [(0, 0x8000)], status := 1 } ∧ 0 < 1 / 2 ^ 0 ∧ 1 / 2 ^ 0 ≤ 1 := by
  refine ⟨rfl, by decide, by decide⟩

theorem test_witness_Kernel_fits : KernelFits ⟨1, 0, 0⟩ 0 0 (2 ^ 31 - 1) ∧ KernelFits ⟨1, 0, 0⟩ 0 0 (-2 ^ 31) := by
  unfold KernelFits; decide
theorem test_witness_Kernel_overflows : ¬KernelFits ⟨1, 0, 0⟩ 0 0 (2 ^ 31) ∧ ¬KernelFits ⟨1, 0, 0⟩ 0 0 (-2 ^ 31 - 1) ∧
    ¬KernelFits ⟨32767, 32767, 32767⟩ 65535 65535 32763 := by unfold KernelFits; decide
/-- The kernel answers; one product odd, all three odd, even b0 and b1, a negative output, non-negative operands. -/
theorem test_witness_KernelLaws : lpfKernel ⟨1, 2, 2⟩ 3 3 3 = .ok 0 ∧ lpfKernel ⟨1, 1, 1⟩ 10923 10923 10923 = .ok 0 ∧
    ((1 : Half).toInt * 3) % 2 + ((2 : Half).toInt * 3) % 2 + ((2 : Half).toInt * 3) % 2 ≤ 1 ∧
    0 < (31754 : Half).toInt ∧ 0 ≤ (0 : Half).toInt := by refine ⟨rfl, rfl, ?_⟩; decide

/-- Two samples of 1000, outputs 15 and 45 (rule R76's example). -/
theorem test_witness_LpfFilter : (lpfState ⟨31754, 506, 506⟩ 0 0 [1000, 1000]).lpfValid = true ∧ 2 ≤ 2 ∧
    2 ≤ ref.params.nEnv ∧ 2 ≤ ref.params.nLpf ∧
    (∀ i, i < 2 → Memory.get? (lpfState ⟨31754, 506, 506⟩ 0 0 [1000, 1000]).envOut i = some 1000) ∧
    (∀ i, i < 2 → LpfSampleAt ⟨31754, 506, 506⟩ 0 0 (fun _ => 1000) (fun i => [15, 45].getD i 0) i) := by
  unfold LpfSampleAt LpfFitsAt KernelFits WrapsTo; decide
/-- Sample 2 unwritten, or overflowing, after two samples that run (section 4). -/
theorem test_witness_LpfRunTime : 2 < 3 ∧ 3 ≤ ref.params.nEnv ∧ 3 ≤ ref.params.nLpf ∧
    (∀ i, i < 2 → Memory.get? (lpfState ⟨32767, 32767, 32767⟩ 0 0 [16384, 65535]).envOut i =
        some ([16384, 65535].getD i 0) ∧
      LpfSampleAt ⟨32767, 32767, 32767⟩ 0 0 (fun i => [16384, 65535, 65535].getD i 0) (fun i => [16383, 32763].getD i 0) i) ∧
    Memory.get? (lpfState ⟨32767, 32767, 32767⟩ 0 0 [16384, 65535]).envOut 2 = none ∧
    Memory.get? (lpfState ⟨32767, 32767, 32767⟩ 0 0 [16384, 65535, 65535]).envOut 2 = some 65535 ∧
    ¬LpfFitsAt ⟨32767, 32767, 32767⟩ 0 0 (fun i => [16384, 65535, 65535].getD i 0) (fun i => [16383, 32763].getD i 0) 2 := by
  unfold LpfSampleAt LpfFitsAt KernelFits WrapsTo; decide
theorem test_witness_ReferenceFilter : (lpfState ⟨31754, 506, 506⟩ 32768 32767 [32768, 0]).params.coefEnv = ⟨31754, 506, 506⟩ ∧
    (∀ i, i < 2 → Memory.get? (lpfState ⟨31754, 506, 506⟩ 32768 32767 [32768, 0]).envOut i = some ([32768, 0].getD i 0) ∧
      (([32768, 0] : List Half).getD i 0).toNat ≤ 32768) ∧
    (32768 : Half).toNat ≤ 32768 ∧ 0 ≤ (32767 : Half).toInt ∧ (32767 : Half).toInt ≤ 32767 := by decide

/-- Both ends of the input range, and the constant sequence 0, which the kernel gives for X = 1 and X = 10; that a
sequence exists for the other inputs is what the statement's first clause says. -/
theorem test_witness_RiseToFixedPoint : 0 ≤ (0 : Int) ∧ (32768 : Int) ≤ 32768 ∧
    ((10, 0) : Int × Int) ∈ ([(1, 0), (10, 0), (100, 68), (1000, 966), (10000, 9948), (32768, 32672)] : List (Int × Int)) ∧
    lpfKernel ⟨31754, 506, 506⟩ 10 0 0 = .ok 0 ∧ (∀ _ : Nat, lpfKernel ⟨31754, 506, 506⟩ 10 10 0 = .ok 0) :=
  ⟨by decide, by decide, by decide, rfl, fun _ => rfl⟩

/-- Four samples in two pieces of 2: each piece runs, and the whole is in bounds. -/
theorem test_witness_LpfSplit :
    nextIs (exec (.lpfFilter 2) (lpfState ⟨31754, 506, 506⟩ 0 0 [1000, 1000, 1000, 1000])) (fun s1 => decide (s1.halted = false) &&
      nextIs (exec (.lpfFilter 2) { s1 with envOut := memOf [1000, 1000] }) fun s3 => decide (s3.halted = false)) = true ∧
    2 + 2 ≤ ref.params.nEnv ∧ 2 + 2 ≤ ref.params.nLpf ∧
    ∀ i, i < 2 → Memory.get? (memOf [(1000 : Half), 1000]) i = Memory.get? (memOf [(1000 : Half), 1000, 1000, 1000]) (2 + i) := by
  decide +kernel
theorem test_witness_LpfFrame : exec (.lpfFilter 1) validState = .next (validState.takeFault 0x21 .lenContract) ∧ 1 ≤ 1 ∧
    exec .lpfReset ref = .next { ref with lpfValid := true, status := 1 } := ⟨rfl, by decide, rfl⟩

/-- A zero history and its first step, which fits; a history whose step does not. -/
theorem test_witness_FmStep : FmFits ⟨23807, 4480, 4480⟩ ⟨0, 0, 0, 0, 0⟩ 0xE4 0x80 ∧
    ¬FmFits ⟨23807, 4480, 4480⟩ ⟨0, 0, 0x80000000, 0, 0⟩ 0xE4 0x80 := by
  unfold FmFits KernelFits fmYd fmP; decide
theorem test_witness_PhaseDifference : -128 ≤ (-128 : Int) ∧ (-128 : Int) ≤ 127 ∧ -128 ≤ (127 : Int) := by decide

/-- Both ends of the range without a leak, and of the ranges with one. -/
theorem test_witness_DcBlocker : (-256 < (-255 : Int) ∧ (-255 : Int) < 256) ∧ (-256 < (255 : Int) ∧ (255 : Int) < 256) ∧
    inS32 (2 ^ 31 - 1) ∧ inS32 (-2 ^ 31) ∧ 256 ≤ (256 : Int) ∧ (-256 : Int) ≤ -256 := by decide
/-- A zero previous sample in a history that is not zero otherwise, and a step from it that answers. -/
theorem test_witness_FmReset_previous : (⟨0, 0, 5, 256, 7⟩ : FmHist).ar = 0 ∧ (⟨0, 0, 5, 256, 7⟩ : FmHist).ai = 0 ∧
    fmStep ⟨0, 0, 0⟩ ⟨0, 0, 5, 256, 7⟩ 0xFF 0x00 = .ok (0, ⟨127, -128, 0, 250, 0⟩) := ⟨rfl, rfl, by rfl⟩

/-- The histories of the two pairs of rule R85's example. -/
def fmHists (k : Nat) : FmHist := [⟨0, 0, 0, 0, 0⟩, ⟨100, 0, 0, 0, 0⟩, ⟨0, 100, 10000, 10000, 1367⟩].getD k ⟨0, 0, 0, 0, 0⟩

theorem test_witness_FmDemod : (fmState [0xE4, 0x80, 0x80, 0xE4]).fmValid = true ∧ 2 * 2 ≤ ref.params.nIq ∧ 2 ≤ ref.params.nFm ∧
    (∀ k, k < 2 → Memory.get? (fmState [0xE4, 0x80, 0x80, 0xE4]).iqIn (2 * k) = some (byteOf [0xE4, 0x80] k) ∧
      Memory.get? (fmState [0xE4, 0x80, 0x80, 0xE4]).iqIn (2 * k + 1) = some (byteOf [0x80, 0xE4] k)) ∧
    fmHists 0 = (fmState [0xE4, 0x80, 0x80, 0xE4]).fmHist ∧
    (∀ k, k < 2 → FmFits ⟨23807, 4480, 4480⟩ (fmHists k) (byteOf [0xE4, 0x80] k) (byteOf [0x80, 0xE4] k) ∧
      FmNext ⟨23807, 4480, 4480⟩ (fmHists k) (byteOf [0xE4, 0x80] k) (byteOf [0x80, 0xE4] k) (fmHists (k + 1))) := by
  unfold FmNext FmFits KernelFits fmYl fmYd fmP kernelValue; decide
/-- Step 1 unwritten after a step that runs; step 0 overflowing. -/
theorem test_witness_FmRunTime : 1 < 2 ∧ Memory.get? (fmState [0xE4, 0x80, 0x80]).iqIn (2 * 1 + 1) = none ∧
    Memory.get? (fmState [0xE4, 0x80]).iqIn (2 * 1) = none ∧ 0 < 1 ∧
    Memory.get? (fmState [0xE4, 0x80]).iqIn (2 * 0) = some 0xE4 ∧ Memory.get? (fmState [0xE4, 0x80]).iqIn (2 * 0 + 1) = some 0x80 ∧
    ¬FmFits ⟨23807, 4480, 4480⟩ ({ fmState [0xE4, 0x80] with fmXdc := 0x80000000 } : State).fmHist 0xE4 0x80 := by
  unfold FmFits KernelFits fmYd fmP; decide
/-- Two pairs in two pieces of 1. -/
theorem test_witness_FmSplit :
    nextIs (exec (.fmDemod 1) (fmState [0xE4, 0x80, 0x80, 0xE4])) (fun s1 => decide (s1.halted = false) &&
      nextIs (exec (.fmDemod 1) { s1 with iqIn := memOf [0x80, 0xE4] }) fun s3 => decide (s3.halted = false)) = true ∧
    2 * (1 + 1) ≤ ref.params.nIq ∧ 1 + 1 ≤ ref.params.nFm ∧
    ∀ i, i < 2 * 1 → Memory.get? (memOf [(0x80 : Byte), 0xE4]) i = Memory.get? (memOf [(0xE4 : Byte), 0x80, 0x80, 0xE4]) (2 * 1 + i) := by
  decide +kernel
theorem test_witness_FmFrame : exec (.fmDemod 0) ref = .next (ref.takeFault 0x31 .stateUninit) ∧ 0 ≤ 0 ∧
    exec (.fmDemod 0) validState = .next { validState with status := 1 } := ⟨rfl, by decide, rfl⟩

theorem test_witness_CrcCompute : 0 + 9 ≤ ref.params.frameCap ∧ 96 + 0 ≤ ref.params.frameCap ∧
    ∀ i, 0 ≤ i → i < 0 + 9 → Memory.get? (frameState digits).frameBuf i = some (byteOf digits i) := by
  refine ⟨by decide, by decide, fun i _ => ?_⟩
  revert i; decide

/-- The nine digits with the CRC field of candidate 3 (section 6): candidates 0 to 2 do not check. -/
theorem test_witness_CrcVerify_match : LowestMatch Params.reference (byteOf (digits ++ [0xED, 0xEB])) 0 11 3 := by
  unfold LowestMatch ChecksUnder; decide +kernel
theorem test_witness_CrcVerify_nomatch : NoMatch Params.reference (byteOf (digits ++ [0x00, 0x00])) 0 11 := by
  unfold NoMatch ChecksUnder; decide +kernel
theorem test_witness_CrcVerify_bytes : 2 ≤ 11 ∧ 0 + 11 ≤ ref.params.frameCap ∧ ∀ i, i < 0 + 11 →
    Memory.get? (frameState (digits ++ [0xED, 0xEB])).frameBuf i = some (byteOf (digits ++ [0xED, 0xEB]) i) := by decide
theorem test_witness_CrcFrame : exec (.crcCompute 0 0 7) ref = .next { ref with result := 7, status := 1 } ∧
    exec (.crcVerify 0 1) ref = .next (ref.takeFault 0x41 .lenContract) := ⟨rfl, rfl⟩

/-! The frame machine -/

/-- A staged context over FRAME_BUF in a state of the machine. -/
def ctxOf (f : Fsm) (bits : List Bool) (xs : List Byte) : FrameCtx := { frameEntry (frameState xs) f bits xs.length with fsm := f }

theorem test_witness_Transitions_search : runSearch .least [] 0 Params.reference.syncPattern = none ∧
    runSearch .least Params.reference.syncPattern 0 Params.reference.syncPattern = some 0 ∧
    patternAt Params.reference.syncPattern Params.reference.syncPattern 0 = true ∧ patternAt [] Params.reference.syncPattern 5 = false ∧
    runSearch (.always 5) [] 0 Params.reference.syncPattern = some 5 := by
  decide +kernel
theorem test_witness_Transitions_type : (ctxOf .dispatchType [] frameFS).byte Params.reference 2 = .ok 0x2A ∧
    (ctxOf .dispatchType [] [0xAA, 0xAA, 0x2B, 0xD5, 0x00]).byte Params.reference 2 = .ok 0x2B := ⟨rfl, rfl⟩
/-- The header of FS gives P = 6 and L = 30, that of FD2 gives P = 5 and L = 6. -/
theorem test_witness_Transitions_header : HeaderGives (byteOf frameFS) 6 30 ∧ HeaderGives (byteOf frameD2) 5 6 ∧
    6 ≤ frameFS.length ∧ 5 ≤ frameD2.length ∧ byteOf [0xAA, 0xAA, 0x2A, 0x12] 3 ∉ ([0x55, 0xD2, 0xD5] : List Byte) ∧
    byteOf frameFS 3 ∈ ([0x55, 0xD5] : List Byte) ∧ (5 : Nat) < 6 := by unfold HeaderGives; decide
theorem test_witness_Transitions_header_bytes :
    (ctxOf .dispatchSubtype [] frameFS).byte Params.reference 3 = .ok (byteOf frameFS 3) ∧
    (ctxOf .dispatchSubtype [] frameFS).byte Params.reference 4 = .ok (byteOf frameFS 4) ∧
    (ctxOf .dispatchSubtype [] frameFS).byte Params.reference 5 = .ok (byteOf frameFS 5) ∧
    (ctxOf .dispatchSubtype [] frameD2).byte Params.reference 4 = .ok (byteOf frameD2 4) := ⟨rfl, rfl, rfl, rfl⟩
theorem test_witness_Transitions_crc : verify Params.reference (memOf frameD2) 5 6 = .ok (some (2, 0x0000)) ∧
    verify Params.reference (memOf (frameD2.set 9 0)) 5 6 = .ok none ∧
    memReadRange Params.reference.frameCap (memOf (frameD2.set 9 0)) 0 13 = .ok (frameD2.set 9 0) := by
  refine ⟨by decide +kernel, by decide +kernel, by decide +kernel⟩
theorem test_witness_Transitions_fields : fieldsOf Params.reference { ctxOf .extractingFields [] frameD2 with subtype := 0xD2 } =
    .ok .kd2 ∧ (ctxOf .emit [] frameD2).fsm = .emit := ⟨rfl, rfl⟩
theorem test_witness_MachineEnds : (ctxOf .emit [] frameD2).fsm ≠ .idle ∧
    frameRun Params.reference frameFuel (ctxOf .emit [] frameD2) =
      .ok (emitRecord (ctxOf .emit [] frameD2)) := ⟨by decide, rfl⟩
/-- FRAME.PARSE finds no tag; no subtype; no length byte of an 0xD2 and of an 0xD5 frame. -/
theorem test_witness_ParseReads_header : Memory.get? (frameState [0xAA, 0xAA]).frameBuf 2 = none ∧
    Memory.get? (frameState [0xAA, 0xAA, 0x2A]).frameBuf 2 = some 0x2A ∧
    Memory.get? (frameState [0xAA, 0xAA, 0x2A]).frameBuf 3 = none ∧
    Memory.get? (frameState [0xAA, 0xAA, 0x2A, 0xD2]).frameBuf 3 = some 0xD2 ∧
    Memory.get? (frameState [0xAA, 0xAA, 0x2A, 0xD2]).frameBuf 4 = none ∧
    Memory.get? (frameState [0xAA, 0xAA, 0x2A, 0xD5, 0x00]).frameBuf 5 = none ∧ 5 ≤ 6 ∧ 6 ≤ ref.params.frameCap := by decide
/-- The last CRC byte of FS, unwritten; in FBAD, byte 0, which only DIAG reads. -/
theorem test_witness_ParseReads_payload : 38 ≤ ref.params.frameCap ∧ HeaderGives (byteOf frameFS) 6 30 ∧
    (∀ i, i < 6 → 2 ≤ i → Memory.get? (frameState (frameFS.take 35)).frameBuf i = some (byteOf frameFS i)) ∧
    Memory.get? (frameState (frameFS.take 35)).frameBuf 35 = none ∧ 35 < 6 + 30 ∧
    (∀ i, i < 36 → 2 ≤ i → Memory.get? ((frameState (frameFS.set 34 0x2F)).frameBuf.drop 2) i =
      some (byteOf (frameFS.set 34 0x2F) i)) ∧
    Memory.get? ((frameState (frameFS.set 34 0x2F)).frameBuf.drop 2) 0 = none ∧ ref.params.diagEnable = true := by
  unfold HeaderGives; decide +kernel
/-- F55s, 40 bytes of which only 12 are written: byte 12 of its first field is unwritten. With 12 bytes that field is out
of bounds; with 8 more written ones and a length of 20 its third field is. -/
theorem test_witness_ParseReads_fields : fieldReads 0x55 4 = [] ++ (7, 6) :: [(13, 6), (20, 4), (26, 4)] ∧
    Memory.get? (frameState frame55s).frameBuf 12 = none ∧ 7 ≤ 12 ∧ 12 < 7 + 6 ∧ 7 + 6 ≤ 40 ∧ 12 < 7 + 6 ∧
    fieldReads 0x55 4 = [(7, 6), (13, 6)] ++ (20, 4) :: [(26, 4)] ∧ 20 < 20 + 4 ∧
    (∀ f ∈ [((7 : Nat), (6 : Nat)), (13, 6)], f.1 + f.2 ≤ 20 ∧ ∀ i, i < f.1 + f.2 → f.1 ≤ i →
      Memory.get? (frameState (frame55s ++ List.replicate 8 0)).frameBuf i ≠ none) := by decide +kernel
theorem test_witness_ShortFrame : 4 < 5 ∧ 4 ≤ ref.params.frameCap := by decide

/-- A length of 5 for a wrong type tag, an unknown subtype, a 2-byte length not there; L = 1; one byte too few (FS cut
at 37). -/
theorem test_witness_ParseAborts : byteOf [0xAA, 0xAA, 0x2B, 0xD5, 0x00] 2 ≠ 0x2A ∧
    byteOf [0xAA, 0xAA, 0x2A, 0x12] 3 ∉ ([0x55, 0xD2, 0xD5] : List Byte) ∧
    (byteOf [0xAA, 0xAA, 0x2A, 0xD5, 0x00] 3 ∈ ([0x55, 0xD5] : List Byte) ∧ 5 < 6) ∧
    (HeaderGives (byteOf [0xAA, 0xAA, 0x2A, 0xD2, 0x01]) 5 1 ∧ 5 ≤ 5 ∧ 1 < 2) ∧
    (HeaderGives (byteOf frameFS) 6 30 ∧ 6 ≤ 37 ∧ 37 < 6 + 30 + 2) ∧ 5 ≤ ref.params.frameCap ∧ 37 ≤ ref.params.frameCap := by
  unfold HeaderGives; decide
theorem test_witness_ParseAborts_bytes : (∀ i, i < 5 → 2 ≤ i →
      Memory.get? (frameState [0xAA, 0xAA, 0x2A, 0xD2, 0x01]).frameBuf i = some (byteOf [0xAA, 0xAA, 0x2A, 0xD2, 0x01] i)) ∧
    (∀ i, i < 6 → 2 ≤ i → Memory.get? (frameState frameFS).frameBuf i = some (byteOf frameFS i)) := by decide

/-- FBAD of section 7: byte 34 changed. -/
theorem test_witness_ParseFailsMic : 38 ≤ ref.params.frameCap ∧ byteOf (frameFS.set 34 0x2F) 2 = 0x2A ∧
    HeaderGives (byteOf (frameFS.set 34 0x2F)) 6 30 ∧ 2 ≤ 30 ∧ 6 + 30 + 2 ≤ 38 ∧
    NoMatch Params.reference (byteOf (frameFS.set 34 0x2F)) 6 30 ∧
    ∀ i, i < 38 → Memory.get? (frameState (frameFS.set 34 0x2F)).frameBuf i = some (byteOf (frameFS.set 34 0x2F) i) := by
  unfold HeaderGives NoMatch ChecksUnder; decide +kernel
theorem test_witness_ParseFieldBeyond : 12 ≤ ref.params.frameCap ∧ byteOf frame55s 2 = 0x2A ∧ HeaderGives (byteOf frame55s) 6 4 ∧
    2 ≤ 4 ∧ 6 + 4 + 2 ≤ 12 ∧ 12 < 30 ∧ LowestMatch Params.reference (byteOf frame55s) 6 4 1 ∧
    ∀ i, i < 12 → Memory.get? (frameState frame55s).frameBuf i = some (byteOf frame55s i) := by
  unfold HeaderGives LowestMatch ChecksUnder; decide +kernel
theorem test_witness_ParseK55 : 40 ≤ ref.params.frameCap ∧ 30 ≤ 40 ∧ byteOf frame55 2 = 0x2A ∧ byteOf frame55 3 = 0x55 ∧
    32 = 256 * (byteOf frame55 4).toNat + (byteOf frame55 5).toNat ∧ 2 ≤ 32 ∧ 6 + 32 + 2 ≤ 40 ∧
    LowestMatch Params.reference (byteOf frame55) 6 32 0 ∧
    ∀ i, i < 40 → Memory.get? (frameState frame55).frameBuf i = some (byteOf frame55 i) := by
  unfold LowestMatch ChecksUnder; decide +kernel
theorem test_witness_ParseKD2 : 13 ≤ ref.params.frameCap ∧ byteOf frameD2 2 = 0x2A ∧ byteOf frameD2 3 = 0xD2 ∧
    6 = (byteOf frameD2 4).toNat ∧ 2 ≤ 6 ∧ 5 + 6 + 2 ≤ 13 ∧ LowestMatch Params.reference (byteOf frameD2) 5 6 2 ∧
    ∀ i, i < 13 → Memory.get? (frameState frameD2).frameBuf i = some (byteOf frameD2 i) := by
  unfold LowestMatch ChecksUnder; decide +kernel
theorem test_witness_ParseKD5S : 38 ≤ ref.params.frameCap ∧ byteOf frameFS 2 = 0x2A ∧ byteOf frameFS 3 = 0xD5 ∧
    30 = 256 * (byteOf frameFS 4).toNat + (byteOf frameFS 5).toNat ∧ 6 + 30 + 2 ≤ 38 ∧
    LowestMatch Params.reference (byteOf frameFS) 6 30 3 ∧
    ∀ i, i < 38 → Memory.get? (frameState frameFS).frameBuf i = some (byteOf frameFS i) := by
  unfold LowestMatch ChecksUnder; decide +kernel
theorem test_witness_ParseKD5L : 79 ≤ ref.params.frameCap ∧ byteOf frameFL 2 = 0x2A ∧ byteOf frameFL 3 = 0xD5 ∧
    0x47 = 256 * (byteOf frameFL 4).toNat + (byteOf frameFL 5).toNat ∧ 6 + 0x47 + 2 ≤ 79 ∧
    LowestMatch Params.reference (byteOf frameFL) 6 0x47 5 ∧
    ∀ i, i < 79 → Memory.get? (frameState frameFL).frameBuf i = some (byteOf frameFL i) := by
  unfold LowestMatch ChecksUnder; decide +kernel

/-- The bits of section 8's first row extract to FS from position 7. -/
theorem test_witness_Extracts : Extracts (bitState bitsFS) bitsFS 7 frameFS := by
  refine ⟨by decide +kernel, ?_, by decide +kernel, by decide +kernel, by decide +kernel, by decide +kernel⟩
  have h : ∀ j, j < 392 → Memory.get? (bitState bitsFS).bitIn j = bitsFS[j]? := by decide +kernel
  intro j hj
  have hl : bitsFS.length = 392 := by decide +kernel
  rw [h j (by omega), List.getElem?_eq_getElem hj]
theorem test_witness_ValidFrame : ValidFrame Params.reference (fun i => frameFS.getD i 0) (min 38 96) 3
    (.kd5s #v[0xDE, 0xAD, 0xBE, 0xEF] #v[0x12, 0x34, 0x56, 0x78]) := by
  refine ⟨by decide, by decide, 6, 30, ?_⟩
  unfold HeaderGives LowestMatch ChecksUnder RecordOf; decide +kernel

/-- The sync pattern (the bits of two characters AA) and 29 bits more, 49 in all: FRAME.DECODE meets both hypotheses of
its clause of ShortFrameFailsSanity, with the two bytes of the pattern; the third character has a bad start bit. -/
def bitsShort : List Bool := [0xAA, 0xAA].flatMap charBits ++ List.replicate 29 true
theorem test_witness_ShortFrame_decode : Extracts (bitState bitsShort) bitsShort 0 [0xAA, 0xAA] ∧
    5 ≤ (bitState bitsShort).params.frameCap ∧ [(0xAA : Byte), 0xAA].length < 5 ∧
    bitsShort.length - (0 + (bitState bitsShort).params.syncExtractOffset) = 49 := by
  refine ⟨⟨by decide +kernel, ?_, by decide +kernel, by decide +kernel, by decide +kernel, by decide +kernel⟩,
    by decide +kernel, by decide, by decide +kernel⟩
  have h : ∀ j, j < 49 → Memory.get? (bitState bitsShort).bitIn j = bitsShort[j]? := by decide +kernel
  intro j hj
  have hl : bitsShort.length = 49 := by decide +kernel
  rw [h j (by omega), List.getElem?_eq_getElem hj]

/-- Ten bits per byte: 49 bits of well-framed characters hold four bytes, 50 hold five (R108). -/
theorem test_extract_50_bits : (uart8n1 (List.flatMap charBits [1, 2, 3, 4, 5]) 0 49).length = 4 ∧
    uart8n1 (List.flatMap charBits [1, 2, 3, 4, 5]) 0 50 = [1, 2, 3, 4, 5] := by decide +kernel

/-- The bits of F55s, which extract to it from position 0. -/
def bits55s : List Bool := frame55s.flatMap charBits

/-- What DecodeRefinesParse starts from: FS parses to a next state that is not halted. -/
theorem test_witness_DecodeRefines :
    nextIs (exec (.frameParse 38) { bitState bitsFS with frameBuf := Memory.setRange (bitState bitsFS).frameBuf 0 (frameFS.take 96) })
      (fun u => decide (u.halted = false)) = true ∧ (bitState bitsFS).halted = false := by decide +kernel
/-- Its other clause: F55s parses to fault entry. -/
theorem test_witness_DecodeRefines_fault : Extracts (bitState bits55s) bits55s 0 frame55s ∧
    nextIs (exec (.frameParse 12) { bitState bits55s with frameBuf := Memory.setRange (bitState bits55s).frameBuf 0 (frame55s.take 96) })
      (fun u => decide (u = ({ bitState bits55s with frameBuf := Memory.setRange (bitState bits55s).frameBuf 0 (frame55s.take 96) } :
        State).takeFault 0x51 .fieldBounds)) = true := by
  refine ⟨⟨by decide +kernel, ?_, by decide +kernel, by decide +kernel, by decide +kernel, by decide +kernel⟩, ?_⟩
  · have h : ∀ j, j < 120 → Memory.get? (bitState bits55s).bitIn j = bits55s[j]? := by decide +kernel
    intro j hj
    have hl : bits55s.length = 120 := by decide +kernel
    rw [h j (by omega), List.getElem?_eq_getElem hj]
  · decide +kernel

/-- 20 ones: the reference SEARCH finds nothing, and a SEARCH that always answers 5 breaks its contract. -/
theorem test_witness_DecodeWithoutSync : 20 ≤ ref.params.nBits ∧
    (∀ j (h : j < (List.replicate 20 true).length), Memory.get? (bitState (List.replicate 20 true)).bitIn j =
      some (List.replicate 20 true)[j]) ∧
    runSearch .least (List.replicate 20 true) 0 ref.params.syncPattern = none ∧
    runSearch (.always 5) (List.replicate 20 true) 0 ref.params.syncPattern = some 5 ∧
    ¬(5 + ref.params.syncPattern.length ≤ (List.replicate 20 true).length ∧
      (((List.replicate 20 true).drop 5).take ref.params.syncPattern.length = ref.params.syncPattern)) := by decide +kernel
theorem test_witness_FrameIndependent : ref.halted = false ∧ validState.halted = false ∧ ref.params = validState.params ∧
    ref.frameBuf = validState.frameBuf ∧
    exec (.frameParse 4) ref = .next { ref with flen := 4, fsm := .failSanity, status := 4 } ∧
    exec (.frameParse 4) validState = .next { validState with flen := 4, fsm := .failSanity, status := 4 } :=
  ⟨rfl, rfl, rfl, rfl, rfl, rfl⟩
/-- The same two blocks on FRAME.DECODE. -/
theorem test_witness_FrameIndependent_decode : ref.bitIn = validState.bitIn ∧
    exec (.frameDecode 0) ref = .next { ref with flen := 0, fsm := .noSync, status := 6 } ∧
    exec (.frameDecode 0) validState = .next { validState with flen := 0, fsm := .noSync, status := 6 } :=
  ⟨rfl, rfl, rfl⟩
theorem test_witness_FrameFrame : ref.params.frameCap < 2 ^ 32 ∧ 4 ≤ 95 ∧
    exec (.frameDecode 0) ref = .next { ref with flen := 0, fsm := .noSync, status := 6 } := by
  refine ⟨by decide, by decide, rfl⟩

/-! The whole machine -/

/-- A state with a frame in FRAME_BUF and a command pending: it meets the invariant, and it steps. -/
def busyState : State := { frameState frameD2 with port := [.command ⟨0x20, 0, 0, 0⟩] }

theorem test_witness_Invariant : busyState.Inv := by
  have hm : Memory.ok 96 busyState.frameBuf := by decide
  have he : ∀ (α : Type) (n : Nat), Memory.ok n ([] : Memory α) :=
    fun _ _ => ⟨List.Pairwise.nil, fun _ h => absurd h List.not_mem_nil⟩
  exact ⟨he _ _, he _ _, he _ _, he _ _, he _ _, hm, fun _ h => absurd h List.not_mem_nil, by decide, rfl, by decide,
    ⟨.none, false, rfl⟩, .inl rfl, by decide, .inr rfl, by decide, by decide⟩
theorem test_witness_Step : step busyState = .next { busyState with port := [], lpfValid := true, status := 1 } := rfl
theorem test_witness_Out_reset : step (haltedWith .reset) = .next { (haltedWith .reset).applyReset with port := [] } := rfl
theorem test_witness_Flags : exec .lpfReset ref = .next { ref with lpfValid := true, status := 1 } ∧
    exec .lpfReset { ref with status := 5, fault := 0, result := 1, flen := 2, crcIdx := 3, fsm := .success, recValid := true,
                              record := .kd2, out := [.emit .kd2] } =
      .next { ref with lpfValid := true, status := 1, fault := 0, result := 1, flen := 2, crcIdx := 3, fsm := .success,
                       recValid := true, record := .kd2, out := [.emit .kd2] } := ⟨rfl, rfl⟩

end Sys2Proof.Tests
end

section
/-! What an instruction and a step can do, said once: an instruction is its commit or fault entry (10_state.md R16,
60_exceptions.md R117), a step is one of five moves of the host (70_reset_and_hazards.md R136). -/

namespace Sys2Proof.Machine

open Sys2Proof

/-- The commit of an instruction, or the fault it raises: what its arm of exec hands to `finish`. -/
def commitOf : Instr → State → Except FaultReason State
  | .envDetect d n => envDetect d n
  | .lpfReset => lpfReset
  | .lpfFilter len => lpfFilter len
  | .fmReset => fmReset
  | .fmDemod n => fmDemod n
  | .crcCompute off len init => crcCompute off len init
  | .crcVerify off len => crcVerify off len
  | .frameDecode nbits => frameDecode nbits
  | .frameParse nbytes => frameParse nbytes

theorem exec_eq_finish (i : Instr) (s : State) : exec i s = finish i.opc s (commitOf i s) := by
  cases i <;> rfl

/-- An instruction ends in its commit or in fault entry with its own opcode. -/
theorem exec_next_iff {i : Instr} {s t : State} :
    exec i s = .next t ↔ commitOf i s = .ok t ∨ ∃ r, commitOf i s = .error r ∧ t = s.takeFault i.opc r := by
  rw [exec_eq_finish, finish_next_iff]

theorem lpfReset_ok_iff {s t : State} :
    lpfReset s = .ok t ↔ t = ({ s with lpfXp := 0, lpfYp := 0, lpfValid := true } : State).markDone := by
  rw [lpfReset, ok_eq_ok_iff]

theorem fmReset_ok_iff {s t : State} :
    fmReset s = .ok t ↔ t = ({ s.setFmHist ⟨0, 0, 0, 0, 0⟩ with fmValid := true } : State).markDone := by
  rw [fmReset, ok_eq_ok_iff]

theorem hostOutcome_next_iff {r : Except Fault State} {t : State} : hostOutcome r = .next t ↔ r = .ok t := by
  cases r <;> simp [hostOutcome]

/-- The state is as before; or one of the host's moves was taken off the port and run on the state without it: a command
that a halted block ignores, one with an illegal word or one that executes, a reset, a host write or a host read. -/
inductive StepTo (s t : State) : Prop
  | idle (hp : s.port = []) (ht : t = s)
  | ignored (c : Command) (rest : List HostMove) (hp : s.port = .command c :: rest) (hh : s.halted = true)
      (ht : t = { s with port := rest })
  | illegal (c : Command) (rest : List HostMove) (hp : s.port = .command c :: rest) (hh : s.halted = false)
      (ht : t = ({ s with port := rest } : State).takeFault c.opc .illegalCmd)
  | executed (c : Command) (i : Instr) (rest : List HostMove) (hp : s.port = .command c :: rest)
      (hh : s.halted = false) (he : exec i { s with port := rest } = .next t)
  | reset (rest : List HostMove) (hp : s.port = .reset :: rest) (ht : t = ({ s with port := rest } : State).applyReset)
  | write (w : HostWrite) (rest : List HostMove) (hp : s.port = .write w :: rest)
      (hw : hostWrite w { s with port := rest } = .ok t)
  | read (r : HostRead) (v : HostValue) (rest : List HostMove) (hp : s.port = .read r :: rest)
      (ht : t = { s with port := rest, lastRead := some v })

/-- Everything a step can do. -/
theorem stepTo_of_step {s t : State} (h : step s = .next t) : StepTo s t := by
  match hp : s.port with
  | [] => exact .idle hp (by simpa [step, runPort, hp] using h.symm)
  | m :: rest =>
    rw [step_of_port hp] at h
    cases m with
    | command c =>
      simp only [runMove, issue] at h
      split at h
      case isTrue hh => exact .ignored c rest hp hh (by simpa using h.symm)
      case isFalse hh =>
        have hh : s.halted = false := Bool.eq_false_iff.2 hh
        split at h
        next => exact .illegal c rest hp hh (by simpa using h.symm)
        next i _ => exact .executed c i rest hp hh h
    | reset => exact .reset rest hp (by simpa [runMove] using h.symm)
    | write w => exact .write w rest hp (hostOutcome_next_iff.1 h)
    | read r =>
      obtain ⟨v, -, ht⟩ := hostReadMove_ok_iff.1 (hostOutcome_next_iff.1 h)
      exact .read r v rest hp ht

/-- A committed instruction changes no parameter, and appends at most one event to OUT (R21, R33). -/
theorem commitOf_params_out {i : Instr} {s t : State} (h : commitOf i s = .ok t) :
    t.params = s.params ∧ ∃ ev : Option OutEvent, t.out = s.out ++ ev.toList := by
  cases i with
  | envDetect d n => obtain ⟨-, es, -, rfl⟩ := envDetect_ok_iff.1 h; exact ⟨rfl, none, by simp⟩
  | lpfReset => obtain rfl := lpfReset_ok_iff.1 h; exact ⟨rfl, none, by simp⟩
  | lpfFilter len => obtain ⟨-, ys, h', -, rfl⟩ := lpfFilter_ok_iff.1 h; exact ⟨rfl, none, by simp⟩
  | fmReset => obtain rfl := fmReset_ok_iff.1 h; exact ⟨rfl, none, by simp⟩
  | fmDemod n => obtain ⟨-, os, h', -, rfl⟩ := fmDemod_ok_iff.1 h; exact ⟨rfl, none, by simp⟩
  | crcCompute off len init => obtain ⟨-, bs, -, rfl⟩ := crcCompute_ok_iff.1 h; exact ⟨rfl, none, by simp⟩
  | crcVerify off len => obtain ⟨-, r, -, rfl⟩ := crcVerify_ok_iff.1 h; exact ⟨rfl, none, by simp⟩
  | frameDecode nbits => obtain ⟨-, bits, c, -, -, rfl⟩ := frameDecode_ok_iff.1 h; exact ⟨rfl, c.ev, rfl⟩
  | frameParse nbytes => obtain ⟨-, c, -, rfl⟩ := frameParse_ok_iff.1 h; exact ⟨rfl, c.ev, rfl⟩

/-- The same of an instruction however it ends. -/
theorem exec_params_out {i : Instr} {s t : State} (h : exec i s = .next t) :
    t.params = s.params ∧ ∃ ev : Option OutEvent, t.out = s.out ++ ev.toList := by
  rcases exec_next_iff.1 h with h | ⟨r, -, rfl⟩
  · exact commitOf_params_out h
  · exact ⟨rfl, none, by simp⟩

theorem hostWrite_params_out {w : HostWrite} {s t : State} (h : hostWrite w s = .ok t) :
    t.params = s.params ∧ t.out = s.out := by
  rw [hostWrite_frame h]; exact ⟨rfl, rfl⟩

/-- Settles O59: no move changes a parameter, the reset included. -/
theorem parametersNeverChange : Obligations.ParametersNeverChange := by
  intro s t h
  cases stepTo_of_step h with
  | executed c i rest hp hh he => exact (exec_params_out he).1
  | write w rest hp hw => exact (hostWrite_params_out hw).1
  | idle _ ht | ignored _ _ _ _ ht | illegal _ _ _ _ ht | reset _ _ ht | read _ _ _ _ ht => subst ht; rfl

/-- Settles O58: only an instruction that executes appends, and it appends the event its commit holds, if any. -/
theorem outIsAppendOnly : Obligations.OutIsAppendOnly := by
  intro s t h
  have kept (ht : t.out = s.out) : ∃ evs : List OutEvent, evs.length ≤ 1 ∧ t.out = s.out ++ evs ∧
      (evs ≠ [] → ∃ c rest, s.port = .command c :: rest) := ⟨[], by simp, by simp [ht], fun h => absurd rfl h⟩
  cases stepTo_of_step h with
  | executed c i rest hp hh he =>
    obtain ⟨-, ev, ho⟩ := exec_params_out he
    exact .inl ⟨ev.toList, by cases ev <;> simp, ho, fun _ => ⟨c, rest, hp⟩⟩
  | reset rest hp ht => exact .inr ⟨by rw [ht]; rfl, rest, hp⟩
  | write w rest hp hw => exact .inl (kept (hostWrite_params_out hw).2)
  | idle _ ht | ignored _ _ _ _ ht | illegal _ _ _ _ ht | read _ _ _ _ ht => exact .inl (kept (by subst ht; rfl))

end Sys2Proof.Machine
end

section
/-! The frame machine between its entry and its end (45_frame_decoder.md R94 to R109): which transition leads where and
what it may touch, that it comes to rest within its fuel, and what every transition keeps of the staged context. -/

namespace Sys2Proof.Machine

open Sys2Proof

/-- The CRC_IDX values of R29. -/
def crcIdxInTable (k : Byte) : Prop := k.toNat ≤ 7 ∨ k = 0xFF

/-- The value CRC.VERIFY and ValidatingCrc stage for CRC_IDX is one of R29. -/
theorem verify_crcIdxInTable {p : Params} {b : Memory Byte} {off len : Nat} {r : Option (Nat × Half)}
    (h : verify p b off len = .ok r) : crcIdxInTable (crcIdxOf r) := by
  match r with
  | none => exact .inr rfl
  | some (k, v) =>
    have hk := verify_index h
    exact .inl (by simp only [crcIdxOf, BitVec.toNat_ofNat]; omega)

/-- One transition of R94 seen from outside: which fields of the context it may touch, and the states it may go to. -/
inductive FrameMove (p : Params) (c : FrameCtx) : FrameCtx → Prop
  | rest (hf : c.fsm.atRest = true) : FrameMove p c c
  | notFound (hf : c.fsm = .searchingPreamble) : FrameMove p c { c with n := 0, fsm := .noSync }
  | found (hf : c.fsm = .searchingPreamble) (pos : Nat) : FrameMove p c { c with pos := pos, fsm := .extractingBytes }
  | extract (hf : c.fsm = .extractingBytes) (trunc : Bool) (n : Nat) (buf : Memory Byte) (f : Fsm)
      (hn : n ≤ p.frameCap) (hb : Memory.ok p.frameCap c.buf → Memory.ok p.frameCap buf)
      (hto : f = .failSanity ∨ f = .dispatchType) :
      FrameMove p c { c with trunc := trunc, n := n, buf := buf, fsm := f }
  | type (hf : c.fsm = .dispatchType) (f : Fsm) (hto : f = .dispatchSubtype ∨ f = .abortLength) :
      FrameMove p c { c with fsm := f }
  | subtype (hf : c.fsm = .dispatchSubtype) (t : Byte) (payload len : Nat) (f : Fsm)
      (hto : f = .validatingCrc ∨ f = .abortLength) :
      FrameMove p c { c with subtype := t, payload := payload, len := len, fsm := f }
  | crc (hf : c.fsm = .validatingCrc) (k : Byte) (ev : Option OutEvent) (f : Fsm) (hk : crcIdxInTable k)
      (hto : f = .extractingFields ∨ f = .failMic) : FrameMove p c { c with crcIdx := k, ev := ev, fsm := f }
  | fields (hf : c.fsm = .extractingFields) (r : Record) : FrameMove p c { c with record := r, fsm := .emit }
  | emit (hf : c.fsm = .emit) :
      FrameMove p c { c with recValid := true, ev := some (.emit c.record), fsm := .success }

/-- The sanity check goes to FailSanity or DispatchType (R97). -/
theorem sanityCheck_fsm (c : FrameCtx) : (sanityCheck c).fsm = .failSanity ∨ (sanityCheck c).fsm = .dispatchType := by
  simp only [sanityCheck]; split <;> simp

theorem frameMove_extractingBytes {p : Params} {c : FrameCtx} (hf : c.fsm = .extractingBytes) :
    FrameMove p c (extractingBytes p c) :=
  .extract hf _ _ _ _ (Nat.min_le_right _ _)
    (fun hb => Memory.ok_setRange hb (by rw [Nat.zero_add, List.length_take]; exact Nat.min_le_left _ _))
    (sanityCheck_fsm _)

theorem frameMove_lengthGate {p : Params} {c : FrameCtx} (hf : c.fsm = .dispatchSubtype) (t : Byte) (payload len : Nat) :
    FrameMove p c (lengthGate { c with subtype := t, payload := payload, len := len }) :=
  .subtype hf t payload len _ (by split <;> simp)

theorem frameMove_dispatchSubtype {p : Params} {c c' : FrameCtx} (hf : c.fsm = .dispatchSubtype)
    (h : dispatchSubtype p c = .ok c') : FrameMove p c c' := by
  obtain ⟨t, -, ⟨-, -, rfl⟩ | ⟨-, -, field, -, rfl⟩ | ⟨-, b, -, rfl⟩ | ⟨-, -, -, rfl⟩⟩ := dispatchSubtype_ok_iff.1 h
  · exact .subtype hf t 6 c.len _ (.inr rfl)
  · exact frameMove_lengthGate hf t 6 (be field)
  · exact frameMove_lengthGate hf t 5 b.toNat
  · exact .subtype hf t c.payload c.len _ (.inr rfl)

theorem frameMove_validatingCrc {p : Params} {c c' : FrameCtx} (hf : c.fsm = .validatingCrc)
    (h : validatingCrc p c = .ok c') : FrameMove p c c' := by
  obtain ⟨r, hv, ⟨k, v, -, rfl⟩ | ⟨rfl, -, rfl⟩ | ⟨rfl, -, bs, -, rfl⟩⟩ := validatingCrc_ok_iff.1 h
  · exact .crc hf _ c.ev _ (verify_crcIdxInTable hv) (.inl rfl)
  · exact .crc hf _ c.ev _ (verify_crcIdxInTable hv) (.inr rfl)
  · exact .crc hf _ _ _ (verify_crcIdxInTable hv) (.inr rfl)

theorem frameMove_of_frameStep {p : Params} {c c' : FrameCtx} (h : frameStep p c = .ok c') : FrameMove p c c' := by
  rcases frameStep_ok h with ⟨hf, h⟩ | ⟨hf, rfl⟩ | ⟨hf, h⟩ | ⟨hf, h⟩ | ⟨hf, h⟩ | ⟨hf, h⟩ | ⟨hf, rfl⟩ | ⟨hf, rfl⟩
  · obtain ⟨-, rfl⟩ | ⟨pos, -, -, rfl⟩ := searchingPreamble_ok_iff.1 h
    · exact .notFound hf
    · exact .found hf pos
  · exact frameMove_extractingBytes hf
  · obtain ⟨tag, -, rfl⟩ := dispatchType_ok_iff.1 h
    exact .type hf _ (by split <;> simp)
  · exact frameMove_dispatchSubtype hf h
  · exact frameMove_validatingCrc hf h
  · obtain ⟨r, -, rfl⟩ := extractingFields_ok_iff.1 h
    exact .fields hf r
  · exact .emit hf
  · exact .rest hf

/-- The most transitions a machine can still make (R94). -/
def Fsm.movesLeft : Fsm → Nat
  | .searchingPreamble => 7
  | .extractingBytes => 6
  | .dispatchType => 5
  | .dispatchSubtype => 4
  | .validatingCrc => 3
  | .extractingFields => 2
  | .emit => 1
  | .idle | .success | .abortLength | .failSanity | .failMic | .noSync => 0

theorem Fsm.atRest_iff_movesLeft {f : Fsm} : f.atRest = true ↔ f.movesLeft = 0 := by cases f <;> decide

theorem Fsm.movesLeft_le (f : Fsm) : f.movesLeft ≤ frameFuel := by cases f <;> decide

theorem FrameMove.movesLeft_lt {p : Params} {c c' : FrameCtx} (h : FrameMove p c c') (hr : c.fsm.atRest = false) :
    c'.fsm.movesLeft < c.fsm.movesLeft := by
  cases h with
  | rest hf => rw [hr] at hf; cases hf
  | notFound hf | found hf | fields hf | emit hf => simp [hf, Fsm.movesLeft]
  | extract hf _ _ _ _ _ _ hto | type hf _ hto | subtype hf _ _ _ _ hto | crc hf _ _ _ _ hto =>
    rcases hto with rfl | rfl <;> simp [hf, Fsm.movesLeft]

/-- With fuel for the moves left, a run ends at rest. -/
theorem frameRun_movesLeft {p : Params} {n : Nat} {c c' : FrameCtx} (hn : c.fsm.movesLeft ≤ n)
    (h : frameRun p n c = .ok c') : c'.fsm.atRest = true := by
  induction n generalizing c with
  | zero => cases h; exact Fsm.atRest_iff_movesLeft.2 (Nat.le_zero.1 hn)
  | succ n ih =>
    cases hr : c.fsm.atRest with
    | true => rw [frameRun_atRest hr] at h; cases h; exact hr
    | false =>
      rw [frameRun_succ hr, bind_ok_iff] at h
      obtain ⟨d, hd, h⟩ := h
      have := (frameMove_of_frameStep hd).movesLeft_lt hr
      exact ih (by omega) h

/-- The fuel of a FRAME command is enough: its machine ends at rest. -/
theorem frameRun_frameFuel {p : Params} {c c' : FrameCtx} (h : frameRun p frameFuel c = .ok c') : c'.fsm.atRest = true :=
  frameRun_movesLeft c.fsm.movesLeft_le h

/-- What every transition keeps of the staged context: B in order and inside FRAME_CAP, n at most FRAME_CAP, REC_VALID
exactly in Success, and CRC_IDX a value of R29. -/
structure FrameCtx.Inv (p : Params) (c : FrameCtx) : Prop where
  buf : Memory.ok p.frameCap c.buf
  count : c.n ≤ p.frameCap
  recSuccess : c.recValid = true ↔ c.fsm = .success
  crcIndex : crcIdxInTable c.crcIdx

/-- A transition that neither starts nor ends in Success keeps the clause on REC_VALID. -/
theorem FrameCtx.Inv.of_inner {p : Params} {c c' : FrameCtx} (h : c.Inv p) (hc : c.fsm ≠ .success)
    (hv : c'.recValid = c.recValid) (hto : c'.fsm ≠ .success) (hb : Memory.ok p.frameCap c'.buf)
    (hn : c'.n ≤ p.frameCap) (hk : crcIdxInTable c'.crcIdx) : c'.Inv p :=
  ⟨hb, hn, iff_of_false (fun e => hc (h.recSuccess.1 (hv ▸ e))) hto, hk⟩

theorem FrameMove.keeps_inv {p : Params} {c c' : FrameCtx} (hm : FrameMove p c c') (h : c.Inv p) : c'.Inv p := by
  cases hm with
  | rest => exact h
  | notFound hf => exact h.of_inner (by simp [hf]) rfl nofun h.buf (Nat.zero_le _) h.crcIndex
  | found hf | fields hf => exact h.of_inner (by simp [hf]) rfl nofun h.buf h.count h.crcIndex
  | extract hf trunc n buf f hn hb hto =>
    exact h.of_inner (by simp [hf]) rfl (by rcases hto with rfl | rfl <;> nofun) (hb h.buf) hn h.crcIndex
  | type hf f hto | subtype hf _ _ _ f hto =>
    exact h.of_inner (by simp [hf]) rfl (by rcases hto with rfl | rfl <;> nofun) h.buf h.count h.crcIndex
  | crc hf k ev f hk hto =>
    exact h.of_inner (by simp [hf]) rfl (by rcases hto with rfl | rfl <;> nofun) h.buf h.count hk
  | emit => exact ⟨h.buf, h.count, iff_of_true rfl rfl, h.crcIndex⟩

theorem frameRun_keeps_inv {p : Params} {n : Nat} {c c' : FrameCtx} (h : c.Inv p) (hr : frameRun p n c = .ok c') :
    c'.Inv p :=
  frameRun_keeps (FrameCtx.Inv p) (fun _ _ h hs => (frameMove_of_frameStep hs).keeps_inv h) h hr

/-- A FRAME command begins its machine with a context that meets the invariant. -/
theorem frameEntry_inv {s : State} {f : Fsm} {bits : List Bool} {n : Nat} (hb : Memory.ok s.params.frameCap s.frameBuf)
    (hn : n ≤ s.params.frameCap) (hf : f ≠ .success) : (frameEntry s f bits n).Inv s.params :=
  ⟨hb, hn, iff_of_false nofun hf, .inr rfl⟩

theorem sanityCheck_inv {p : Params} {c : FrameCtx} (h : c.Inv p) (hc : c.fsm ≠ .success) : (sanityCheck c).Inv p :=
  h.of_inner hc rfl (by rcases sanityCheck_fsm c with e | e <;> rw [e] <;> nofun) h.buf h.count h.crcIndex

end Sys2Proof.Machine
end

section
/-! The invariant of a state between steps (10_state.md R22 to R32): it holds after reset, and every move of the host
keeps it. -/

namespace Sys2Proof.Machine

open Sys2Proof

/-! Reset -/

theorem Memory.ok_nil {α : Type} (size : Nat) : Memory.ok size ([] : Memory α) := ⟨.nil, nofun⟩

/-- Reset gives the invariant whatever the state and the parameters were. -/
theorem State.applyReset_inv (s : State) : s.applyReset.Inv where
  iqIn := Memory.ok_nil _
  envOut := Memory.ok_nil _
  lpfOut := Memory.ok_nil _
  fmOut := Memory.ok_nil _
  bitIn := Memory.ok_nil _
  frameBuf := Memory.ok_nil _
  fmRange := nofun
  flenCap := Nat.zero_le _
  fsmRest := rfl
  recSuccess := iff_of_false nofun nofun
  statusForm := ⟨.none, false, rfl⟩
  faultForm := .inl rfl
  haltedStatus := iff_of_false nofun nofun
  crcIndex := .inr rfl
  fmArRange := by rw [State.applyReset_fmAr]; decide
  fmAiRange := by rw [State.applyReset_fmAi]; decide

/-- Settles O56: the state after reset is the reset of itself. -/
theorem resetMeetsInvariant : Obligations.ResetMeetsInvariant := State.reset.applyReset_inv

theorem sqRom_toNat (i : Byte) : ((sqRom i).toNat : Int) = (127 - (i.toNat : Int)) ^ 2 := by
  have hb : (127 - (i.toNat : Int)) ^ 2 ≤ 128 ^ 2 := sq_le_sq' (by omega) (by omega)
  have h0 : 0 ≤ (127 - (i.toNat : Int)) ^ 2 := sq_nonneg _
  simp only [sqRom, envCenter, BitVec.toNat_ofNat]
  omega

/-- A host read of an element that nothing has written stops (R49). -/
theorem hostGet_nil {α : Type} {size i : Nat} (h : i < size) (val : α → HostValue) :
    hostGet size ([] : Memory α) i val = .error .hostReadUnwritten := if_neg (Nat.not_le.2 h)

/-- Settles O10: the registers by evaluation, the square ROM and the memories by their lemmas. -/
theorem resetValuesAsRead : Obligations.ResetValuesAsRead := by
  refine ⟨fun i => ?_, rfl, rfl, fun r hr => ?_, rfl, rfl, rfl, rfl, rfl, rfl, rfl, rfl, fun m i hi => ?_⟩
  · exact congrArg (fun v => Except.ok (HostValue.num v)) (sqRom_toNat i)
  · fin_cases hr <;> rfl
  · rw [hostRead]
    cases m <;> rw [hostReadMem] <;> exact hostGet_nil hi _

/-! The words of STATUS and FAULT -/

/-- STATUS reads FAULT, with TRUNC 0, only for the code FAULT (R25). -/
theorem statusWord_eq_fault_iff {c : ResultCode} {t : Bool} : statusWord c t = 0xF ↔ c = .fault ∧ t = false := by
  cases c <;> cases t <;> decide

theorem Fsm.resultCode_ne_fault (f : Fsm) : f.resultCode ≠ .fault := by cases f <;> decide

/-! The ends of a command -/

/-- The port and the result of the last read are outside the invariant. -/
theorem State.Inv.setHost {s : State} (h : s.Inv) (port : List HostMove) (v : Option HostValue) :
    ({ s with port := port, lastRead := v } : State).Inv := { h with }

theorem State.Inv.takeFault {s : State} (h : s.Inv) (o : Byte) (r : FaultReason) : (s.takeFault o r).Inv :=
  { h with
    statusForm := ⟨.fault, false, rfl⟩
    faultForm := .inr ⟨o, r, rfl⟩
    haltedStatus := iff_of_true (takeFault_halted s o r) rfl }

/-- STATUS may be set to any code but FAULT while the block is not halted. -/
theorem State.Inv.setStatus {s : State} (h : s.Inv) (hh : s.halted = false) {c : ResultCode} (hc : c ≠ .fault)
    (t : Bool) : ({ s with status := statusWord c t } : State).Inv :=
  { h with
    statusForm := ⟨c, t, rfl⟩
    haltedStatus := iff_of_false (by simpa [State.halted] using hh) fun e => hc (statusWord_eq_fault_iff.1 e).1 }

theorem State.Inv.markDone {s : State} (h : s.Inv) (hh : s.halted = false) : s.markDone.Inv :=
  h.setStatus hh (c := .done) nofun false

/-! The DSP and CRC commands -/

/-- A half word that was sign-extended is still there in the low half. -/
theorem setWidth_signExtend_half (x : Half) : (x.signExtend 32).setWidth 16 = x := by
  ext i hi
  rw [BitVec.getElem_setWidth, BitVec.getLsbD_signExtend]
  simp [hi, show i < 32 by omega, BitVec.getLsbD_eq_getElem]

theorem fmInRange_fmWrap (w : FmWidth) (v : Int) : fmInRange w (fmWrap w v) = true := by
  cases w with
  | w16 => simp [fmInRange, fmWrap, setWidth_signExtend_half]
  | w32 => rfl

/-- fm_ar and fm_ai of a history are in their range (R24). -/
def FmHist.inRange (h : FmHist) : Prop := inIqRange h.ar ∧ inIqRange h.ai

/-- A byte with the bias taken off is in the range of fm_ar and fm_ai. -/
theorem wrap16_bias_inIqRange (b : Byte) : inIqRange (wrap16 ((b.toNat : Int) - fmBias)) := by
  have hb := b.isLt
  have hv : fmBias = 128 := rfl
  rw [inIqRange, wrap16_toInt (by omega)]
  omega

/-- A step leaves its own sample in the history, whatever the history was. -/
theorem fmStep_inRange {c : Coefs} {h h' : FmHist} {i q : Byte} {v : Int} (e : fmStep c h i q = .ok (v, h')) :
    h'.inRange := by
  simp only [fmStep, bind_ok_iff, pure_eq_ok, Except.ok.injEq] at e
  obtain ⟨yd, -, yl, -, e⟩ := e
  cases e
  exact ⟨wrap16_bias_inIqRange i, wrap16_bias_inIqRange q⟩

/-- The loop answers values of FM_OUT's width and a history in range. -/
theorem fmLoop_inRange {p : Params} {iq : Memory Byte} {k n : Nat} {h h' : FmHist} {os : List Word} (hr : h.inRange)
    (e : fmLoop p iq k n h = .ok (os, h')) : h'.inRange ∧ ∀ v ∈ os, fmInRange p.fmOutWidth v = true := by
  induction n generalizing k h os with
  | zero => cases e; exact ⟨hr, nofun⟩
  | succ n ih =>
    simp only [fmLoop, bind_ok_iff, pure_eq_ok] at e
    obtain ⟨i, -, q, -, ⟨v, h1⟩, h2, ⟨os', h3⟩, e', e⟩ := e
    cases e
    obtain ⟨hr', hv⟩ := ih (fmStep_inRange h2) e'
    exact ⟨hr', List.forall_mem_cons.2 ⟨fmInRange_fmWrap _ _, hv⟩⟩

section
variable {s t : State} (h : s.Inv) (hh : s.halted = false)
include h hh

theorem envDetect_keeps_inv {d n : Nat} (e : envDetect d n s = .ok t) : t.Inv := by
  obtain ⟨⟨-, -, hn⟩, es, he, rfl⟩ := envDetect_ok_iff.1 e
  have hl := (envLoop_ok_iff.1 he).1
  have hm : Memory.ok s.params.nEnv (Memory.setRange s.envOut 0 es) := Memory.ok_setRange h.envOut (by omega)
  have h' : ({ s with envOut := Memory.setRange s.envOut 0 es } : State).Inv := { h with envOut := hm }
  exact h'.markDone hh

theorem lpfReset_keeps_inv (e : lpfReset s = .ok t) : t.Inv := by
  obtain rfl := lpfReset_ok_iff.1 e
  have h' : ({ s with lpfXp := 0, lpfYp := 0, lpfValid := true } : State).Inv := { h with }
  exact h'.markDone hh

theorem lpfFilter_keeps_inv {len : Nat} (e : lpfFilter len s = .ok t) : t.Inv := by
  obtain ⟨⟨-, -, -, hn⟩, ys, g, he, rfl⟩ := lpfFilter_ok_iff.1 e
  have hl := lpfLoop_length he
  have hm : Memory.ok s.params.nLpf (Memory.setRange s.lpfOut 0 ys) := Memory.ok_setRange h.lpfOut (by omega)
  have h' : ({ s with lpfOut := Memory.setRange s.lpfOut 0 ys, lpfXp := g.xp, lpfYp := g.yp } : State).Inv :=
    { h with lpfOut := hm }
  exact h'.markDone hh

theorem fmReset_keeps_inv (e : fmReset s = .ok t) : t.Inv := by
  obtain rfl := fmReset_ok_iff.1 e
  have h' : ({ s.setFmHist ⟨0, 0, 0, 0, 0⟩ with fmValid := true } : State).Inv :=
    { h with
      fmArRange := by rw [State.setFmHist_fmAr]; decide
      fmAiRange := by rw [State.setFmHist_fmAi]; decide }
  exact h'.markDone hh

theorem fmDemod_keeps_inv {n : Nat} (e : fmDemod n s = .ok t) : t.Inv := by
  obtain ⟨⟨-, -, hn⟩, os, g, he, rfl⟩ := fmDemod_ok_iff.1 e
  have hl := fmLoop_length he
  have hm : Memory.ok s.params.nFm (Memory.setRange s.fmOut 0 os) := Memory.ok_setRange h.fmOut (by omega)
  obtain ⟨hg, hv⟩ := fmLoop_inRange (h := s.fmHist) ⟨h.fmArRange, h.fmAiRange⟩ he
  have h' : ({ s.setFmHist g with fmOut := Memory.setRange s.fmOut 0 os } : State).Inv :=
    { h with
      fmOut := hm
      fmRange := fun c hc => (Memory.mem_setRange hc).elim (hv c.2) (h.fmRange c)
      fmArRange := hg.1
      fmAiRange := hg.2 }
  exact h'.markDone hh

theorem crcCompute_keeps_inv {off len : Nat} {init : Half} (e : crcCompute off len init s = .ok t) : t.Inv := by
  obtain ⟨-, bs, -, rfl⟩ := crcCompute_ok_iff.1 e
  have h' : ({ s with result := (crc16 bs init).setWidth 32 } : State).Inv := { h with }
  exact h'.markDone hh

theorem crcVerify_keeps_inv {off len : Nat} (e : crcVerify off len s = .ok t) : t.Inv := by
  obtain ⟨-, r, hr, rfl⟩ := crcVerify_ok_iff.1 e
  have h' : ({ s with crcIdx := crcIdxOf r, result := resultOf r } : State).Inv :=
    { h with crcIndex := verify_crcIdxInTable hr }
  exact h'.markDone hh

/-! The FRAME commands -/

/-- What both FRAME commands commit keeps the invariant, from a context that keeps its own and has come to rest. -/
theorem frameCommit_keeps_inv {c : FrameCtx} (hc : c.Inv s.params) (hr : c.fsm.atRest = true) :
    (frameCommit c s).Inv := by
  have h' : ({ frameCommit c s with status := s.status } : State).Inv :=
    { h with
      flenCap := (Nat.mod_le _ _).trans hc.count
      fsmRest := hr
      recSuccess := hc.recSuccess
      crcIndex := hc.crcIndex }
  exact h'.setStatus hh c.fsm.resultCode_ne_fault _

theorem frameDecode_keeps_inv {nbits : Nat} (e : frameDecode nbits s = .ok t) : t.Inv := by
  obtain ⟨-, bits, c, -, hrun, rfl⟩ := frameDecode_ok_iff.1 e
  have hentry := frameEntry_inv (f := .searchingPreamble) (bits := bits) h.frameBuf (Nat.zero_le _) nofun
  have hc := frameRun_keeps_inv hentry hrun
  have hcommit := frameCommit_keeps_inv h hh hc (frameRun_frameFuel hrun)
  have hb : Memory.ok s.params.frameCap (if c.fsm = .noSync then s.frameBuf else c.buf) := by
    split
    · exact h.frameBuf
    · exact hc.buf
  exact { hcommit with frameBuf := hb }

theorem frameParse_keeps_inv {nbytes : Nat} (e : frameParse nbytes s = .ok t) : t.Inv := by
  obtain ⟨hn, c, hrun, rfl⟩ := frameParse_ok_iff.1 e
  have hentry := sanityCheck_inv (frameEntry_inv (f := .extractingBytes) (bits := []) h.frameBuf hn nofun) nofun
  exact frameCommit_keeps_inv h hh (frameRun_keeps_inv hentry hrun) (frameRun_frameFuel hrun)

/-- Every instruction of a block that is not halted keeps the invariant, however it ends. -/
theorem exec_keeps_inv {i : Instr} (e : exec i s = .next t) : t.Inv := by
  rcases exec_next_iff.1 e with e | ⟨r, -, rfl⟩
  · cases i with
    | envDetect d n => exact envDetect_keeps_inv h hh e
    | lpfReset => exact lpfReset_keeps_inv h hh e
    | lpfFilter len => exact lpfFilter_keeps_inv h hh e
    | fmReset => exact fmReset_keeps_inv h hh e
    | fmDemod n => exact fmDemod_keeps_inv h hh e
    | crcCompute off len init => exact crcCompute_keeps_inv h hh e
    | crcVerify off len => exact crcVerify_keeps_inv h hh e
    | frameDecode nbits => exact frameDecode_keeps_inv h hh e
    | frameParse nbytes => exact frameParse_keeps_inv h hh e
  · exact h.takeFault _ _

end

/-! The host's moves -/

theorem hostSet_ok_iff {α : Type} {size : Nat} {m m' : Memory α} {i : Nat} {v : α} :
    hostSet size m i v = .ok m' ↔ i < size ∧ m' = Memory.set m i v := by
  unfold hostSet
  split <;> simp [eq_comm] <;> omega

/-- A host write inside a memory keeps it in order. -/
theorem hostSet_ok {α : Type} {size : Nat} {m m' : Memory α} {i : Nat} {v : α} (h : Memory.ok size m)
    (e : hostSet size m i v = .ok m') : Memory.ok size m' := by
  obtain ⟨hi, rfl⟩ := hostSet_ok_iff.1 e
  exact Memory.ok_set h hi v

theorem hostWrite_keeps_inv {s t : State} (h : s.Inv) {w : HostWrite} (e : hostWrite w s = .ok t) : t.Inv := by
  cases w with
  | iqIn i v => obtain ⟨m, hm, e⟩ := bind_ok_iff.1 e; cases e; exact { h with iqIn := hostSet_ok h.iqIn hm }
  | envOut i v => obtain ⟨m, hm, e⟩ := bind_ok_iff.1 e; cases e; exact { h with envOut := hostSet_ok h.envOut hm }
  | lpfOut i v => obtain ⟨m, hm, e⟩ := bind_ok_iff.1 e; cases e; exact { h with lpfOut := hostSet_ok h.lpfOut hm }
  | bitIn i v => obtain ⟨m, hm, e⟩ := bind_ok_iff.1 e; cases e; exact { h with bitIn := hostSet_ok h.bitIn hm }
  | frameBuf i v => obtain ⟨m, hm, e⟩ := bind_ok_iff.1 e; cases e; exact { h with frameBuf := hostSet_ok h.frameBuf hm }
  | fmOut i v =>
    simp only [hostWrite] at e
    split at e
    case isTrue hv =>
      obtain ⟨m, hm, e⟩ := bind_ok_iff.1 e
      cases e
      obtain ⟨-, rfl⟩ := hostSet_ok_iff.1 hm
      exact { h with
        fmOut := hostSet_ok h.fmOut hm
        fmRange := fun c hc => (Memory.fst_of_mem_set hc).elim (fun e => e ▸ hv) (h.fmRange c) }
    case isFalse => cases e

/-- Settles O57: the invariant is kept move by move. -/
theorem stepKeepsInvariant : Obligations.StepKeepsInvariant := by
  intro s t h hs
  cases stepTo_of_step hs with
  | idle _ ht => exact ht ▸ h
  | ignored c rest _ _ ht => exact ht ▸ h.setHost rest s.lastRead
  | illegal c rest _ _ ht => exact ht ▸ (h.setHost rest s.lastRead).takeFault _ _
  | executed c i rest _ hh he => exact exec_keeps_inv (h.setHost rest s.lastRead) hh he
  | reset rest _ ht => exact ht ▸ State.applyReset_inv _
  | write w rest _ hw => exact hostWrite_keeps_inv (h.setHost rest s.lastRead) hw
  | read r v rest _ ht => exact ht ▸ h.setHost rest (some v)

end Sys2Proof.Machine
end

section
/-! The STATUS words a command can leave (10_state.md R25, R26). -/

namespace Sys2Proof.Machine

open Sys2Proof

theorem markDone_status_mem (s : State) : s.markDone.status ∈ ([0x1, 0xF] : List Word) := by
  rw [State.markDone_status]; decide

/-- STATUS after a frame that came to rest out of IDLE: codes 2 to 5 with TRUNC as staged, or 6 without it (R25, R26). -/
theorem frameStatus_mem {f : Fsm} (hr : f.atRest = true) (hi : f ≠ .idle) (trunc : Bool) :
    statusWord f.resultCode (if f = .noSync then false else trunc) ∈
      ([0x2, 0x12, 0x3, 0x13, 0x4, 0x14, 0x5, 0x15, 0x6, 0xF] : List Word) := by
  revert trunc
  cases f with
  | idle => exact absurd rfl hi
  | success | abortLength | failSanity | failMic | noSync => decide
  | searchingPreamble | extractingBytes | dispatchType | dispatchSubtype | validatingCrc | extractingFields | emit =>
    cases hr

/-- No transition goes to IDLE (R94). -/
theorem FrameMove.keeps_ne_idle {p : Params} {c c' : FrameCtx} (hm : FrameMove p c c') (h : c.fsm ≠ .idle) :
    c'.fsm ≠ .idle := by
  cases hm with
  | rest => exact h
  | notFound | found | fields | emit => nofun
  | extract _ _ _ _ _ _ _ hto | type _ _ hto | subtype _ _ _ _ _ hto | crc _ _ _ _ _ hto =>
    rcases hto with rfl | rfl <;> nofun

/-- Where the machine of FRAME.PARSE can be: past the sanity check, with nothing cut off (R109). -/
structure FrameCtx.Parsing (c : FrameCtx) : Prop where
  trunc : c.trunc = false
  entered : c.fsm ∉ ([.idle, .searchingPreamble, .extractingBytes, .noSync] : List Fsm)

theorem FrameMove.keeps_parsing {p : Params} {c c' : FrameCtx} (hm : FrameMove p c c') (h : c.Parsing) : c'.Parsing := by
  obtain ⟨ht, he⟩ := h
  cases hm with
  | rest => exact ⟨ht, he⟩
  | notFound hf | found hf | extract hf => simp [hf] at he
  | type hf f hto | subtype hf _ _ _ f hto | crc hf _ _ f _ hto =>
    exact ⟨ht, by rcases hto with rfl | rfl <;> simp⟩
  | fields | emit => exact ⟨ht, by simp⟩

/-- STATUS after a frame that was parsed: codes 2 to 5, TRUNC 0. -/
theorem FrameCtx.Parsing.status_mem {c : FrameCtx} (h : c.Parsing) (hr : c.fsm.atRest = true) (s : State) :
    (frameCommit c s).status ∈ ([0x2, 0x3, 0x4, 0x5, 0xF] : List Word) := by
  obtain ⟨ht, he⟩ := h
  rw [frameCommit_status, ht, ite_self]
  revert hr he
  cases c.fsm <;> decide

theorem frameDecode_status_mem {s t : State} {nbits : Nat} (e : frameDecode nbits s = .ok t) :
    t.status ∈ ([0x2, 0x12, 0x3, 0x13, 0x4, 0x14, 0x5, 0x15, 0x6, 0xF] : List Word) := by
  obtain ⟨-, bits, c, -, hrun, rfl⟩ := frameDecode_ok_iff.1 e
  have hentry : (frameEntry s .searchingPreamble bits 0).fsm ≠ .idle := by simp [frameEntry]
  have hi : c.fsm ≠ .idle := frameRun_keeps (fun c => c.fsm ≠ .idle)
    (fun _ _ h hs => (frameMove_of_frameStep hs).keeps_ne_idle h) hentry hrun
  exact frameStatus_mem (frameRun_frameFuel hrun) hi c.trunc

theorem frameParse_status_mem {s t : State} {nbytes : Nat} (e : frameParse nbytes s = .ok t) :
    t.status ∈ ([0x2, 0x3, 0x4, 0x5, 0xF] : List Word) := by
  obtain ⟨-, c, hrun, rfl⟩ := frameParse_ok_iff.1 e
  have hentry : (sanityCheck (frameEntry s .extractingBytes [] nbytes)).Parsing :=
    ⟨rfl, by rcases sanityCheck_fsm (frameEntry s .extractingBytes [] nbytes) with e | e <;> rw [e] <;> decide⟩
  have hc : c.Parsing :=
    frameRun_keeps FrameCtx.Parsing (fun _ _ h hs => (frameMove_of_frameStep hs).keeps_parsing h) hentry hrun
  exact hc.status_mem (frameRun_frameFuel hrun) s

/-- Settles O15: a fault leaves code 15, the commit of a DSP or CRC command ends with markDone, and the FRAME commands
leave the code of the state their machine came to rest in. -/
theorem statusCodesOfCommands : Obligations.StatusCodesOfCommands := by
  intro i s t h
  rcases exec_next_iff.1 h with e | ⟨r, -, rfl⟩
  · cases i with
    | envDetect d n => obtain ⟨-, es, -, rfl⟩ := envDetect_ok_iff.1 e; exact markDone_status_mem _
    | lpfReset => obtain rfl := lpfReset_ok_iff.1 e; exact markDone_status_mem _
    | lpfFilter len => obtain ⟨-, ys, g, -, rfl⟩ := lpfFilter_ok_iff.1 e; exact markDone_status_mem _
    | fmReset => obtain rfl := fmReset_ok_iff.1 e; exact markDone_status_mem _
    | fmDemod n => obtain ⟨-, os, g, -, rfl⟩ := fmDemod_ok_iff.1 e; exact markDone_status_mem _
    | crcCompute off len init => obtain ⟨-, bs, -, rfl⟩ := crcCompute_ok_iff.1 e; exact markDone_status_mem _
    | crcVerify off len => obtain ⟨-, r, -, rfl⟩ := crcVerify_ok_iff.1 e; exact markDone_status_mem _
    | frameDecode nbits => exact frameDecode_status_mem e
    | frameParse nbytes => exact frameParse_status_mem e
  · have hf : (s.takeFault i.opc r).status = 0xF := rfl
    rw [hf]
    cases i <;> simp

end Sys2Proof.Machine
end

section
/-! No command reads the flag-like state (10_state.md R34): two runs that differ in it only take the same path and stage
the same commit. -/

namespace Sys2Proof.Machine

open Sys2Proof

/-- The state elements that no command may read: the flag-like ones of R34, and OUT (R33). -/
structure FlagState where
  status : Word
  fault : Word
  result : Word
  flen : Word
  crcIdx : Byte
  fsm : Fsm
  recValid : Bool
  record : Record
  out : List OutEvent

/-- The state with other contents of these elements. -/
def State.withFlags (s : State) (f : FlagState) : State :=
  { s with
    status := f.status, fault := f.fault, result := f.result, flen := f.flen, crcIdx := f.crcIdx, fsm := f.fsm,
    recValid := f.recValid, record := f.record, out := f.out }

/-- What these elements hold in a state. -/
def State.flags (s : State) : FlagState where
  status := s.status
  fault := s.fault
  result := s.result
  flen := s.flen
  crcIdx := s.crcIdx
  fsm := s.fsm
  recValid := s.recValid
  record := s.record
  out := s.out

/-- From s to t and from s with the flags f to u: the two ends agree in STATUS and in everything that is no flag, each
flag is the same in both or kept in both, and OUT got the same events. -/
structure EndsAlike (s : State) (f : FlagState) (t u : State) : Prop where
  same : u = { t with
    fault := u.fault, result := u.result, flen := u.flen, crcIdx := u.crcIdx, fsm := u.fsm, recValid := u.recValid,
    record := u.record, out := u.out }
  fault : u.fault = t.fault ∨ (t.fault = s.fault ∧ u.fault = f.fault)
  result : u.result = t.result ∨ (t.result = s.result ∧ u.result = f.result)
  flen : u.flen = t.flen ∨ (t.flen = s.flen ∧ u.flen = f.flen)
  crcIdx : u.crcIdx = t.crcIdx ∨ (t.crcIdx = s.crcIdx ∧ u.crcIdx = f.crcIdx)
  fsm : u.fsm = t.fsm ∨ (t.fsm = s.fsm ∧ u.fsm = f.fsm)
  recValid : u.recValid = t.recValid ∨ (t.recValid = s.recValid ∧ u.recValid = f.recValid)
  record : u.record = t.record ∨ (t.record = s.record ∧ u.record = f.record)
  out : ∃ evs, t.out = s.out ++ evs ∧ u.out = f.out ++ evs

/-- Two results are both the same fault, or two ends alike. -/
inductive RunsAlike (s : State) (f : FlagState) : Except FaultReason State → Except FaultReason State → Prop
  | error (r : FaultReason) : RunsAlike s f (.error r) (.error r)
  | ok {t u : State} (h : EndsAlike s f t u) : RunsAlike s f (.ok t) (.ok u)

/-- A computation that both runs make before they go on alike. -/
theorem RunsAlike.bind {s : State} {f : FlagState} {α : Type} (x : Except FaultReason α)
    {g h : α → Except FaultReason State} (hgh : ∀ a, RunsAlike s f (g a) (h a)) : RunsAlike s f (x >>= g) (x >>= h) := by
  cases x with
  | error r => exact .error r
  | ok a => exact hgh a

/-- The ends of two runs whose flags were kept, up to the STATUS that a completed command leaves. -/
theorem EndsAlike.of_kept {s t : State} (f : FlagState) (h : t.flags = s.flags) :
    EndsAlike s f t.markDone (t.withFlags f).markDone where
  same := rfl
  fault := .inr ⟨congrArg FlagState.fault h, rfl⟩
  result := .inr ⟨congrArg FlagState.result h, rfl⟩
  flen := .inr ⟨congrArg FlagState.flen h, rfl⟩
  crcIdx := .inr ⟨congrArg FlagState.crcIdx h, rfl⟩
  fsm := .inr ⟨congrArg FlagState.fsm h, rfl⟩
  recValid := .inr ⟨congrArg FlagState.recValid h, rfl⟩
  record := .inr ⟨congrArg FlagState.record h, rfl⟩
  out := ⟨[], (congrArg FlagState.out h).trans (List.append_nil _).symm, (List.append_nil _).symm⟩

theorem endsAlike_takeFault (s : State) (f : FlagState) (o : Byte) (r : FaultReason) :
    EndsAlike s f (s.takeFault o r) ((s.withFlags f).takeFault o r) :=
  { EndsAlike.of_kept (s := s) f rfl with same := rfl, fault := .inl rfl }

theorem endsAlike_frameCommit (s : State) (f : FlagState) (c : FrameCtx) :
    EndsAlike s f (frameCommit c s) (frameCommit c (s.withFlags f)) :=
  { EndsAlike.of_kept (s := s) f rfl with
    same := rfl
    flen := .inl rfl
    crcIdx := .inl rfl
    fsm := .inl rfl
    recValid := .inl rfl
    record := by
      simp only [frameCommit_record]
      split
      · exact .inl rfl
      · exact .inr ⟨rfl, rfl⟩
    out := ⟨c.ev.toList, rfl, rfl⟩ }

/-- Every instruction checks, reads and computes alike whatever the flags are, and stages the same commit. -/
theorem commitOf_runsAlike (i : Instr) (s : State) (f : FlagState) :
    RunsAlike s f (commitOf i s) (commitOf i (s.withFlags f)) := by
  cases i with
  | envDetect d n => exact .bind (checkEnvDetect s.params d n) fun _ => .bind _ fun es => .ok (.of_kept f rfl)
  | lpfReset => exact .ok (.of_kept f rfl)
  | lpfFilter len =>
    exact .bind (checkLpfFilter s.params s.lpfValid len) fun _ => .bind _ fun (ys, h) => .ok (.of_kept f rfl)
  | fmReset => exact .ok (.of_kept f rfl)
  | fmDemod n => exact .bind (checkFmDemod s.params s.fmValid n) fun _ => .bind _ fun (os, h) => .ok (.of_kept f rfl)
  | crcCompute off len init =>
    exact .bind (checkCrcCompute s.params off len) fun _ => .bind _ fun bs =>
      .ok { EndsAlike.of_kept (s := s) f rfl with same := rfl, result := .inl rfl }
  | crcVerify off len =>
    exact .bind (checkCrcVerify s.params off len) fun _ => .bind _ fun r =>
      .ok { EndsAlike.of_kept (s := s) f rfl with same := rfl, crcIdx := .inl rfl, result := .inl rfl }
  | frameDecode nbits =>
    exact .bind (checkFrameDecode s.params nbits) fun _ => .bind _ fun bits => .bind _ fun c =>
      .ok { endsAlike_frameCommit s f c with same := rfl }
  | frameParse nbytes =>
    exact .bind (checkFrameParse s.params nbytes) fun _ => .bind _ fun c => .ok (endsAlike_frameCommit s f c)

theorem exec_endsAlike {i : Instr} {s t u : State} {f : FlagState} (ht : exec i s = .next t)
    (hu : exec i (s.withFlags f) = .next u) : EndsAlike s f t u := by
  rw [exec_eq_finish] at ht hu
  have h := commitOf_runsAlike i s f
  generalize commitOf i s = x at ht h
  generalize commitOf i (s.withFlags f) = y at hu h
  cases h with
  | error r => cases ht; cases hu; exact endsAlike_takeFault s f i.opc r
  | ok h => cases ht; cases hu; exact h

/-- Settles O60: both runs take the same path, so they end in the same fault or in the same commit. -/
theorem flagsAreNotInputs : Obligations.FlagsAreNotInputs := by
  intro i s t u st f res fl ci fs rv rec ev ht hu
  obtain ⟨hsame, hfault, hresult, hflen, hcrcIdx, hfsm, hrecValid, hrecord, hout⟩ :=
    exec_endsAlike (f := ⟨st, f, res, fl, ci, fs, rv, rec, ev⟩) ht hu
  exact ⟨hsame, hfault, hresult, hflen, hcrcIdx, hfsm, hrecValid, hrecord, hout⟩

end Sys2Proof.Machine
end

section
/-! The host's writes and reads as steps (20_memory.md R49, 70_reset_and_hazards.md R136): which writes succeed and what
they leave, what a read of an element returns after one, and how each access ends as a step. -/

namespace Sys2Proof.Machine

open Sys2Proof

/-! A host write -/

/-- The range the machine checks before it writes FM_OUT is the one R14 and R38 give. -/
theorem fmInRange_iff {w : FmWidth} {v : Word} :
    fmInRange w v = true ↔ (w = .w16 → -(2 ^ 15) ≤ v.toInt ∧ v.toInt < 2 ^ 15) := by
  cases w with
  | w32 => exact iff_of_true rfl nofun
  | w16 =>
    have hext : ((v.setWidth 16).signExtend 32).toInt = (v.setWidth 16).toInt :=
      BitVec.toInt_signExtend_of_le (by decide)
    rw [fmInRange, beq_iff_eq, imp_iff_right rfl]
    constructor
    · intro h
      rw [← h, hext]
      exact ⟨(v.setWidth 16).le_toInt, (v.setWidth 16).toInt_lt⟩
    · intro h
      refine BitVec.eq_of_toInt_eq (hext.trans ?_)
      rw [BitVec.toInt_setWidth, Int.bmod_def]
      rw [BitVec.toInt_eq_toNat_cond] at h ⊢
      split at h <;> split <;> omega

/-- The state with the element a host write names set to the value it gives. -/
def State.afterWrite (s : State) : HostWrite → State
  | .iqIn i v => { s with iqIn := Memory.set s.iqIn i v }
  | .envOut i v => { s with envOut := Memory.set s.envOut i v }
  | .lpfOut i v => { s with lpfOut := Memory.set s.lpfOut i v }
  | .fmOut i v => { s with fmOut := Memory.set s.fmOut i v }
  | .bitIn i v => { s with bitIn := Memory.set s.bitIn i v }
  | .frameBuf i v => { s with frameBuf := Memory.set s.frameBuf i v }

/-- A write of anything but FM_OUT is in range when its index is. -/
theorem HostWrite.inRange_iff_of_ne_fmOut {p : Params} {w : HostWrite} (h : ∀ i v, w ≠ .fmOut i v) :
    w.InRange p ↔ w.target.2 < memSize p w.target.1 :=
  and_iff_left fun i v e => absurd e (h i v)

theorem HostWrite.inRange_fmOut_iff {p : Params} {i : Nat} {v : Word} :
    (HostWrite.fmOut i v).InRange p ↔ i < p.nFm ∧ fmInRange p.fmOutWidth v = true :=
  and_congr_right fun _ => ⟨fun h => fmInRange_iff.2 (h i v rfl), fun h _ _ e => by cases e; exact fmInRange_iff.1 h⟩

section
variable {α : Type} {size : Nat} {m : Memory α} {i : Nat} {v : α} {put : Memory α → State}

/-- A memory set at an index and put into the state: every arm of `hostWrite`. -/
theorem hostSet_bind_ok_iff {t : State} :
    (hostSet size m i v >>= fun m' => pure (put m')) = .ok t ↔ i < size ∧ t = put (Memory.set m i v) := by
  simp only [bind_ok_iff, hostSet_ok_iff, pure_eq_ok, ok_eq_ok_iff, and_assoc, exists_and_left, exists_eq_left]

theorem hostSet_bind_error {f : Fault} (h : (hostSet size m i v >>= fun m' => pure (put m')) = .error f) :
    f = .hostIndexOutside := by
  unfold hostSet at h
  split at h <;> cases h
  rfl

end

/-- A host write succeeds exactly when it is in range, and then sets its element (R14, R45, R49). -/
theorem hostWrite_ok_iff {w : HostWrite} {s t : State} :
    hostWrite w s = .ok t ↔ w.InRange s.params ∧ t = s.afterWrite w := by
  cases w with
  | fmOut i v =>
    rw [HostWrite.inRange_fmOut_iff, hostWrite]
    split
    case isTrue hv => rw [and_iff_left hv]; exact hostSet_bind_ok_iff
    case isFalse hv => exact iff_of_false nofun fun h => hv h.1.2
  | iqIn i v | envOut i v | lpfOut i v | bitIn i v | frameBuf i v =>
    rw [HostWrite.inRange_iff_of_ne_fmOut fun _ _ => HostWrite.noConfusion]
    exact hostSet_bind_ok_iff

/-- A host write fails for its index or for its value (log 6). -/
theorem hostWrite_error {w : HostWrite} {s : State} {f : Fault} (h : hostWrite w s = .error f) :
    f = .hostIndexOutside ∨ f = .hostValueRange := by
  cases w with
  | fmOut i v =>
    rw [hostWrite] at h
    split at h
    · exact .inl (hostSet_bind_error h)
    · cases h; exact .inr rfl
  | iqIn i v | envOut i v | lpfOut i v | bitIn i v | frameBuf i v => exact .inl (hostSet_bind_error h)

/-! A host read of an element after a host write -/

section
variable {α : Type} {size i : Nat} (m : Memory α) (v : α) (val : α → HostValue)

theorem hostGet_set_self (h : i < size) : hostGet size (Memory.set m i v) i val = .ok (val v) := by
  rw [hostGet, if_neg (Nat.not_le.2 h), Memory.get?_set_self]

theorem hostGet_set_of_ne {j : Nat} (h : i ≠ j) :
    hostGet size (Memory.set m j v) i val = hostGet size m i val := by
  rw [hostGet, Memory.get?_set_of_ne m v h, hostGet]

end

theorem hostRead_afterWrite_target {w : HostWrite} {s : State} (h : w.InRange s.params) :
    hostRead (.mem w.target.1 w.target.2) (s.afterWrite w) = .ok w.value := by
  cases w <;> exact hostGet_set_self _ _ _ h.1

theorem hostRead_afterWrite_of_ne {w : HostWrite} {m : MemName} {i : Nat} (s : State) (h : (m, i) ≠ w.target) :
    hostRead (.mem m i) (s.afterWrite w) = hostRead (.mem m i) s := by
  cases w <;> cases m
  case iqIn.iqIn | envOut.envOut | lpfOut.lpfOut | fmOut.fmOut | bitIn.bitIn | frameBuf.frameBuf =>
    exact hostGet_set_of_ne _ _ _ fun e => h (congrArg (Prod.mk _) e)
  all_goals rfl

/-! The accesses as steps -/

theorem step_write_of_ok {s t : State} {w : HostWrite} {rest : List HostMove} (hp : s.port = .write w :: rest)
    (h : hostWrite w { s with port := rest } = .ok t) : step s = .next t := by
  rw [step_of_port hp, runMove, h, hostOutcome]

theorem step_write_of_error {s : State} {w : HostWrite} {rest : List HostMove} {f : Fault}
    (hp : s.port = .write w :: rest) (h : hostWrite w { s with port := rest } = .error f) : step s = .fault f := by
  rw [step_of_port hp, runMove, h, hostOutcome]

theorem step_read_of_ok {s : State} {r : HostRead} {rest : List HostMove} {v : HostValue}
    (hp : s.port = .read r :: rest) (h : hostRead r s = .ok v) :
    step s = .next { s with port := rest, lastRead := some v } := by
  rw [step_of_port hp, runMove, hostReadMove, hostRead_port, h, ok_bind, pure_eq_ok, hostOutcome]

theorem step_read_of_error {s : State} {r : HostRead} {rest : List HostMove} {f : Fault}
    (hp : s.port = .read r :: rest) (h : hostRead r s = .error f) : step s = .fault f := by
  rw [step_of_port hp, runMove, hostReadMove, hostRead_port, h, error_bind, hostOutcome]

/-- A write outside its memory, or of a value outside its element's range, stops the step. -/
theorem step_write_of_not_inRange {s : State} {w : HostWrite} {rest : List HostMove} (hp : s.port = .write w :: rest)
    (h : ¬w.InRange s.params) : step s = .fault .hostIndexOutside ∨ step s = .fault .hostValueRange := by
  match hw : hostWrite w { s with port := rest } with
  | .ok t => exact absurd (hostWrite_ok_iff.1 hw).1 h
  | .error f =>
    rw [step_write_of_error hp hw]
    exact (hostWrite_error hw).imp (congrArg _) (congrArg _)

/-- Settles O11: a write in range steps to `State.afterWrite`, which the reads of the elements and the frame are about;
a write out of range stops; a read is its value or its stop. -/
theorem hostWriteThenRead : Obligations.HostWriteThenRead := by
  refine ⟨fun s w rest hp => ⟨fun hr => ?_, step_write_of_not_inRange hp⟩,
    fun s r rest hp => ⟨fun v => step_read_of_ok hp, fun f => step_read_of_error hp⟩, fun s i => rfl⟩
  have hw : hostWrite w { s with port := rest } = .ok (State.afterWrite { s with port := rest } w) :=
    hostWrite_ok_iff.2 ⟨hr, rfl⟩
  refine ⟨_, step_write_of_ok hp hw, hostRead_afterWrite_target hr, fun m i hne => ?_, hostWrite_frame hw⟩
  rw [hostRead_afterWrite_of_ne _ hne, hostRead_port]

end Sys2Proof.Machine
end

section
/-! The opcode map read by fields (30_encoding.md R57 to R62): a CMD word selects a row exactly when its OPC is the row's,
RSV is 0 and DEC is 0 but for ENV.DETECT. What decodes, what is illegal and the round trips follow from the fields. -/

namespace Sys2Proof

/-! The fields of a CMD word -/

/-- A CMD word is its three fields (R57). -/
theorem Command.cmd_eq_iff {a b : Command} : a.cmd = b.cmd ↔ a.opc = b.opc ∧ a.rsv = b.rsv ∧ a.dec = b.dec := by
  have append_fields (c : Command) : c.cmd = c.rsv ++ (c.dec ++ c.opc) := by
    have low : c.dec ++ c.opc = c.cmd.extractLsb' 0 12 := BitVec.extractLsb'_append_extractLsb'_eq_extractLsb' rfl
    have all : c.rsv ++ c.cmd.extractLsb' 0 12 = c.cmd.extractLsb' 0 32 :=
      BitVec.extractLsb'_append_extractLsb'_eq_extractLsb' rfl
    rw [low, all, BitVec.extractLsb'_eq_self]
  constructor
  · intro h
    rw [opc, rsv, dec, h]
    exact ⟨rfl, rfl, rfl⟩
  · rintro ⟨hopc, hrsv, hdec⟩
    rw [append_fields a, append_fields b, hopc, hrsv, hdec]

/-- The fields of the CMD word are those R57 and R60 allow a command of the row. -/
def Command.HasOpcode (c : Command) (op : Opcode) : Prop :=
  c.opc = op.opc ∧ c.rsv = 0 ∧ (c.dec ≠ 0 → op = .envDetect)

theorem Opcode.opc_injective : Function.Injective Opcode.opc := by
  intro p q
  cases p <;> cases q <;> decide

theorem Command.HasOpcode.unique {c : Command} {p q : Opcode} (hp : c.HasOpcode p) (hq : c.HasOpcode q) : p = q :=
  Opcode.opc_injective (hp.1.symm.trans hq.1)

/-- Commands of one row with the same DEC have the same CMD word. -/
theorem Command.HasOpcode.cmd_eq {a b : Command} {op : Opcode} (ha : a.HasOpcode op) (hb : b.HasOpcode op)
    (hdec : a.dec = b.dec) : a.cmd = b.cmd := by
  obtain ⟨haopc, harsv, -⟩ := ha
  obtain ⟨hbopc, hbrsv, -⟩ := hb
  exact cmd_eq_iff.2 ⟨haopc.trans hbopc.symm, harsv.trans hbrsv.symm, hdec⟩

/-! The rows of the opcode map -/

/-- The mask of a row: ENV.DETECT leaves DEC open (R59). -/
def Opcode.mask : Opcode → Word
  | .envDetect => 0xFFFFF0FF
  | _ => 0xFFFFFFFF

/-- The map holds one row for each opcode, and its pattern is the CMD word without a decimation field. -/
theorem mem_opcodeMap_iff {r : OpcodeRow} : r ∈ opcodeMap ↔ r = ⟨r.op, plainCmd r.op, r.op.mask⟩ := by
  obtain ⟨op, pattern, mask⟩ := r
  cases op <;> simp [opcodeMap, plainCmd, Opcode.opc, Opcode.mask]

theorem Opcode.mask_fields (op : Opcode) : op.mask.extractLsb' 0 8 = BitVec.allOnes 8 ∧
    op.mask.extractLsb' 12 20 = BitVec.allOnes 20 ∧
    op.mask.extractLsb' 8 4 = if op = .envDetect then 0 else BitVec.allOnes 4 := by
  cases op <;> decide

/-- What match and mask say of the fields. -/
theorem Command.and_mask_eq_iff (c : Command) (op : Opcode) :
    c.cmd &&& op.mask = plainCmd op ↔ c.HasOpcode op := by
  obtain ⟨hopc, hrsv, hdec⟩ := Laws.OpcodeByte.plain_cmd op 0 0 0
  have h := cmd_eq_iff (a := ⟨c.cmd &&& op.mask, 0, 0, 0⟩) (b := ⟨plainCmd op, 0, 0, 0⟩)
  rw [hopc, hrsv, hdec] at h
  refine h.trans ?_
  obtain ⟨mopc, mrsv, mdec⟩ := op.mask_fields
  simp only [HasOpcode, opc, rsv, dec, BitVec.extractLsb'_and, mopc, mrsv, mdec, BitVec.and_allOnes]
  by_cases hop : op = .envDetect
  · simp [hop]
  · simp only [hop, if_false, BitVec.and_allOnes, ne_eq, imp_false, not_not]

theorem OpcodeRow.selects_iff {r : OpcodeRow} (hr : r ∈ opcodeMap) (c : Command) :
    r.selects c.cmd = true ↔ c.HasOpcode r.op := by
  rw [mem_opcodeMap_iff.1 hr, selects, beq_iff_eq, c.and_mask_eq_iff]

/-- The row a CMD word selects is the one its fields name. -/
theorem findOpcode_eq_some_iff {c : Command} {op : Opcode} : findOpcode c.cmd = some op ↔ c.HasOpcode op := by
  have found {r : OpcodeRow} (hr : opcodeMap.find? (·.selects c.cmd) = some r) : c.HasOpcode r.op :=
    (OpcodeRow.selects_iff (List.mem_of_find?_eq_some hr) c).1
      (List.find?_some (p := fun r : OpcodeRow => r.selects c.cmd) hr)
  simp only [findOpcode, Option.map_eq_some_iff]
  constructor
  · rintro ⟨r, hr, rfl⟩
    exact found hr
  · intro h
    have hop : (⟨op, plainCmd op, op.mask⟩ : OpcodeRow) ∈ opcodeMap := mem_opcodeMap_iff.2 rfl
    obtain ⟨r, hr⟩ := Option.isSome_iff_exists.1 <|
      List.find?_isSome (p := fun r : OpcodeRow => r.selects c.cmd).2 ⟨_, hop, (OpcodeRow.selects_iff hop c).2 h⟩
    exact ⟨r, hr, (found hr).unique h⟩

/-! What decodes and what does not -/

theorem decode_eq_ok_iff {c : Command} {i : Instr} :
    decode c = .ok i ↔ ∃ op, c.HasOpcode op ∧ assemble op c = i := by
  simp only [← findOpcode_eq_some_iff, decode]
  cases findOpcode c.cmd <;> simp

/-- A command of a row decodes to the row's instruction. -/
theorem Command.HasOpcode.decode_eq {c : Command} {op : Opcode} (h : c.HasOpcode op) : decode c = .ok (assemble op c) :=
  decode_eq_ok_iff.2 ⟨op, h, rfl⟩

/-- R62 for one row. -/
theorem decode_of_match {c : Command} (op : Opcode) (h : c.cmd &&& op.mask = plainCmd op) :
    decode c = .ok (assemble op c) :=
  ((c.and_mask_eq_iff op).1 h).decode_eq

theorem exists_decode_error_iff_not_hasOpcode {c : Command} :
    (∃ e, decode c = .error e) ↔ ¬∃ op, c.HasOpcode op := by
  simp only [← findOpcode_eq_some_iff, decode]
  cases findOpcode c.cmd <;> simp

/-- The OPC values of the map (R59). -/
theorem exists_opc_eq_iff {b : Byte} :
    (∃ op : Opcode, b = op.opc) ↔ b ∈ ([0x10, 0x20, 0x21, 0x30, 0x31, 0x40, 0x41, 0x50, 0x51] : List Byte) := by
  constructor
  · rintro ⟨op, rfl⟩
    cases op <;> decide
  · intro h
    change b ∈ opcodeMap.map (·.op.opc) at h
    obtain ⟨r, -, rfl⟩ := List.mem_map.1 h
    exact ⟨r.op, rfl⟩

theorem exists_hasOpcode_iff {c : Command} :
    (∃ op, c.HasOpcode op) ↔ (∃ op : Opcode, c.opc = op.opc) ∧ (c.dec ≠ 0 → c.opc = 0x10) ∧ c.rsv = 0 := by
  constructor
  · rintro ⟨op, hopc, hrsv, hdec⟩
    exact ⟨⟨op, hopc⟩, fun hd => hopc.trans (congrArg Opcode.opc (hdec hd)), hrsv⟩
  · rintro ⟨⟨op, hopc⟩, hdec, hrsv⟩
    exact ⟨op, hopc, hrsv, fun hd => Opcode.opc_injective (hopc.symm.trans (hdec hd))⟩

/-- The three illegal cases of R60, and no others. -/
theorem exists_decode_error_iff {c : Command} : (∃ e, decode c = .error e) ↔
    c.opc ∉ ([0x10, 0x20, 0x21, 0x30, 0x31, 0x40, 0x41, 0x50, 0x51] : List Byte) ∨
      (c.dec ≠ 0 ∧ c.opc ≠ 0x10) ∨ c.rsv ≠ 0 := by
  rw [exists_decode_error_iff_not_hasOpcode, exists_hasOpcode_iff, exists_opc_eq_iff, not_and_or, not_and_or,
    Classical.not_imp]

/-! Encoding -/

theorem encode_hasOpcode {i : Instr} (h : i.wf = true) : (encode i).HasOpcode i.opcode := by
  cases i with
  | envDetect d n => exact Laws.OpcodeByte.envDetect d n h
  | lpfReset | lpfFilter | fmReset | fmDemod | crcCompute | crcVerify | frameDecode | frameParse =>
    exact Laws.OpcodeByte.of_plain rfl h

/-- The DEC field of ENV.DETECT holds its exponent. -/
theorem dec_encode_envDetect {d : Nat} (hd : d < 2 ^ 4) (n : Nat) : (encode (.envDetect d n)).dec.toNat = d := by
  have all (e : Fin (2 ^ 4)) :
      (Command.mk (plainCmd .envDetect ||| (BitVec.ofNat 32 e <<< 8)) 0 0 0).dec.toNat = e := by
    revert e; decide
  exact all ⟨d, hd⟩

theorem wordFits_iff {n : Nat} : wordFits n = true ↔ n < 2 ^ 32 := decide_eq_true_iff

theorem wordFits_toNat (w : Word) : wordFits w.toNat = true := decide_eq_true w.isLt

/-- An operand that fits its word is read back from it. -/
theorem toNat_ofNat_of_wordFits {n : Nat} (h : wordFits n = true) : (BitVec.ofNat 32 n).toNat = n :=
  Nat.mod_eq_of_lt (wordFits_iff.1 h)

/-- The operands of an instruction are read back from its words (R58, R61). -/
theorem assemble_encode {i : Instr} (h : i.wf = true) : assemble i.opcode (encode i) = i := by
  cases i with
  | envDetect d n =>
    obtain ⟨hd, hn⟩ := Bool.and_eq_true_iff.1 h
    exact congrArg₂ Instr.envDetect (dec_encode_envDetect (of_decide_eq_true hd) n) (toNat_ofNat_of_wordFits hn)
  | lpfReset | fmReset => rfl
  | lpfFilter n => exact congrArg Instr.lpfFilter (toNat_ofNat_of_wordFits h)
  | fmDemod n => exact congrArg Instr.fmDemod (toNat_ofNat_of_wordFits h)
  | frameDecode n => exact congrArg Instr.frameDecode (toNat_ofNat_of_wordFits h)
  | frameParse n => exact congrArg Instr.frameParse (toNat_ofNat_of_wordFits h)
  | crcCompute off len init =>
    obtain ⟨ho, hl⟩ := Bool.and_eq_true_iff.1 h
    have hinit : (init.setWidth 32).extractLsb' 0 16 = init := by
      rw [BitVec.extractLsb'_setWidth_of_le (by decide), BitVec.extractLsb'_eq_self]
    simp only [assemble, encode, Instr.opcode, toNat_ofNat_of_wordFits ho, toNat_ofNat_of_wordFits hl, hinit]
  | crcVerify off len =>
    obtain ⟨ho, hl⟩ := Bool.and_eq_true_iff.1 h
    exact congrArg₂ Instr.crcVerify (toNat_ofNat_of_wordFits ho) (toNat_ofNat_of_wordFits hl)

theorem assemble_opcode (op : Opcode) (c : Command) : (assemble op c).opcode = op := by
  cases op <;> rfl

theorem assemble_wf (op : Opcode) (c : Command) : (assemble op c).wf = true := by
  cases op <;> simp [assemble, Instr.wf, wordFits_toNat, decFits, c.dec.isLt]

theorem dec_encode_assemble {op : Opcode} {c : Command} (h : c.HasOpcode op) :
    (encode (assemble op c)).dec = c.dec := by
  obtain ⟨-, -, hdec⟩ := h
  cases op with
  | envDetect => exact BitVec.eq_of_toNat_eq (dec_encode_envDetect c.dec.isLt _)
  | lpfReset | lpfFilter | fmReset | fmDemod | crcCompute | crcVerify | frameDecode | frameParse =>
    have hz : c.dec = 0 := not_not.1 fun hd => nomatch hdec hd
    rw [hz]
    exact (Laws.OpcodeByte.plain_cmd _ _ _ _).2.2

/-! The obligations -/

/-- Settles O3: the fields of the words encoded name the instruction's own row, and assembling reads the operands
back. -/
theorem decodeOfEncodeIsIdentity : Obligations.DecodeOfEncodeIsIdentity := by
  intro i h
  rw [(encode_hasOpcode h).decode_eq, assemble_encode h]

/-- Settles O2: match and mask name the fields; two rows selected have the OPC of the word, so they are one. -/
theorem opcodeMapDecodesByMatchAndMask : Obligations.OpcodeMapDecodesByMatchAndMask := by
  constructor
  · intro c
    refine ⟨decode_of_match .envDetect, decode_of_match .lpfReset, decode_of_match .lpfFilter,
      decode_of_match .fmReset, decode_of_match .fmDemod, fun h => ?_, decode_of_match .crcVerify,
      decode_of_match .frameDecode, decode_of_match .frameParse⟩
    rw [BitVec.setWidth_eq_extractLsb' (by decide)]
    exact decode_of_match .crcCompute h
  · intro cmd r q hr hq hrs hqs
    have hop : r.op = q.op :=
      ((OpcodeRow.selects_iff hr ⟨cmd, 0, 0, 0⟩).1 hrs).unique ((OpcodeRow.selects_iff hq ⟨cmd, 0, 0, 0⟩).1 hqs)
    rw [mem_opcodeMap_iff.1 hr, mem_opcodeMap_iff.1 hq, hop]

/-- Settles O4: the fields of the word decoded and of the word encoded again are those of one row. -/
theorem decodedInstructionIsWellFormed : Obligations.DecodedInstructionIsWellFormed := by
  intro c i h
  obtain ⟨op, hop, rfl⟩ := decode_eq_ok_iff.1 h
  have hwf := assemble_wf op c
  have henc : (encode (assemble op c)).HasOpcode op := by
    simpa only [assemble_opcode] using encode_hasOpcode hwf
  exact ⟨hwf, henc.cmd_eq hop (dec_encode_assemble hop)⟩

/-- Settles O1: each word is evaluated. -/
theorem specWordsDecode : Obligations.SpecWordsDecode :=
  ⟨rfl, rfl, rfl, rfl, rfl, rfl, rfl, rfl, rfl, rfl, rfl, rfl, rfl⟩

end Sys2Proof
end

section
/-! A command issued to a block that is not halted, as a step (30_encoding.md R56, R60, 60_exceptions.md R116). -/

namespace Sys2Proof.Machine

open Sys2Proof

section
variable {s : State} {c : Command} {rest : List HostMove}

theorem step_of_decode_ok {i : Instr} (hp : s.port = .command c :: rest) (hh : s.halted = false)
    (h : decode c = .ok i) : step s = exec i { s with port := rest } := by
  have hr : ({ s with port := rest } : State).halted = false := hh
  simp [step_of_port hp, runMove, issue, hr, h]

theorem step_of_decode_error {e : DecodeError} (hp : s.port = .command c :: rest) (hh : s.halted = false)
    (h : decode c = .error e) : step s = .next (({ s with port := rest } : State).takeFault c.opc .illegalCmd) := by
  have hr : ({ s with port := rest } : State).halted = false := hh
  simp [step_of_port hp, runMove, issue, hr, h]

end

/-- Settles O5: a command without a row breaks one of the three fields; executed, it is fault entry with its OPC. -/
theorem illegalCommandFaults : Obligations.IllegalCommandFaults :=
  ⟨fun _ => exists_decode_error_iff, fun _ _ _ _ => step_of_decode_error⟩

/-- Settles O6: the issue of a command that decodes is exec. -/
theorem stepRunsDecodedInstruction : Obligations.StepRunsDecodedInstruction := fun _ _ _ _ => step_of_decode_ok

end Sys2Proof.Machine
end

section
/-! The square ROM and every path of ENV.DETECT (41_envelope.md R68 to R71). -/

namespace Sys2Proof.Machine

open Sys2Proof

/-! The square ROM -/

theorem sqRom_toNat_le (i : Byte) : (sqRom i).toNat ≤ 16384 := by
  have hi : (127 - (i.toNat : Int)) ^ 2 ≤ 128 ^ 2 := sq_le_sq' (by omega) (by omega)
  rw [← sqRom_toNat] at hi
  omega

theorem sqRom_toNat_eq_max_iff (i : Byte) : (sqRom i).toNat = 16384 ↔ i = 255 := by
  constructor
  · intro h
    have hs : (127 - (i.toNat : Int)) ^ 2 = 128 ^ 2 := by rw [← sqRom_toNat, h]; norm_num
    rcases sq_eq_sq_iff_eq_or_eq_neg.1 hs with h' | h'
    · omega
    · exact BitVec.eq_of_toNat_eq (show i.toNat = 255 by omega)
  · rintro rfl; decide

theorem sqRom_toNat_eq_zero_iff (i : Byte) : (sqRom i).toNat = 0 ↔ i = 127 := by
  constructor
  · intro h
    have hs : (127 - (i.toNat : Int)) ^ 2 = 0 := by rw [← sqRom_toNat, h]; rfl
    have hi : 127 - (i.toNat : Int) = 0 := sq_eq_zero_iff.1 hs
    exact BitVec.eq_of_toNat_eq (show i.toNat = 127 by omega)
  · rintro rfl; decide

/-- The table is symmetric about its centre (R69). -/
theorem sqRom_symm {i : Byte} (h : i.toNat ≤ 254) : sqRom i = sqRom (254 - i) := by
  have hs : (254 - i).toNat = 254 - i.toNat := BitVec.toNat_sub_of_le h
  have he : ((sqRom i).toNat : Int) = (sqRom (254 - i)).toNat := by
    rw [sqRom_toNat, sqRom_toNat, hs, Nat.cast_sub h]
    push_cast
    ring
  exact BitVec.eq_of_toNat_eq (by exact_mod_cast he)

/-- The sum of two entries does not wrap (R69). -/
theorem sqRom_add_toNat (i j : Byte) : (sqRom i + sqRom j).toNat = (sqRom i).toNat + (sqRom j).toNat := by
  have hi := sqRom_toNat_le i
  have hj := sqRom_toNat_le j
  exact BitVec.toNat_add_of_lt (by omega)

theorem sqRom_add_toNat_le (i j : Byte) : (sqRom i + sqRom j).toNat ≤ 32768 := by
  rw [sqRom_add_toNat]
  exact Nat.add_le_add (sqRom_toNat_le i) (sqRom_toNat_le j)

theorem sqRom_add_toNat_eq_max_iff (i j : Byte) : (sqRom i + sqRom j).toNat = 32768 ↔ i = 255 ∧ j = 255 := by
  have hi := sqRom_toNat_le i
  have hj := sqRom_toNat_le j
  rw [sqRom_add_toNat, ← sqRom_toNat_eq_max_iff i, ← sqRom_toNat_eq_max_iff j]
  omega

theorem sqRom_add_toNat_eq_zero_iff (i j : Byte) : (sqRom i + sqRom j).toNat = 0 ↔ i = 127 ∧ j = 127 := by
  rw [sqRom_add_toNat, Nat.add_eq_zero_iff, sqRom_toNat_eq_zero_iff, sqRom_toNat_eq_zero_iff]

/-- Settles O16: each entry is the square of at most 128, and 128 only at 255. -/
theorem squareRomContents : Obligations.SquareRomContents := by
  have hmax : (sqRom 255).toNat = 16384 := (sqRom_toNat_eq_max_iff 255).2 rfl
  exact ⟨sqRom_toNat, rfl, fun _ => sqRom_symm, fun i => hmax ▸ sqRom_toNat_le i, hmax,
    fun i j => sqRom_add_toNat i j ▸ sqRom_add_toNat_le i j⟩

/-! The faults of ENV.DETECT -/

theorem bind_pure_error_iff {ε α β : Type} {x : Except ε α} {f : α → β} {e : ε} :
    (x >>= fun a => (pure (f a) : Except ε β)) = .error e ↔ x = .error e := by
  simp [bind_error_iff]

/-- A read inside the memory faults only on an unwritten element. -/
theorem memRead_error_of_lt {α : Type} {size i : Nat} {m : Memory α} {r : FaultReason} (hi : i < size)
    (h : memRead size m i = .error r) : Memory.get? m i = none ∧ r = .unwrittenRead := by
  cases hg : Memory.get? m i with
  | none => rw [memRead_unwritten hi hg] at h; cases h; exact ⟨rfl, rfl⟩
  | some v => rw [memRead_of_get hi hg] at h; cases h

theorem envSample_error_of_lt {p : Params} {iq : Memory Byte} {i : Nat} {r : FaultReason} (hi : 2 * i + 1 < p.nIq)
    (h : envSample p iq i = .error r) :
    (Memory.get? iq (2 * i) = none ∨ Memory.get? iq (2 * i + 1) = none) ∧ r = .unwrittenRead := by
  rcases bind_error_iff.1 h with h | ⟨_, -, h⟩
  · exact (memRead_error_of_lt (by omega) h).imp_left .inl
  · exact (memRead_error_of_lt hi (bind_pure_error_iff.1 h)).imp_left .inr

/-- The loop faults only where one of its samples does. -/
theorem exists_envSample_error {p : Params} {iq : Memory Byte} {stride op m : Nat} {r : FaultReason}
    (h : envLoop p iq stride op m = .error r) : ∃ k < m, envSample p iq ((op + k) * stride) = .error r := by
  induction m generalizing op with
  | zero => cases h
  | succ m ih =>
    rcases bind_error_iff.1 h with h | ⟨_, -, h⟩
    · exact ⟨0, Nat.succ_pos m, h⟩
    · obtain ⟨k, hk, he⟩ := ih (bind_pure_error_iff.1 h)
      exact ⟨k + 1, Nat.succ_lt_succ hk, by rwa [Nat.add_assoc, Nat.add_comm 1 k] at he⟩

theorem envDetect_stride {s : State} {d n : Nat} (h : n % 2 ^ d ≠ 0) : envDetect d n s = .error .stride := by
  rw [envDetect, checkEnvDetect, strideOf, faultIf_true h, error_bind, error_bind]

theorem envDetect_bounds {s : State} {d n : Nat} (hd : n % 2 ^ d = 0)
    (h : s.params.nIq < 2 * n ∨ s.params.nEnv < n / 2 ^ d) : envDetect d n s = .error .bounds := by
  have hc : checkEnvDetect s.params d n = .error .bounds := by
    rw [checkEnvDetect, envOutputs, strideOf, faultIf_false (not_not_intro hd), ok_bind]
    by_cases hiq : s.params.nIq < 2 * n
    · rw [faultIf_true hiq, error_bind]
    · rw [faultIf_false hiq, ok_bind, faultIf_true (h.resolve_left hiq)]
  rw [envDetect, hc, error_bind]

/-- With operands in order, ENV.DETECT faults only on an unwritten byte of a sampled pair. -/
theorem envDetect_error_of_operands {s : State} {d n : Nat} {r : FaultReason} (hd : n % 2 ^ d = 0)
    (hiq : 2 * n ≤ s.params.nIq) (henv : n / 2 ^ d ≤ s.params.nEnv) (h : envDetect d n s = .error r) :
    (∃ op < n / 2 ^ d, Memory.get? s.iqIn (2 * (op * 2 ^ d)) = none ∨ Memory.get? s.iqIn (2 * (op * 2 ^ d) + 1) = none) ∧
      r = .unwrittenRead := by
  have hc : checkEnvDetect s.params d n = .ok () := checkEnvDetect_ok_iff.2 ⟨hd, hiq, henv⟩
  rw [envDetect, hc, ok_bind, bind_pure_error_iff] at h
  obtain ⟨op, hop, he⟩ := exists_envSample_error h
  have hpair : op * 2 ^ d < n := by
    calc op * 2 ^ d < n / 2 ^ d * 2 ^ d := Nat.mul_lt_mul_of_pos_right hop (Nat.two_pow_pos d)
      _ ≤ n := Nat.div_mul_le_self n _
  rw [Nat.zero_add, strideOf] at he
  obtain ⟨hu, hr⟩ := envSample_error_of_lt (by omega) he
  exact ⟨⟨op, hop, hu⟩, hr⟩

/-! What a completed ENV.DETECT leaves -/

section
variable {s t : State} {d n : Nat} (h : envDetect d n s = .ok t)
include h

/-- It read both bytes of every sampled pair, and wrote the sum of their entries. -/
theorem envDetect_element {op : Nat} (hop : op < n / 2 ^ d) :
    ∃ a b, Memory.get? s.iqIn (2 * (op * 2 ^ d)) = some a ∧ Memory.get? s.iqIn (2 * (op * 2 ^ d) + 1) = some b ∧
      Memory.get? t.envOut op = some (sqRom a + sqRom b) := by
  obtain ⟨-, es, hes, rfl⟩ := envDetect_ok_iff.1 h
  obtain ⟨hlen, hsample⟩ := envLoop_ok_iff.1 hes
  have hk : op < es.length := hlen ▸ hop
  obtain ⟨a, b, ha, hb, he⟩ := envSample_ok_iff.1 (hsample op hk)
  rw [Nat.zero_add] at ha hb
  have hout : Memory.get? (Memory.setRange s.envOut 0 es) (0 + op) = some es[op] := Memory.get?_setRange _ es hk
  rw [Nat.zero_add, he] at hout
  exact ⟨a, b, (memRead_ok_iff.1 ha).2, (memRead_ok_iff.1 hb).2, hout⟩

theorem envDetect_beyond {j : Nat} (hj : n / 2 ^ d ≤ j) : Memory.get? t.envOut j = Memory.get? s.envOut j := by
  obtain ⟨-, es, hes, rfl⟩ := envDetect_ok_iff.1 h
  have hlen := (envLoop_ok_iff.1 hes).1
  exact Memory.get?_setRange_of_ge _ es (by omega)

theorem envDetect_changes : t = { s with envOut := t.envOut, status := 1 } := by
  obtain ⟨-, es, -, rfl⟩ := envDetect_ok_iff.1 h
  rfl

end

/-- Settles O17: the commit faults by its operands or on an unwritten byte, or each element is the sum of two entries. -/
theorem envDetectCommand : Obligations.EnvDetectCommand := by
  intro s d n
  refine ⟨fun hd => finish_error (envDetect_stride hd), fun hd h => finish_error (envDetect_bounds hd h),
    fun hd hiq henv => ⟨fun op hop hu => ?_, fun I Q hIQ => ?_⟩⟩
  · cases hc : envDetect d n s with
    | ok t =>
      obtain ⟨a, b, ha, hb, -⟩ := envDetect_element hc hop
      simp [ha, hb] at hu
    | error r =>
      obtain ⟨-, rfl⟩ := envDetect_error_of_operands hd hiq henv hc
      exact finish_error hc
  · cases hc : envDetect d n s with
    | error r =>
      obtain ⟨⟨op, hop, hu⟩, -⟩ := envDetect_error_of_operands hd hiq henv hc
      simp [hIQ op hop] at hu
    | ok t =>
      refine ⟨t, finish_ok hc, envDetect_changes hc, fun op hop => ?_, fun j => envDetect_beyond hc⟩
      obtain ⟨a, b, ha, hb, he⟩ := envDetect_element hc hop
      obtain rfl : a = I op := Option.some.inj (ha.symm.trans (hIQ op hop).1)
      obtain rfl : b = Q op := Option.some.inj (hb.symm.trans (hIQ op hop).2)
      refine ⟨_, he, ?_, sqRom_add_toNat_eq_max_iff _ _, sqRom_add_toNat_eq_zero_iff _ _⟩
      rw [sqRom_add_toNat, Nat.cast_add, sqRom_toNat, sqRom_toNat]

/-- Settles O18: STATUS 1 rules out fault entry, and an element written is the sum of two entries. -/
theorem envelopeSamplesInRange : Obligations.EnvelopeSamplesInRange := by
  intro s t d n op h hst hop
  rcases exec_next_iff.1 h with hc | ⟨r, -, rfl⟩
  · obtain ⟨a, b, -, -, he⟩ := envDetect_element hc hop
    exact ⟨_, he, sqRom_add_toNat_le a b⟩
  · exact absurd hst (by rw [State.takeFault_status]; decide)

/-- Settles O19: the commit writes its range and STATUS, fault entry STATUS and FAULT. -/
theorem envDetectFrame : Obligations.EnvDetectFrame := by
  intro s t d n h
  rcases exec_next_iff.1 h with hc | ⟨r, -, rfl⟩
  · refine ⟨?_, fun j => envDetect_beyond hc⟩
    rw [envDetect_changes hc]
  · exact ⟨rfl, fun _ _ => rfl⟩

end Sys2Proof.Machine
end

section
/-! The Q15 kernel (42_lowpass.md R73, R74): where it answers, what it answers, and its distance from the exact floor. -/

namespace Sys2Proof.Machine

open Sys2Proof

/-! The kernel's answer -/

/-- Everything an answer of the kernel says. -/
theorem lpfKernel_ok_iff {c : Coefs} {x xp yp v : Int} :
    lpfKernel c x xp yp = .ok v ↔ KernelFits c x xp yp ∧ v = kernelValue c x xp yp := by
  simp only [lpfKernel, bind_ok_iff, chk32_ok_iff, asr_eq_ediv, pure_eq_ok, ok_eq_ok_iff]
  constructor
  · rintro ⟨_, ⟨h1, rfl⟩, _, ⟨h2, rfl⟩, _, ⟨h3, rfl⟩, _, ⟨h4, rfl⟩, _, ⟨h5, rfl⟩, rfl⟩
    exact ⟨⟨h1, h2, h3, h4, h5⟩, rfl⟩
  · rintro ⟨⟨h1, h2, h3, h4, h5⟩, rfl⟩
    exact ⟨_, ⟨h1, rfl⟩, _, ⟨h2, rfl⟩, _, ⟨h3, rfl⟩, _, ⟨h4, rfl⟩, _, ⟨h5, rfl⟩, rfl⟩

theorem lpfKernel_of_fits {c : Coefs} {x xp yp : Int} (h : KernelFits c x xp yp) :
    lpfKernel c x xp yp = .ok (kernelValue c x xp yp) := lpfKernel_ok_iff.2 ⟨h, rfl⟩

/-- The kernel's only fault. -/
theorem lpfKernel_error_eq {c : Coefs} {x xp yp : Int} {r : FaultReason} (h : lpfKernel c x xp yp = .error r) :
    r = .overflow := by
  simp only [lpfKernel, bind_error_iff, chk32_error_iff, pure_eq_ok] at h
  obtain ⟨-, rfl⟩ | ⟨_, -, ⟨-, rfl⟩ | ⟨_, -, ⟨-, rfl⟩ | ⟨_, -, ⟨-, rfl⟩ | ⟨_, -, ⟨-, rfl⟩ | ⟨_, -, ⟨⟩⟩⟩⟩⟩⟩ := h
    <;> rfl

theorem lpfKernel_of_not_fits {c : Coefs} {x xp yp : Int} (h : ¬KernelFits c x xp yp) :
    lpfKernel c x xp yp = .error .overflow := by
  cases hk : lpfKernel c x xp yp with
  | ok v => exact absurd (lpfKernel_ok_iff.1 hk).1 h
  | error r => rw [lpfKernel_error_eq hk]

/-- Settles O20: the five checks are the five clauses of KernelFits. -/
theorem kernelValueOrOverflow : Obligations.KernelValueOrOverflow :=
  fun _ _ _ _ => ⟨lpfKernel_of_fits, lpfKernel_of_not_fits⟩

/-! The laws of the kernel -/

/-- Three floors and a floor by 2^14 against one floor by 2^15: the halvings lose at most 3/2. -/
theorem floorOfHalves_bounds (p q r : Int) :
    (p / 2 + q / 2 + r / 2) / 2 ^ 14 ≤ (p + q + r) / 2 ^ 15 ∧
      (p + q + r) / 2 ^ 15 - 1 ≤ (p / 2 + q / 2 + r / 2) / 2 ^ 14 := by omega

/-- With one odd product the halvings lose 1/2, which the floor loses anyway. -/
theorem floorOfHalves_eq {p q r : Int} (h : p % 2 + q % 2 + r % 2 ≤ 1) :
    (p / 2 + q / 2 + r / 2) / 2 ^ 14 = (p + q + r) / 2 ^ 15 := by omega

theorem mul_emod_two_of_even {a : Int} (h : a % 2 = 0) (b : Int) : a * b % 2 = 0 := by
  rw [Int.mul_emod, h, Int.zero_mul, Int.zero_emod]

theorem kernelValue_nonneg {c : Coefs} {x xp yp : Int} (ha : 0 ≤ c.a1.toInt) (hb0 : 0 ≤ c.b0.toInt)
    (hb1 : 0 ≤ c.b1.toInt) (hx : 0 ≤ x) (hxp : 0 ≤ xp) (hyp : 0 ≤ yp) : 0 ≤ kernelValue c x xp yp := by
  have h1 : 0 ≤ c.a1.toInt * yp := Int.mul_nonneg ha hyp
  have h2 : 0 ≤ c.b0.toInt * x := Int.mul_nonneg hb0 hx
  have h3 : 0 ≤ c.b1.toInt * xp := Int.mul_nonneg hb1 hxp
  rw [kernelValue]
  omega

/-- An output of -1 at zero input stays: half of -a1 is between -2^14 and -1. -/
theorem lpfKernel_neg_one {c : Coefs} (ha : 0 < c.a1.toInt) : lpfKernel c 0 0 (-1) = .ok (-1) := by
  have hlt : c.a1.toInt < 2 ^ 15 := BitVec.toInt_lt
  refine lpfKernel_ok_iff.2 ⟨?_, ?_⟩
  · simp only [KernelFits, Int.mul_zero]
    omega
  · simp only [kernelValue, Int.mul_zero]
    omega

theorem lpfKernel_zero (c : Coefs) : lpfKernel c 0 0 0 = .ok 0 := by
  refine lpfKernel_ok_iff.2 ⟨?_, ?_⟩
  · simp only [KernelFits, Int.mul_zero]
    decide
  · simp only [kernelValue, Int.mul_zero]
    decide

/-- Settles O21: each law is one of `kernelValue`, an integer formula. -/
theorem kernelLaws : Obligations.KernelLaws := by
  refine ⟨fun c x xp yp v h => ?_, fun _ => lpfKernel_neg_one, lpfKernel_zero,
    fun c x xp yp v ha hb0 hb1 hx hxp hyp h => ?_, rfl, by decide⟩
  · obtain ⟨-, rfl⟩ := lpfKernel_ok_iff.1 h
    obtain ⟨hle, hge⟩ := floorOfHalves_bounds (c.a1.toInt * yp) (c.b0.toInt * x) (c.b1.toInt * xp)
    refine ⟨hle, hge, floorOfHalves_eq, fun hb0 hb1 => floorOfHalves_eq ?_⟩
    rw [mul_emod_two_of_even hb0, mul_emod_two_of_even hb1]
    omega
  · obtain ⟨-, rfl⟩ := lpfKernel_ok_iff.1 h
    exact kernelValue_nonneg ha hb0 hb1 hx hxp hyp

end Sys2Proof.Machine
end

section
/-! LPF.RESET and every path of LPF.FILTER (42_lowpass.md R75, R76). -/

namespace Sys2Proof.Machine

open Sys2Proof

/-- Settles O22: the commit is the state itself. -/
theorem lpfResetCompletes : Obligations.LpfResetCompletes := fun _ =>
  exec_next_iff.2 (.inl (lpfReset_ok_iff.2 rfl))

/-! The faults of the operands -/

theorem lpfFilter_stateUninit {s : State} {len : Nat} (h : s.lpfValid = false) :
    lpfFilter len s = .error .stateUninit := by
  rw [lpfFilter, checkLpfFilter, faultIf_true h, error_bind, error_bind]

theorem lpfFilter_lenContract {s : State} {len : Nat} (hv : s.lpfValid = true) (h : len ≤ 1) :
    lpfFilter len s = .error .lenContract := by
  rw [lpfFilter, checkLpfFilter, faultIf_false (by simp [hv]), ok_bind, faultIf_true (c := len ≤ filterOrder) h,
    error_bind, error_bind]

theorem lpfFilter_bounds {s : State} {len : Nat} (hv : s.lpfValid = true) (h2 : 2 ≤ len)
    (h : s.params.nEnv < len ∨ s.params.nLpf < len) : lpfFilter len s = .error .bounds := by
  rw [lpfFilter, checkLpfFilter, faultIf_false (by simp [hv]), ok_bind,
    faultIf_false (c := len ≤ filterOrder) (Nat.not_le.2 h2), ok_bind, faultIf_true h, error_bind]

/-- With operands in order, LPF.FILTER faults with its loop. -/
theorem lpfFilter_of_loop_error {s : State} {len : Nat} {r : FaultReason} (hv : s.lpfValid = true) (h2 : 2 ≤ len)
    (hEnv : len ≤ s.params.nEnv) (hLpf : len ≤ s.params.nLpf)
    (h : lpfLoop s.params s.envOut 0 len ⟨s.lpfXp, s.lpfYp⟩ = .error r) : lpfFilter len s = .error r := by
  have hc : checkLpfFilter s.params s.lpfValid len = .ok () := checkLpfFilter_ok_iff.2 ⟨hv, h2, hEnv, hLpf⟩
  rw [lpfFilter, hc, ok_bind, h, error_bind]

/-! One sample -/

/-- The formula for wrap_N (R13) is the two's complement of N bits. -/
theorem wrapsTo_toInt_iff {N : Nat} {v : Int} {b : BitVec N} : WrapsTo N v b.toInt ↔ b = BitVec.ofInt N v := by
  have hcast : ((2 ^ N : Nat) : Int) = 2 ^ N := Nat.cast_pow 2 N
  constructor
  · rintro ⟨-, -, h⟩
    have hmod : b.toInt.bmod (2 ^ N) = v.bmod (2 ^ N) := by
      rw [← Int.emod_bmod, ← Int.emod_bmod v, hcast, Int.emod_eq_emod_iff_emod_sub_eq_zero.2 h]
    exact BitVec.eq_of_toInt_eq (by rw [BitVec.toInt_ofInt, ← hmod, BitVec.toInt_bmod_cancel])
  · rintro rfl
    refine ⟨BitVec.le_toInt _, Int.le_sub_one_of_lt BitVec.toInt_lt, ?_⟩
    rw [BitVec.toInt_ofInt, ← Int.emod_eq_emod_iff_emod_sub_eq_zero, ← hcast, Int.bmod_emod]

section
variable {c : Coefs} {xp yp : Half} {x y : Nat → Half} {i : Nat}

/-- The loop's sample is the one of R76. -/
theorem lpfSample_ok_iff :
    lpfSample c ⟨prevOr xp x i, prevOr yp y i⟩ (x i) = .ok (y i) ↔ LpfSampleAt c xp yp x y i := by
  simp only [lpfSample, bind_ok_iff, lpfKernel_ok_iff, pure_eq_ok, ok_eq_ok_iff, LpfSampleAt, LpfFitsAt,
    wrapsTo_toInt_iff]
  exact ⟨fun ⟨_, ⟨hf, hv⟩, hy⟩ => ⟨hf, hv ▸ hy⟩, fun ⟨hf, hy⟩ => ⟨_, ⟨hf, rfl⟩, hy⟩⟩

theorem lpfSample_of_not_fits (h : ¬LpfFitsAt c xp yp x y i) :
    lpfSample c ⟨prevOr xp x i, prevOr yp y i⟩ (x i) = .error .overflow := by
  rw [lpfSample, lpfKernel_of_not_fits h, error_bind]

end

/-! The loop from the carried history on -/

/-- The first m samples of the loop are written, and each output is the one of R76. -/
def LpfRuns (p : Params) (env : Memory Half) (xp yp : Half) (x y : Nat → Half) (m : Nat) : Prop :=
  ∀ i, i < m → Memory.get? env i = some (x i) ∧ LpfSampleAt p.coefEnv xp yp x y i

section
variable {p : Params} {env : Memory Half} {xp yp : Half} {x y : Nat → Half} {m : Nat}

/-- Samples that run give their outputs, and the last input and output as history. -/
theorem lpfLoop_of_runs (hm : m ≤ p.nEnv) (h : LpfRuns p env xp yp x y m) :
    lpfLoop p env 0 m ⟨xp, yp⟩ = .ok ((List.range m).map y, ⟨prevOr xp x m, prevOr yp y m⟩) := by
  induction m with
  | zero => rfl
  | succ m ih =>
    obtain ⟨hx, hs⟩ := h m (Nat.lt_succ_self m)
    rw [lpfLoop_add, ih (by omega) fun i hi => h i (by omega), ok_bind, Nat.zero_add, lpfLoop,
      memRead_of_get (by omega) hx, ok_bind, lpfSample_ok_iff.2 hs, ok_bind, lpfLoop, ok_bind, List.range_succ,
      List.map_append]
    rfl

/-- After samples that run, a longer loop goes on at the next one. -/
theorem lpfLoop_after_runs {len : Nat} (hm : m < len) (hlen : len ≤ p.nEnv) (h : LpfRuns p env xp yp x y m)
    {r : FaultReason} (hr : lpfLoop p env m (len - m) ⟨prevOr xp x m, prevOr yp y m⟩ = .error r) :
    lpfLoop p env 0 len ⟨xp, yp⟩ = .error r := by
  rw [show len = m + (len - m) by omega, lpfLoop_add, lpfLoop_of_runs (by omega) h, ok_bind, Nat.zero_add, hr, error_bind]

/-- The first sample that is unwritten decides. -/
theorem lpfLoop_unwritten {len : Nat} (hm : m < len) (hlen : len ≤ p.nEnv) (h : LpfRuns p env xp yp x y m)
    (hx : Memory.get? env m = none) : lpfLoop p env 0 len ⟨xp, yp⟩ = .error .unwrittenRead := by
  refine lpfLoop_after_runs hm hlen h ?_
  obtain ⟨k, hk⟩ : ∃ k, len - m = k + 1 := ⟨len - m - 1, by omega⟩
  rw [hk, lpfLoop, memRead_unwritten (by omega) hx, error_bind]

/-- The first sample whose kernel does not fit decides. -/
theorem lpfLoop_overflow {len : Nat} (hm : m < len) (hlen : len ≤ p.nEnv) (h : LpfRuns p env xp yp x y m)
    (hx : Memory.get? env m = some (x m)) (hf : ¬LpfFitsAt p.coefEnv xp yp x y m) :
    lpfLoop p env 0 len ⟨xp, yp⟩ = .error .overflow := by
  refine lpfLoop_after_runs hm hlen h ?_
  obtain ⟨k, hk⟩ : ∃ k, len - m = k + 1 := ⟨len - m - 1, by omega⟩
  rw [hk, lpfLoop, memRead_of_get (by omega) hx, ok_bind, lpfSample_of_not_fits hf, error_bind]

end

/-! What a completed LPF.FILTER leaves -/

/-- Samples that run to the end complete the command. -/
theorem lpfFilter_of_runs {s : State} {len : Nat} {x y : Nat → Half} (hv : s.lpfValid = true) (h2 : 2 ≤ len)
    (hEnv : len ≤ s.params.nEnv) (hLpf : len ≤ s.params.nLpf)
    (h : LpfRuns s.params s.envOut s.lpfXp s.lpfYp x y len) :
    lpfFilter len s = .ok { s with
      lpfOut := Memory.setRange s.lpfOut 0 ((List.range len).map y)
      lpfXp := x (len - 1)
      lpfYp := y (len - 1)
      status := 1 } := by
  obtain ⟨n, rfl⟩ : ∃ n, len = n + 1 := ⟨len - 1, by omega⟩
  exact lpfFilter_ok_iff.2 ⟨⟨hv, h2, hEnv, hLpf⟩, _, _, lpfLoop_of_runs hEnv h, rfl⟩

theorem get?_setRange_map_range {α : Type} (m : Memory α) (f : Nat → α) {n i : Nat} (h : i < n) :
    Memory.get? (Memory.setRange m 0 ((List.range n).map f)) i = some (f i) := by
  have hk : i < ((List.range n).map f).length := by simpa using h
  have hg := Memory.get?_setRange m (i := 0) _ hk
  simpa only [Nat.zero_add, List.getElem_map, List.getElem_range] using hg

theorem lpfFilter_beyond {s t : State} {len : Nat} (h : lpfFilter len s = .ok t) {i : Nat} (hi : len ≤ i) :
    Memory.get? t.lpfOut i = Memory.get? s.lpfOut i := by
  obtain ⟨-, ys, g, hys, rfl⟩ := lpfFilter_ok_iff.1 h
  have hlen := lpfLoop_length hys
  exact Memory.get?_setRange_of_ge _ ys (by omega)

/-- Settles O23: the checks decide in their order, then the loop at its first sample that does not run. -/
theorem lpfFilterCommand : Obligations.LpfFilterCommand := by
  intro s len
  refine ⟨fun hv => finish_error (lpfFilter_stateUninit hv), fun hv h => finish_error (lpfFilter_lenContract hv h),
    fun hv h2 h => finish_error (lpfFilter_bounds hv h2 h),
    fun hv h2 hEnv hLpf x y => ⟨fun m hm hrun => ⟨fun hx => ?_, fun hx hf => ?_⟩, fun hrun => ?_⟩⟩
  · exact finish_error (lpfFilter_of_loop_error hv h2 hEnv hLpf (lpfLoop_unwritten hm hEnv hrun hx))
  · exact finish_error (lpfFilter_of_loop_error hv h2 hEnv hLpf (lpfLoop_overflow hm hEnv hrun hx hf))
  · have hc := lpfFilter_of_runs hv h2 hEnv hLpf hrun
    exact ⟨_, finish_ok hc, rfl, fun i hi => get?_setRange_map_range _ y hi, fun i hi => lpfFilter_beyond hc hi⟩

/-- Settles O27: LPF.RESET always commits; the commit of LPF.FILTER writes its range, the history and STATUS, fault entry
STATUS and FAULT. -/
theorem lpfCommandsFrame : Obligations.LpfCommandsFrame := by
  constructor
  · intro s t h
    rw [lpfResetCompletes s] at h
    cases h
    rfl
  · intro s t len h
    rcases exec_next_iff.1 h with hc | ⟨r, -, rfl⟩
    · refine ⟨?_, fun i => lpfFilter_beyond hc⟩
      obtain ⟨-, ys, g, -, rfl⟩ := lpfFilter_ok_iff.1 hc
      rfl
    · exact ⟨rfl, fun _ _ => rfl⟩

end Sys2Proof.Machine
end

section
/-! The reference coefficients (42_lowpass.md R78, R79): no overflow and no wrap, and the fixed point of a constant
input. -/

namespace Sys2Proof.Machine

open Sys2Proof

/-- COEF_ENV as the reference parameters have it (R10). -/
abbrev referenceCoefs : Coefs := ⟨31754, 506, 506⟩

/-! The kernel with the reference coefficients -/

theorem toInt_referenceCoefs : (31754 : Half).toInt = 31754 ∧ (506 : Half).toInt = 506 := by decide

/-- All three coefficients are even, so nothing is lost by the halvings. -/
theorem kernelValue_reference (x xp yp : Int) :
    kernelValue referenceCoefs x xp yp = (15877 * yp + 253 * x + 253 * xp) / 2 ^ 14 := by
  simp only [kernelValue, toInt_referenceCoefs]
  omega

/-- The operands of R78. -/
def ReferenceRange (x xp yp : Int) : Prop :=
  (0 ≤ x ∧ x ≤ 32768) ∧ (0 ≤ xp ∧ xp ≤ 32768) ∧ 0 ≤ yp ∧ yp ≤ 32767

section
variable {x xp yp : Int} (h : ReferenceRange x xp yp)
include h

theorem kernelFits_of_referenceRange : KernelFits referenceCoefs x xp yp := by
  obtain ⟨hx, hxp, hyp⟩ := h
  simp only [KernelFits, toInt_referenceCoefs]
  omega

/-- The bound of R78. -/
theorem kernelValue_mem_of_referenceRange :
    0 ≤ kernelValue referenceCoefs x xp yp ∧ kernelValue referenceCoefs x xp yp ≤ 32765 := by
  obtain ⟨hx, hxp, hyp⟩ := h
  rw [kernelValue_reference]
  omega

theorem wrap16_kernelValue_of_referenceRange :
    (wrap16 (kernelValue referenceCoefs x xp yp)).toInt = kernelValue referenceCoefs x xp yp := by
  have hv := kernelValue_mem_of_referenceRange h
  exact wrap16_toInt (by omega)

end

/-! LPF.FILTER with the reference coefficients -/

/-- The stored outputs of R76 on inputs x from the history (xp, yp), where every kernel fits. -/
def lpfOutputs (c : Coefs) (xp yp : Half) (x : Nat → Half) : Nat → Half
  | 0 => wrap16 (kernelValue c ((x 0).toNat : Int) (xp.toNat : Int) yp.toInt)
  | i + 1 => wrap16 (kernelValue c ((x (i + 1)).toNat : Int) ((x i).toNat : Int) (lpfOutputs c xp yp x i).toInt)

theorem lpfOutputs_eq (c : Coefs) (xp yp : Half) (x : Nat → Half) (i : Nat) :
    lpfOutputs c xp yp x i = wrap16 (kernelValue c ((x i).toNat : Int) ((prevOr xp x i).toNat : Int)
      (prevOr yp (lpfOutputs c xp yp x) i).toInt) := by
  cases i <;> rfl

theorem lpfSampleAt_lpfOutputs {c : Coefs} {xp yp : Half} {x : Nat → Half} {i : Nat}
    (h : LpfFitsAt c xp yp x (lpfOutputs c xp yp x) i) : LpfSampleAt c xp yp x (lpfOutputs c xp yp x) i :=
  ⟨h, wrapsTo_toInt_iff.2 (lpfOutputs_eq c xp yp x i)⟩

/-- The operands of sample i are in the range of R78. -/
def ReferenceRangeAt (xp yp : Half) (x y : Nat → Half) (i : Nat) : Prop :=
  ReferenceRange ((x i).toNat : Int) ((prevOr xp x i).toNat : Int) (prevOr yp y i).toInt

section
variable {xp yp : Half} {x : Nat → Half}

theorem lpfOutputs_toInt_of_referenceRange {i : Nat}
    (h : ReferenceRangeAt xp yp x (lpfOutputs referenceCoefs xp yp x) i) :
    (lpfOutputs referenceCoefs xp yp x i).toInt = kernelValue referenceCoefs ((x i).toNat : Int)
      ((prevOr xp x i).toNat : Int) (prevOr yp (lpfOutputs referenceCoefs xp yp x) i).toInt := by
  rw [lpfOutputs_eq]
  exact wrap16_kernelValue_of_referenceRange h

theorem lpfOutputs_mem_of_referenceRange {i : Nat}
    (h : ReferenceRangeAt xp yp x (lpfOutputs referenceCoefs xp yp x) i) :
    0 ≤ (lpfOutputs referenceCoefs xp yp x i).toInt ∧ (lpfOutputs referenceCoefs xp yp x i).toInt ≤ 32765 := by
  rw [lpfOutputs_toInt_of_referenceRange h]
  exact kernelValue_mem_of_referenceRange h

/-- The induction of R78: an output in range is a history in range for the next sample. -/
theorem referenceRangeAt_of_inputs {len : Nat} (hx : ∀ i, i < len → (x i).toNat ≤ 32768) (hxp : xp.toNat ≤ 32768)
    (hyp : 0 ≤ yp.toInt ∧ yp.toInt ≤ 32767) {i : Nat} (hi : i < len) :
    ReferenceRangeAt xp yp x (lpfOutputs referenceCoefs xp yp x) i := by
  have range (k : Half) (hk : k.toNat ≤ 32768) : 0 ≤ (k.toNat : Int) ∧ (k.toNat : Int) ≤ 32768 := by omega
  induction i with
  | zero => exact ⟨range _ (hx 0 hi), range _ hxp, hyp⟩
  | succ i ih =>
    have hy := lpfOutputs_mem_of_referenceRange (ih (by omega))
    exact ⟨range _ (hx (i + 1) hi), range _ (hx i (by omega)), hy.1, hy.2.trans (by decide)⟩

end

/-- Settles O24: every sample has its operands in range, so the samples run and the command completes. -/
theorem referenceFilterNeverOverflows : Obligations.ReferenceFilterNeverOverflows := by
  intro s len x hc hv h2 hEnv hLpf hx hxp hy0 hy1
  have hr : ∀ i, i < len → ReferenceRangeAt s.lpfXp s.lpfYp x (lpfOutputs referenceCoefs s.lpfXp s.lpfYp x) i :=
    fun _ => referenceRangeAt_of_inputs (fun i hi => (hx i hi).2) hxp ⟨hy0, hy1⟩
  have hrun : LpfRuns s.params s.envOut s.lpfXp s.lpfYp x (lpfOutputs referenceCoefs s.lpfXp s.lpfYp x) len :=
    fun i hi => ⟨(hx i hi).1, hc ▸ lpfSampleAt_lpfOutputs (kernelFits_of_referenceRange (hr i hi))⟩
  have hlast := lpfOutputs_mem_of_referenceRange (hr (len - 1) (by omega))
  refine ⟨_, lpfOutputs referenceCoefs s.lpfXp s.lpfYp x, finish_ok (lpfFilter_of_runs hv h2 hEnv hLpf hrun), rfl,
    (hx (len - 1) (by omega)).2, hlast.1, hlast.2, fun i hi => ?_⟩
  obtain ⟨hlo, hhi⟩ := lpfOutputs_mem_of_referenceRange (hr i hi)
  refine ⟨get?_setRange_map_range _ _ hi, hlo, hhi, ?_⟩
  rw [hc, lpfOutputs_toInt_of_referenceRange (hr i hi)]
  exact lpfKernel_of_fits (kernelFits_of_referenceRange (hr i hi))

/-! A constant input from the zero history -/

/-- y is the sequence of the kernel's values for the constant input X from the zero history (R79). -/
structure ConstantRun (X : Int) (y : Nat → Int) : Prop where
  first : y 0 = kernelValue referenceCoefs X 0 0
  next (i : Nat) : y (i + 1) = kernelValue referenceCoefs X X (y i)

/-- The sequence itself. -/
def constantOutputs (X : Int) : Nat → Int
  | 0 => kernelValue referenceCoefs X 0 0
  | i + 1 => kernelValue referenceCoefs X X (constantOutputs X i)

theorem constantRun_constantOutputs (X : Int) : ConstantRun X (constantOutputs X) := ⟨rfl, fun _ => rfl⟩

theorem kernelValue_reference_mono {x xp v w : Int} (h : v ≤ w) :
    kernelValue referenceCoefs x xp v ≤ kernelValue referenceCoefs x xp w := by
  rw [kernelValue_reference, kernelValue_reference]
  omega

/-- Below a value that the kernel raises, it raises every value. -/
theorem lt_kernelValue_of_le {x xp v w : Int} (hw : w < kernelValue referenceCoefs x xp w) (h : v ≤ w) :
    v < kernelValue referenceCoefs x xp v := by
  rw [kernelValue_reference] at hw ⊢
  omega

/-- Y is where the kernel comes to rest on a constant input X, rising from 0: a fixed point, and Y - 1 is still raised. -/
abbrev RestsAt (X Y : Int) : Prop :=
  0 ≤ Y ∧ kernelValue referenceCoefs X X Y = Y ∧ (Y = 0 ∨ Y - 1 < kernelValue referenceCoefs X X (Y - 1))

section
variable {X : Int} {y : Nat → Int} (h : ConstantRun X y)
include h

namespace ConstantRun

/-- No output passes a fixed point of the kernel. -/
theorem le_fixed {Y : Int} (hY : 0 ≤ Y) (hfix : kernelValue referenceCoefs X X Y = Y) (i : Nat) : y i ≤ Y := by
  induction i with
  | zero =>
    rw [h.first]
    rw [kernelValue_reference] at hfix ⊢
    omega
  | succ i ih =>
    rw [h.next, ← hfix]
    exact kernelValue_reference_mono ih

variable (hX : 0 ≤ X ∧ X ≤ 32768)
include hX

theorem mem (i : Nat) : 0 ≤ y i ∧ y i ≤ 32765 := by
  induction i with
  | zero =>
    rw [h.first]
    exact kernelValue_mem_of_referenceRange ⟨hX, by decide, by decide⟩
  | succ i ih =>
    rw [h.next]
    exact kernelValue_mem_of_referenceRange ⟨hX, hX, ih.1, ih.2.trans (by decide)⟩

theorem referenceRange (i : Nat) : ReferenceRange X X (y i) :=
  ⟨hX, hX, (h.mem hX i).1, (h.mem hX i).2.trans (by decide)⟩

/-- The kernel is monotone, and without the previous input of the first sample it gives no more. -/
theorem le_next (i : Nat) : y i ≤ y (i + 1) := by
  induction i with
  | zero =>
    have h0 := h.mem hX 0
    rw [h.next, kernelValue_reference]
    rw [h.first, kernelValue_reference] at h0 ⊢
    omega
  | succ i ih =>
    rw [h.next i, h.next (i + 1)]
    exact kernelValue_reference_mono ih

/-- A rising sequence of bounded integers is constant from where it takes its largest value on. -/
theorem exists_constant : ∃ N, ∀ i, N ≤ i → y i = y N := by
  have hbdd : ∃ b, ∀ v, (∃ i, y i = v) → v ≤ b := ⟨32765, by rintro _ ⟨i, rfl⟩; exact (h.mem hX i).2⟩
  obtain ⟨_, ⟨N, rfl⟩, hmax⟩ := Int.exists_greatest_of_bdd hbdd ⟨y 0, 0, rfl⟩
  exact ⟨N, fun i hi => le_antisymm (hmax _ ⟨i, rfl⟩) (monotone_nat_of_le_succ (h.le_next hX) hi)⟩

/-- The outputs end in the value at which the kernel comes to rest: a smaller value would be raised. -/
theorem exists_eq_of_restsAt {Y : Int} (hY : RestsAt X Y) : ∃ N, ∀ i, N ≤ i → y i = Y := by
  obtain ⟨hY0, hfix, hlow⟩ := hY
  obtain ⟨N, hN⟩ := h.exists_constant hX
  have hrest : kernelValue referenceCoefs X X (y N) = y N := by rw [← h.next, hN (N + 1) (by omega)]
  have hle := h.le_fixed hY0 hfix N
  have hge : Y ≤ y N := by
    by_contra hlt
    rcases hlow with rfl | hlow
    · exact hlt (h.mem hX N).1
    · have := lt_kernelValue_of_le hlow (v := y N) (by omega)
      omega
  exact ⟨N, fun i hi => (hN i hi).trans (le_antisymm hle hge)⟩

end ConstantRun

end

/-- R79's values. -/
theorem restsAt_of_mem {q : Int × Int}
    (h : q ∈ ([(1, 0), (10, 0), (100, 68), (1000, 966), (10000, 9948), (32768, 32672)] : List (Int × Int))) :
    (0 ≤ q.1 ∧ q.1 ≤ 32768) ∧ RestsAt q.1 q.2 := by
  revert q
  decide

/-- Settles O25: the kernel's values rise and are bounded; where they stay the kernel has a fixed point, and that is the
first value it does not raise. -/
theorem referenceOutputsRiseToFixedPoint : Obligations.ReferenceOutputsRiseToFixedPoint := by
  refine ⟨fun X hX0 hX1 => ?_, fun X Y y hXY h0 hnext => ?_⟩
  · have hX : 0 ≤ X ∧ X ≤ 32768 := ⟨hX0, hX1⟩
    have h := constantRun_constantOutputs X
    have hk (i : Nat) : lpfKernel referenceCoefs X X (constantOutputs X i) = .ok (constantOutputs X (i + 1)) :=
      lpfKernel_of_fits (kernelFits_of_referenceRange (h.referenceRange hX i))
    obtain ⟨N, hN⟩ := h.exists_constant hX
    refine ⟨constantOutputs X, lpfKernel_of_fits (kernelFits_of_referenceRange ⟨hX, by decide, by decide⟩), hk,
      fun i => ?_, N, ?_, hN⟩
    · obtain ⟨hlo, hhi⟩ := h.mem hX i
      exact ⟨hlo, hhi.trans (by decide), h.le_next hX i⟩
    · rw [hk, hN (N + 1) (by omega)]
  · have h : ConstantRun X y := ⟨(lpfKernel_ok_iff.1 h0).2, fun i => (lpfKernel_ok_iff.1 (hnext i)).2⟩
    obtain ⟨hX, hY⟩ := restsAt_of_mem hXY
    exact h.exists_eq_of_restsAt hX hY

end Sys2Proof.Machine
end

section
/-! The FM step (43_fm_demod.md R80 to R83): where it answers and what it answers, the range of the phase difference,
and the leak of the DC blocker. -/

namespace Sys2Proof.Machine

open Sys2Proof

/-! The phase difference -/

theorem mul_bounds_of_iqRange {a b : Int} (ha : -128 ≤ a ∧ a ≤ 127) (hb : -128 ≤ b ∧ b ≤ 127) :
    -16256 ≤ a * b ∧ a * b ≤ 16384 := by
  obtain ⟨ha0, ha1⟩ := ha
  obtain ⟨hb0, hb1⟩ := hb
  have hll := mul_nonneg (sub_nonneg.2 ha0) (sub_nonneg.2 hb0)
  have huu := mul_nonneg (sub_nonneg.2 ha1) (sub_nonneg.2 hb1)
  have hlu := mul_nonneg (sub_nonneg.2 ha0) (sub_nonneg.2 hb1)
  have hul := mul_nonneg (sub_nonneg.2 ha1) (sub_nonneg.2 hb0)
  constructor <;> linarith

/-- Settles O29: the bounds of the two products add up to those of the difference. -/
theorem phaseDifferenceRange : Obligations.PhaseDifferenceRange := by
  refine ⟨fun ar ai br bi har0 har1 hai0 hai1 hbr0 hbr1 hbi0 hbi1 => ?_, rfl, rfl⟩
  obtain ⟨hi0, hi1⟩ := mul_bounds_of_iqRange ⟨hai0, hai1⟩ ⟨hbr0, hbr1⟩
  obtain ⟨hr0, hr1⟩ := mul_bounds_of_iqRange ⟨har0, har1⟩ ⟨hbi0, hbi1⟩
  rw [inS32, phaseDiff]
  omega

/-- A byte with the bias taken off times any field of the history's width. -/
theorem bias_mul_bounds (b : Byte) (x : Half) :
    -(2 ^ 22) ≤ ((b.toNat : Int) - 128) * x.toInt ∧ ((b.toNat : Int) - 128) * x.toInt ≤ 2 ^ 22 := by
  have hb : |(b.toNat : Int) - 128| ≤ 2 ^ 7 := abs_le.2 (by omega)
  have hx : |x.toInt| ≤ 2 ^ 15 := abs_le.2 ⟨BitVec.le_toInt x, (BitVec.toInt_lt (x := x)).le⟩
  refine abs_le.1 ?_
  calc |((b.toNat : Int) - 128) * x.toInt| = |(b.toNat : Int) - 128| * |x.toInt| := abs_mul _ _
    _ ≤ 2 ^ 7 * 2 ^ 15 := mul_le_mul hb hx (abs_nonneg _) (by norm_num)
    _ = 2 ^ 22 := by norm_num

/-- The phase difference needs no check: it fits whatever the previous sample is. -/
theorem inS32_fmP (h : FmHist) (i q : Byte) : inS32 (fmP h i q) := by
  have hq := bias_mul_bounds q h.ar
  have hi := bias_mul_bounds i h.ai
  rw [inS32, fmP]
  omega

/-! The DC blocker -/

theorem dcBlock_ok_iff {p xdc ydc v : Int} :
    dcBlock p xdc ydc = .ok v ↔ (inS32 (p - xdc) ∧ inS32 (p - xdc + ydc) ∧ inS32 (p - xdc + ydc - tdiv ydc dcLeakDiv)) ∧
      v = p - xdc + ydc - tdiv ydc dcLeakDiv := by
  simp only [dcBlock, bind_ok_iff, chk32_ok_iff]
  constructor
  · rintro ⟨_, ⟨h1, rfl⟩, _, ⟨h2, rfl⟩, h3, rfl⟩
    exact ⟨⟨h1, h2, h3⟩, rfl⟩
  · rintro ⟨⟨h1, h2, h3⟩, rfl⟩
    exact ⟨_, ⟨h1, rfl⟩, _, ⟨h2, rfl⟩, h3, rfl⟩

theorem dcBlock_error_eq {p xdc ydc : Int} {r : FaultReason} (h : dcBlock p xdc ydc = .error r) : r = .overflow := by
  simp only [dcBlock, bind_error_iff, chk32_error_iff] at h
  obtain ⟨-, rfl⟩ | ⟨_, -, ⟨-, rfl⟩ | ⟨_, -, -, rfl⟩⟩ := h <;> rfl

/-- The leak has the sign of its value, and its size is the floor for the value's size (R83). -/
theorem tdiv_dcLeakDiv_of_nonneg {y : Int} (h : 0 ≤ y) : tdiv y dcLeakDiv = y / 256 :=
  Int.tdiv_eq_ediv_of_nonneg h

theorem tdiv_dcLeakDiv_of_nonpos {y : Int} (h : y ≤ 0) : tdiv y dcLeakDiv = -(-y / 256) := by
  rw [← tdiv_dcLeakDiv_of_nonneg (Int.neg_nonneg.2 h), tdiv, tdiv, Int.neg_tdiv, Int.neg_neg]

theorem tdiv_dcLeakDiv_eq_zero {y : Int} (h0 : -256 < y) (h1 : y < 256) : tdiv y dcLeakDiv = 0 := by
  rcases le_total 0 y with hy | hy
  · rw [tdiv_dcLeakDiv_of_nonneg hy]; omega
  · rw [tdiv_dcLeakDiv_of_nonpos hy]; omega

/-- With a constant input only the leak is left of the DC blocker. -/
theorem dcBlock_self {p y : Int} (h : inS32 y) : dcBlock p p y = .ok (y - tdiv y dcLeakDiv) := by
  have hleak : inS32 (y - tdiv y dcLeakDiv) := by
    rcases le_total 0 y with hy | hy
    · rw [tdiv_dcLeakDiv_of_nonneg hy]; omega
    · rw [tdiv_dcLeakDiv_of_nonpos hy]; omega
  refine dcBlock_ok_iff.2 ?_
  rw [Int.sub_self, Int.zero_add]
  exact ⟨⟨by decide, h, hleak⟩, rfl⟩

theorem dcBlock_zero {p : Int} (h : inS32 p) : dcBlock p 0 0 = .ok p := by
  refine dcBlock_ok_iff.2 ?_
  rw [tdiv_dcLeakDiv_eq_zero (by decide) (by decide), Int.sub_zero, Int.add_zero, Int.sub_zero]
  exact ⟨⟨h, h, h⟩, rfl⟩

/-- Settles O30: on each side of 0 the leak is a floor, 0 below 256 and at least 1 from there on. -/
theorem dcBlockerLaws : Obligations.DcBlockerLaws := by
  refine ⟨fun _ => tdiv_dcLeakDiv_eq_zero, fun p y h0 h1 => ?_, fun _ => dcBlock_zero, fun _ _ => dcBlock_self,
    fun y => ⟨fun h => ?_, fun h => ?_⟩⟩
  · rw [dcBlock_self (by omega), tdiv_dcLeakDiv_eq_zero h0 h1, Int.sub_zero]
  · rw [tdiv_dcLeakDiv_of_nonneg (by omega)]; omega
  · rw [tdiv_dcLeakDiv_of_nonpos (by omega)]; omega

/-! The step -/

theorem wrap16_bias_toInt (b : Byte) : (wrap16 ((b.toNat : Int) - fmBias)).toInt = (b.toNat : Int) - 128 := by
  rw [fmBias, wrap16_toInt (by omega)]

/-- A value of the kernel that answers is a shifted 32-bit value. -/
theorem inS32_kernelValue {c : Coefs} {x xp yp : Int} (hf : KernelFits c x xp yp) : inS32 (kernelValue c x xp yp) := by
  obtain ⟨-, -, -, -, hu⟩ := hf
  rw [kernelValue]
  omega

section
variable {c : Coefs} {h h' : FmHist} {i q : Byte}

theorem dcBlock_fmP_ok_iff {v : Int} :
    dcBlock (fmP h i q) h.xdc.toInt h.ydc.toInt = .ok v ↔
      (inS32 (fmP h i q - h.xdc.toInt) ∧ inS32 (fmP h i q - h.xdc.toInt + h.ydc.toInt) ∧ inS32 (fmYd h i q)) ∧
        v = fmYd h i q := dcBlock_ok_iff

/-- The history that the step commits. -/
def fmCommit (c : Coefs) (h : FmHist) (i q : Byte) : FmHist :=
  ⟨wrap16 ((i.toNat : Int) - fmBias), wrap16 ((q.toNat : Int) - fmBias), wrap32 (fmP h i q), wrap32 (fmYd h i q),
    wrap32 (fmYl c h i q)⟩

/-- Where the step fits, no store of it wraps. -/
theorem fmNext_fmCommit (hf : FmFits c h i q) : FmNext c h i q (fmCommit c h i q) := by
  obtain ⟨-, -, hyd, hk⟩ := hf
  exact ⟨wrap16_bias_toInt i, wrap16_bias_toInt q, wrap32_toInt (inS32_fmP h i q), wrap32_toInt hyd,
    wrap32_toInt (inS32_kernelValue hk)⟩

/-- The values of the five fields determine the history. -/
theorem FmNext.unique {g g' : FmHist} (hg : FmNext c h i q g) (hg' : FmNext c h i q g') : g = g' := by
  obtain ⟨ar, ai, xdc, ydc, ylp⟩ := g
  obtain ⟨ar', ai', xdc', ydc', ylp'⟩ := g'
  obtain ⟨h1, h2, h3, h4, h5⟩ := hg
  obtain ⟨h1', h2', h3', h4', h5'⟩ := hg'
  rw [FmHist.mk.injEq]
  exact ⟨BitVec.eq_of_toInt_eq (h1.trans h1'.symm), BitVec.eq_of_toInt_eq (h2.trans h2'.symm),
    BitVec.eq_of_toInt_eq (h3.trans h3'.symm), BitVec.eq_of_toInt_eq (h4.trans h4'.symm),
    BitVec.eq_of_toInt_eq (h5.trans h5'.symm)⟩

/-- The step is the DC blocker on the phase difference, then the kernel. -/
theorem fmStep_eq : fmStep c h i q = (do
    let yd ← dcBlock (fmP h i q) h.xdc.toInt h.ydc.toInt
    let yl ← lpfKernel c yd h.ydc.toInt h.ylp.toInt
    return (yl, ⟨wrap16 ((i.toNat : Int) - fmBias), wrap16 ((q.toNat : Int) - fmBias), wrap32 (fmP h i q), wrap32 yd,
      wrap32 yl⟩)) := rfl

theorem fmStep_of_fits (hf : FmFits c h i q) : fmStep c h i q = .ok (fmYl c h i q, fmCommit c h i q) := by
  obtain ⟨h1, h2, h3, hk⟩ := hf
  have hd := dcBlock_fmP_ok_iff.2 ⟨⟨h1, h2, h3⟩, rfl⟩
  rw [fmStep_eq, hd, ok_bind, lpfKernel_of_fits hk]
  rfl

/-- Both stages fault with OVERFLOW only, and answer only where their checked values fit. -/
theorem fmStep_of_not_fits (hf : ¬FmFits c h i q) : fmStep c h i q = .error .overflow := by
  rw [fmStep_eq]
  cases hd : dcBlock (fmP h i q) h.xdc.toInt h.ydc.toInt with
  | error r => rw [dcBlock_error_eq hd, error_bind]
  | ok yd =>
    obtain ⟨⟨h1, h2, h3⟩, rfl⟩ := dcBlock_fmP_ok_iff.1 hd
    rw [ok_bind, lpfKernel_of_not_fits fun hk => hf ⟨h1, h2, h3, hk⟩, error_bind]

/-- Everything an answer of the step says. -/
theorem fmStep_ok_iff {v : Int} :
    fmStep c h i q = .ok (v, h') ↔ FmFits c h i q ∧ v = fmYl c h i q ∧ FmNext c h i q h' := by
  by_cases hf : FmFits c h i q
  · rw [fmStep_of_fits hf, Except.ok.injEq, Prod.mk.injEq]
    constructor
    · rintro ⟨rfl, rfl⟩
      exact ⟨hf, rfl, fmNext_fmCommit hf⟩
    · rintro ⟨-, rfl, hn⟩
      exact ⟨rfl, (fmNext_fmCommit hf).unique hn⟩
  · rw [fmStep_of_not_fits hf]
    exact ⟨nofun, fun e => absurd e.1 hf⟩

end

/-- Settles O28: the checks of the DC blocker and of the kernel are the clauses of FmFits. -/
theorem fmStepValueOrOverflow : Obligations.FmStepValueOrOverflow := fun _ _ _ _ =>
  ⟨fun hf => ⟨_, fmStep_of_fits hf, fmNext_fmCommit hf⟩, fmStep_of_not_fits⟩

end Sys2Proof.Machine
end

section
/-! FM.RESET and every path of FM.DEMOD (43_fm_demod.md R84, R85). -/

namespace Sys2Proof.Machine

open Sys2Proof

/-! FM.RESET and the step after it -/

theorem exec_fmReset (s : State) : exec .fmReset s = .next
    { s with fmAr := 0, fmAi := 0, fmXdc := 0, fmYdc := 0, fmYlp := 0, fmValid := true, status := 1 } :=
  exec_next_iff.2 (.inl (fmReset_ok_iff.2 rfl))

theorem fmP_of_zero_sample {h : FmHist} (har : h.ar = 0) (hai : h.ai = 0) (i q : Byte) : fmP h i q = 0 := by
  simp [fmP, har, hai]

/-- From the zero history every value of the step but its own sample is 0. -/
theorem fmStep_zero (c : Coefs) (i q : Byte) : fmStep c ⟨0, 0, 0, 0, 0⟩ i q =
    .ok (0, ⟨wrap16 ((i.toNat : Int) - fmBias), wrap16 ((q.toNat : Int) - fmBias), 0, 0, 0⟩) := by
  have hp : fmP ⟨0, 0, 0, 0, 0⟩ i q = 0 := fmP_of_zero_sample rfl rfl i q
  have hyd : fmYd ⟨0, 0, 0, 0, 0⟩ i q = 0 := by rw [fmYd, hp]; rfl
  obtain ⟨hk, hv⟩ := lpfKernel_ok_iff.1 (lpfKernel_zero c)
  have hyl : fmYl c ⟨0, 0, 0, 0, 0⟩ i q = 0 := by rw [fmYl, hyd]; exact hv.symm
  refine fmStep_ok_iff.2 ⟨?_, hyl.symm, wrap16_bias_toInt i, wrap16_bias_toInt q, hp.symm, hyd.symm, hyl.symm⟩
  rw [FmFits, hp, hyd]
  exact ⟨by decide, by decide, by decide, hk⟩

/-- Settles O31: a zero previous sample makes both products 0, and from the zero history nothing else is left. -/
theorem fmResetCompletes : Obligations.FmResetCompletes := by
  refine ⟨exec_fmReset, fun c h h' I Q v har hai he => ?_, fun c I Q =>
    ⟨_, _, wrap16_bias_toInt I, wrap16_bias_toInt Q, fmStep_zero c I Q⟩⟩
  obtain ⟨-, -, -, -, hxdc, -, -⟩ := fmStep_ok_iff.1 he
  exact BitVec.eq_of_toInt_eq (hxdc.trans (fmP_of_zero_sample har hai I Q))

/-! The faults of the operands -/

theorem fmDemod_stateUninit {s : State} {n : Nat} (h : s.fmValid = false) : fmDemod n s = .error .stateUninit := by
  rw [fmDemod, checkFmDemod, faultIf_true h, error_bind, error_bind]

theorem fmDemod_bounds {s : State} {n : Nat} (hv : s.fmValid = true) (h : s.params.nIq < 2 * n ∨ s.params.nFm < n) :
    fmDemod n s = .error .bounds := by
  rw [fmDemod, checkFmDemod, faultIf_false (by simp [hv]), ok_bind, faultIf_true h, error_bind]

/-- With operands in order, FM.DEMOD faults with its loop. -/
theorem fmDemod_of_loop_error {s : State} {n : Nat} {r : FaultReason} (hv : s.fmValid = true)
    (hIq : 2 * n ≤ s.params.nIq) (hFm : n ≤ s.params.nFm)
    (h : fmLoop s.params s.iqIn 0 n s.fmHist = .error r) : fmDemod n s = .error r := by
  have hc : checkFmDemod s.params s.fmValid n = .ok () := checkFmDemod_ok_iff.2 ⟨hv, hIq, hFm⟩
  rw [fmDemod, hc, ok_bind, h, error_bind]

/-! One pair of the loop -/

section
variable {p : Params} {iq : Memory Byte} {k : Nat} (hk : 2 * k + 1 < p.nIq)
include hk

/-- A written pair is read, and the loop begins with its step. -/
theorem fmLoop_succ_of_get {i q : Byte} (hi : Memory.get? iq (2 * k) = some i)
    (hq : Memory.get? iq (2 * k + 1) = some q) (n : Nat) (h : FmHist) :
    fmLoop p iq k (n + 1) h = (do
      let a ← fmStep p.coefFm h i q
      let b ← fmLoop p iq (k + 1) n a.2
      return (fmWrap p.fmOutWidth a.1 :: b.1, b.2)) := by
  rw [fmLoop, memRead_of_get (by omega) hi, ok_bind, memRead_of_get hk hq, ok_bind]

theorem fmLoop_succ_unwritten (hu : Memory.get? iq (2 * k) = none ∨ Memory.get? iq (2 * k + 1) = none) (n : Nat)
    (h : FmHist) : fmLoop p iq k (n + 1) h = .error .unwrittenRead := by
  rw [fmLoop]
  cases hi : Memory.get? iq (2 * k) with
  | none => rw [memRead_unwritten (by omega) hi, error_bind]
  | some i =>
    have hq : Memory.get? iq (2 * k + 1) = none := hu.resolve_left (by simp [hi])
    rw [memRead_of_get (by omega) hi, ok_bind, memRead_unwritten hk hq, error_bind]

theorem fmLoop_succ_overflow {i q : Byte} (hi : Memory.get? iq (2 * k) = some i)
    (hq : Memory.get? iq (2 * k + 1) = some q) {h : FmHist} (hf : ¬FmFits p.coefFm h i q) (n : Nat) :
    fmLoop p iq k (n + 1) h = .error .overflow := by
  rw [fmLoop_succ_of_get hk hi hq, fmStep_of_not_fits hf, error_bind]

end

/-! The loop from the carried history on -/

/-- The first m pairs of the loop are written, and each step fits and leads from its history to the next. -/
def FmRuns (p : Params) (iq : Memory Byte) (I Q : Nat → Byte) (h : Nat → FmHist) (m : Nat) : Prop :=
  ∀ k, k < m → Memory.get? iq (2 * k) = some (I k) ∧ Memory.get? iq (2 * k + 1) = some (Q k) ∧
    FmFits p.coefFm (h k) (I k) (Q k) ∧ FmNext p.coefFm (h k) (I k) (Q k) (h (k + 1))

/-- Output k of R85: wrap_W of the value of step k. -/
def fmOutput (p : Params) (I Q : Nat → Byte) (h : Nat → FmHist) (k : Nat) : Word :=
  fmWrap p.fmOutWidth (fmYl p.coefFm (h k) (I k) (Q k))

theorem wrapsTo_fmWrap (w : FmWidth) (v : Int) : WrapsTo (fmWidthBits w) v (fmWrap w v).toInt := by
  cases w with
  | w16 =>
    rw [fmWrap, BitVec.toInt_signExtend_of_le (by decide)]
    exact wrapsTo_toInt_iff.2 rfl
  | w32 => exact wrapsTo_toInt_iff.2 rfl

section
variable {p : Params} {iq : Memory Byte} {I Q : Nat → Byte} {h : Nat → FmHist} {m : Nat}

/-- Steps that run give their outputs, and the last history. -/
theorem fmLoop_of_runs (hm : 2 * m ≤ p.nIq) (hr : FmRuns p iq I Q h m) :
    fmLoop p iq 0 m (h 0) = .ok ((List.range m).map (fmOutput p I Q h), h m) := by
  induction m with
  | zero => rfl
  | succ m ih =>
    obtain ⟨hi, hq, hf, hn⟩ := hr m (Nat.lt_succ_self m)
    rw [fmLoop_add, ih (by omega) fun k hk => hr k (by omega), ok_bind, Nat.zero_add,
      fmLoop_succ_of_get (by omega) hi hq, fmStep_ok_iff.2 ⟨hf, rfl, hn⟩, ok_bind, fmLoop, ok_bind, List.range_succ,
      List.map_append]
    rfl

/-- After steps that run, the first one that faults decides. -/
theorem fmLoop_after_runs {n : Nat} {r : FaultReason} (hm : m < n) (hn : 2 * n ≤ p.nIq) (hr : FmRuns p iq I Q h m)
    (he : ∀ d, fmLoop p iq m (d + 1) (h m) = .error r) : fmLoop p iq 0 n (h 0) = .error r := by
  obtain ⟨d, rfl⟩ := Nat.exists_eq_add_of_lt hm
  rw [Nat.add_assoc, fmLoop_add, fmLoop_of_runs (by omega) hr, ok_bind, Nat.zero_add, he, error_bind]

end

/-! What a completed FM.DEMOD leaves -/

/-- Steps that run to the end complete the command. -/
theorem fmDemod_of_runs {s : State} {n : Nat} {I Q : Nat → Byte} {h : Nat → FmHist} (hv : s.fmValid = true)
    (hIq : 2 * n ≤ s.params.nIq) (hFm : n ≤ s.params.nFm) (h0 : h 0 = s.fmHist)
    (hr : FmRuns s.params s.iqIn I Q h n) :
    fmDemod n s = .ok { s with
      fmOut := Memory.setRange s.fmOut 0 ((List.range n).map (fmOutput s.params I Q h))
      fmAr := (h n).ar
      fmAi := (h n).ai
      fmXdc := (h n).xdc
      fmYdc := (h n).ydc
      fmYlp := (h n).ylp
      status := 1 } :=
  fmDemod_ok_iff.2 ⟨⟨hv, hIq, hFm⟩, _, _, h0 ▸ fmLoop_of_runs hIq hr, rfl⟩

theorem fmDemod_beyond {s t : State} {n : Nat} (h : fmDemod n s = .ok t) {k : Nat} (hk : n ≤ k) :
    Memory.get? t.fmOut k = Memory.get? s.fmOut k := by
  obtain ⟨-, os, g, hos, rfl⟩ := fmDemod_ok_iff.1 h
  have hlen := fmLoop_length hos
  exact Memory.get?_setRange_of_ge _ os (by omega)

/-- Settles O32: the checks decide in their order, then the loop at its first step that does not run. -/
theorem fmDemodCommand : Obligations.FmDemodCommand := by
  intro s n
  refine ⟨fun hv => finish_error (fmDemod_stateUninit hv), fun hv h => finish_error (fmDemod_bounds hv h),
    fun hv hIq hFm I Q h h0 => ⟨fun m hm hr => ?_, fun hr => ?_⟩⟩
  · have fault (r : FaultReason) (he : ∀ d, fmLoop s.params s.iqIn m (d + 1) (h m) = .error r) :
        exec (.fmDemod n) s = .next (s.takeFault 0x31 r) :=
      finish_error (fmDemod_of_loop_error hv hIq hFm (h0 ▸ fmLoop_after_runs hm hIq hr he))
    have hk : 2 * m + 1 < s.params.nIq := by omega
    exact ⟨fun hu => fault _ fun d => fmLoop_succ_unwritten hk hu d _,
      fun hi hq hf => fault _ (fmLoop_succ_overflow hk hi hq hf)⟩
  · have hc := fmDemod_of_runs hv hIq hFm h0 hr
    exact ⟨_, finish_ok hc, rfl,
      fun k hk => ⟨_, get?_setRange_map_range _ (fmOutput s.params I Q h) hk, wrapsTo_fmWrap _ _⟩,
      fun k hk => fmDemod_beyond hc hk⟩

/-- Settles O34: FM.RESET always commits; the commit of FM.DEMOD writes its range, the history and STATUS, fault entry
STATUS and FAULT. -/
theorem fmCommandsFrame : Obligations.FmCommandsFrame := by
  constructor
  · intro s t h
    rw [exec_fmReset s] at h
    cases h
    rfl
  · intro s t n h
    rcases exec_next_iff.1 h with hc | ⟨r, -, rfl⟩
    · refine ⟨?_, fun k => fmDemod_beyond hc⟩
      obtain ⟨-, os, g, -, rfl⟩ := fmDemod_ok_iff.1 hc
      rfl
    · exact ⟨rfl, fun _ _ => rfl⟩

end Sys2Proof.Machine
end

section
/-! The laws of CRC16 (44_crc.md R86, R87): one shift of the register is linear and injective, so a byte and a sequence of
bytes are too. -/

namespace Sys2Proof.Machine

open Sys2Proof

/-! Linearity -/

theorem crcBit_xor (a b : Half) : crcBit (a ^^^ b) = crcBit a ^^^ crcBit b := by
  simp only [crcBit, BitVec.msb_xor, BitVec.shiftLeft_xor_distrib]
  cases a.msb <;> cases b.msb
  case false.false => rfl
  case true.true =>
    have regroup : a <<< 1 ^^^ crcPoly ^^^ (b <<< 1 ^^^ crcPoly) = a <<< 1 ^^^ b <<< 1 ^^^ (crcPoly ^^^ crcPoly) := by
      ac_rfl
    simp [regroup]
  case true.false | false.true =>
    simp only [Bool.true_xor, Bool.false_xor, Bool.not_false, if_true, Bool.false_eq_true, if_false]
    ac_rfl

theorem crcShift_xor (n : Nat) (a b : Half) : crcShift n (a ^^^ b) = crcShift n a ^^^ crcShift n b := by
  induction n generalizing a b with
  | zero => rfl
  | succ n ih => rw [crcShift, crcBit_xor, ih, crcShift, crcShift]

/-- A change of the register acts as it would with a zero byte entering. -/
theorem crcByte_xor (a b : Half) (d : Byte) : crcByte (a ^^^ b) d = crcByte a d ^^^ crcByte b 0 := by
  rw [crcByte, crcByte, crcByte, ← crcShift_xor]
  refine congrArg (crcShift 8) ?_
  rw [show (0 : Byte).setWidth 16 <<< 8 = 0#16 from rfl, BitVec.xor_zero]
  ac_rfl

theorem crc16_cons (d : Byte) (bs : List Byte) (init : Half) : crc16 (d :: bs) init = crc16 bs (crcByte init d) := rfl

theorem crc16_xor (bs : List Byte) (a b : Half) :
    crc16 bs (a ^^^ b) = crc16 bs a ^^^ crc16 (List.replicate bs.length 0) b := by
  induction bs generalizing a b with
  | nil => rfl
  | cons d bs ih =>
    rw [List.length_cons, List.replicate_succ, crc16_cons, crc16_cons, crc16_cons, crcByte_xor, ih]

/-! Bijection -/

/-- Bit 0 of CRC_POLY is set, so bit 0 of the shifted register tells whether the polynomial entered. -/
theorem crcBit_getLsbD_zero (c : Half) : (crcBit c).getLsbD 0 = c.msb := by
  rw [crcBit]
  cases c.msb <;> simp [crcPoly]

theorem crcBit_eq_zero_iff {c : Half} : crcBit c = 0 ↔ c = 0 := by
  constructor
  · intro h
    have hmsb : c.msb = false := by rw [← crcBit_getLsbD_zero, h]; rfl
    have hlt := BitVec.msb_eq_false_iff_two_mul_lt.1 hmsb
    have hshift : c <<< 1 = 0 := by simpa [crcBit, hmsb] using h
    bv_omega
  · rintro rfl
    decide

theorem crcBit_injective : Function.Injective crcBit := by
  intro a b h
  rw [← BitVec.xor_eq_zero_iff] at h ⊢
  exact crcBit_eq_zero_iff.1 ((crcBit_xor a b).trans h)

theorem crcShift_injective (n : Nat) : Function.Injective (crcShift n) := by
  induction n with
  | zero => exact Function.injective_id
  | succ n ih => exact ih.comp crcBit_injective

theorem crcByte_injective (d : Byte) : Function.Injective (crcByte · d) := fun _ _ h =>
  (BitVec.xor_left_inj _).1 (crcShift_injective 8 h)

theorem crc16_injective (bs : List Byte) : Function.Injective (crc16 bs) := by
  induction bs with
  | nil => exact Function.injective_id
  | cons d bs ih => exact ih.comp (crcByte_injective d)

/-- Settles O35: linearity and injectivity go from the shift to the byte to the sequence; an injective function on the
16-bit values is a bijection; the check values are evaluated. -/
theorem crcLaws : Obligations.CrcLaws := by
  refine ⟨fun _ => rfl, fun bs init => ?_, fun bs => Finite.injective_iff_bijective.1 (crc16_injective bs),
    by decide +kernel, by decide +kernel, by decide +kernel, by decide +kernel⟩
  rw [← crc16_xor]
  exact congrArg _ BitVec.zero_xor.symm

end Sys2Proof.Machine
end

section
/-! Every path of CRC.COMPUTE and CRC.VERIFY, and their frames (44_crc.md R88 to R91). -/

namespace Sys2Proof.Machine

open Sys2Proof

/-! CRC.COMPUTE -/

theorem crcCompute_bounds {s : State} {off len : Nat} (h : s.params.frameCap < off + len) (init : Half) :
    crcCompute off len init s = .error .bounds := by
  rw [crcCompute, checkCrcCompute, faultIf_true h, error_bind]

section
variable {s : State} {off len : Nat} (hcap : off + len ≤ s.params.frameCap)
include hcap

theorem crcCompute_unwritten {k : Nat} (hk : k < len) (hu : Memory.get? s.frameBuf (off + k) = none) (init : Half) :
    crcCompute off len init s = .error .unwrittenRead := by
  rw [crcCompute, checkCrcCompute, faultIf_false (Nat.not_lt.2 hcap), ok_bind, memReadRange_unwritten hcap hk hu,
    error_bind]

theorem crcCompute_of_written {B : Nat → Byte}
    (hB : ∀ i, off ≤ i → i < off + len → Memory.get? s.frameBuf i = some (B i)) (init : Half) :
    crcCompute off len init s = .ok { s with result := (crc16 (slice B off len) init).setWidth 32, status := 1 } :=
  crcCompute_ok_iff.2
    ⟨hcap, _, memReadRange_of_fn (fun k => B (off + k)) hcap fun k hk => hB _ (by omega) (by omega), rfl⟩

end

/-- Settles O36: the check decides, then the read of the bytes. -/
theorem crcComputeCommand : Obligations.CrcComputeCommand := fun _ _ _ init =>
  ⟨fun h => finish_error (crcCompute_bounds h init), fun hcap =>
    ⟨fun _ hk hu => finish_error (crcCompute_unwritten hcap hk hu init),
      fun _ hB => finish_ok (crcCompute_of_written hcap hB init)⟩⟩

/-! VERIFY: the read of the CRC field and of the payload -/

theorem rxCrc_pair (a b : Byte) : rxCrc [a, b] = a ++ b := by
  have hb := Nat.shiftLeft_add_eq_or_of_lt b.isLt a.toNat
  refine BitVec.eq_of_toNat_eq ?_
  rw [BitVec.toNat_append, ← hb, Nat.shiftLeft_eq]
  simp only [rxCrc, be, List.foldl_cons, List.foldl_nil, BitVec.toNat_ofNat]
  omega

/-- A range read inside the memory faults only on an unwritten element. -/
theorem memReadRange_error_of_le {α : Type} {size : Nat} {m : Memory α} {i n : Nat} {r : FaultReason}
    (hi : i + n ≤ size) (h : memReadRange size m i n = .error r) : r = .unwrittenRead := by
  induction n generalizing i with
  | zero => cases h
  | succ n ih =>
    rw [memReadRange] at h
    rcases bind_error_iff.1 h with h | ⟨_, -, h⟩
    · exact (memRead_error_of_lt (by omega) h).2
    · exact ih (by omega) (bind_pure_error_iff.1 h)

section
variable {p : Params} {b : Memory Byte} {off len : Nat} (h2 : 2 ≤ len) (hcap : off + len ≤ p.frameCap)
include h2 hcap

/-- An unwritten byte is one of the payload, or the field was not read. -/
theorem verify_unwritten {k : Nat} (hk : k < len) (hu : Memory.get? b (off + k) = none) :
    verify p b off len = .error .unwrittenRead := by
  rw [verify]
  cases hf : memReadRange p.frameCap b (off + len - 2) 2 with
  | error r => rw [memReadRange_error_of_le (by omega) hf, error_bind]
  | ok field =>
    have hpayload : k < len - 2 := by
      by_contra hge
      have hat : off + len - 2 + (k - (len - 2)) = off + k := by omega
      rw [memReadRange_unwritten (k := k - (len - 2)) (by omega) (by omega) (hat ▸ hu)] at hf
      cases hf
    rw [ok_bind, memReadRange_unwritten (by omega) hpayload hu, error_bind]

section
variable {B : Nat → Byte} (hB : ∀ i, off ≤ i → i < off + len → Memory.get? b i = some (B i))
include hB

theorem verify_of_written : verify p b off len =
    .ok (firstMatch (slice B off (len - 2)) (B (off + len - 2) ++ B (off + len - 1)) 0 p.crcInit.toList) := by
  have field : memReadRange p.frameCap b (off + len - 2) 2 = .ok [B (off + len - 2), B (off + len - 2 + 1)] :=
    memReadRange_of_fn (fun k => B (off + len - 2 + k)) (by omega) fun k hk => hB _ (by omega) (by omega)
  have payload : memReadRange p.frameCap b off (len - 2) = .ok (slice B off (len - 2)) :=
    memReadRange_of_fn (fun k => B (off + k)) (by omega) fun k hk => hB _ (by omega) (by omega)
  refine verify_ok_iff.2 ⟨_, _, field, payload, ?_⟩
  rw [rxCrc_pair, show off + len - 2 + 1 = off + len - 1 by omega]

theorem verify_of_lowestMatch {k : Fin 8} (hk : LowestMatch p B off len k) :
    verify p b off len = .ok (some (k.val, p.crcInit[k])) := by
  obtain ⟨hmatch, hbelow⟩ := hk
  refine (verify_of_written h2 hcap hB).trans (congrArg _ (firstMatch_some_iff.2
    ⟨k.val, (Nat.zero_add _).symm, by simp, hmatch, fun j w hj hw => ?_⟩))
  obtain ⟨hj8, rfl⟩ := List.getElem?_eq_some_iff.1 hw
  exact hbelow ⟨j, by omega⟩ hj

theorem verify_of_noMatch (hno : NoMatch p B off len) : verify p b off len = .ok none := by
  refine (verify_of_written h2 hcap hB).trans (congrArg _ (firstMatch_none_iff.2 fun w hw => ?_))
  obtain ⟨j, hj, rfl⟩ := Vector.mem_iff_getElem.1 (Vector.mem_toList_iff.1 hw)
  exact hno ⟨j, hj⟩

end

end

/-- The indices of the table are finitely many: if any candidate checks, one with the lowest index does. -/
theorem noMatch_or_exists_lowestMatch (p : Params) (B : Nat → Byte) (off len : Nat) :
    NoMatch p B off len ∨ ∃ k, LowestMatch p B off len k := by
  refine or_iff_not_imp_left.2 fun h => ?_
  obtain ⟨k, hk, hbelow⟩ :=
    wellFounded_lt.has_min {j : Fin 8 | ChecksUnder B off len p.crcInit[j]} (not_forall_not.1 h)
  exact ⟨k, hk, fun j hj hc => hbelow j hc hj⟩

/-! CRC.VERIFY -/

theorem crcVerify_lenContract {s : State} {len : Nat} (h : len < 2) (off : Nat) :
    crcVerify off len s = .error .lenContract := by
  rw [crcVerify, checkCrcVerify, faultIf_true h, error_bind, error_bind]

theorem crcVerify_bounds {s : State} {off len : Nat} (h2 : 2 ≤ len) (h : s.params.frameCap < off + len) :
    crcVerify off len s = .error .bounds := by
  rw [crcVerify, checkCrcVerify, faultIf_false (Nat.not_lt.2 h2), ok_bind, faultIf_true h, error_bind]

section
variable {s : State} {off len : Nat} (h2 : 2 ≤ len) (hcap : off + len ≤ s.params.frameCap)
include h2 hcap

theorem crcVerify_of_verify_error {r : FaultReason} (h : verify s.params s.frameBuf off len = .error r) :
    crcVerify off len s = .error r := by
  rw [crcVerify, checkCrcVerify, faultIf_false (Nat.not_lt.2 h2), ok_bind, faultIf_false (Nat.not_lt.2 hcap), ok_bind,
    h, error_bind]

theorem crcVerify_of_verify_ok {r : Option (Nat × Half)} (h : verify s.params s.frameBuf off len = .ok r) :
    crcVerify off len s = .ok { s with crcIdx := crcIdxOf r, result := resultOf r, status := 1 } :=
  crcVerify_ok_iff.2 ⟨⟨h2, hcap⟩, r, h, rfl⟩

end

/-- Settles O37: the checks decide in their order, then the reads of VERIFY, then the search of the table. -/
theorem crcVerifyCommand : Obligations.CrcVerifyCommand := by
  refine ⟨fun s off len => ⟨fun h => ?_, fun h2 h => ?_, fun h2 hcap => ⟨fun k hk hu => ?_, fun B hB =>
    ⟨fun k h => ?_, fun h => ?_⟩⟩⟩, noMatch_or_exists_lowestMatch⟩
  · exact finish_error (crcVerify_lenContract h off)
  · exact finish_error (crcVerify_bounds h2 h)
  · exact finish_error (crcVerify_of_verify_error h2 hcap (verify_unwritten h2 hcap hk hu))
  · exact finish_ok (crcVerify_of_verify_ok h2 hcap (verify_of_lowestMatch h2 hcap hB h))
  · exact finish_ok (crcVerify_of_verify_ok h2 hcap (verify_of_noMatch h2 hcap hB h))

/-- Settles O38: the commit of CRC.COMPUTE writes RESULT and STATUS, that of CRC.VERIFY CRC_IDX too, fault entry STATUS
and FAULT. -/
theorem crcCommandsFrame : Obligations.CrcCommandsFrame := by
  constructor
  · intro s t off len init h
    rcases exec_next_iff.1 h with hc | ⟨r, -, rfl⟩
    · obtain ⟨-, bs, -, rfl⟩ := crcCompute_ok_iff.1 hc
      rfl
    · rfl
  · intro s t off len h
    rcases exec_next_iff.1 h with hc | ⟨r, -, rfl⟩
    · obtain ⟨-, found, -, rfl⟩ := crcVerify_ok_iff.1 hc
      rfl
    · rfl

end Sys2Proof.Machine
end

section
/-! The reference SEARCH (45_frame_decoder.md R92). -/

namespace Sys2Proof.Machine

open Sys2Proof

theorem leastFrom_some_iff {bits pattern : List Bool} {p n pos : Nat} :
    leastFrom bits pattern p n = some pos ↔ p ≤ pos ∧ pos < p + n ∧ patternAt bits pattern pos = true ∧
      ∀ q, p ≤ q → q < pos → patternAt bits pattern q = false := by
  induction n generalizing p with
  | zero => simp only [leastFrom]; exact ⟨nofun, fun ⟨h1, h2, _⟩ => by omega⟩
  | succ n ih =>
    simp only [leastFrom]
    split
    · rename_i hp
      constructor
      · intro h
        cases h
        exact ⟨Nat.le_refl _, by omega, hp, fun q h1 h2 => by omega⟩
      · rintro ⟨h1, -, -, h2⟩
        rcases Nat.eq_or_lt_of_le h1 with rfl | hlt
        · rfl
        · exact absurd hp (by simp [h2 p (Nat.le_refl _) hlt])
    · rename_i hp
      rw [ih]
      constructor
      · rintro ⟨h1, h2, h3, h4⟩
        refine ⟨by omega, by omega, h3, fun q hq hlt => ?_⟩
        rcases Nat.eq_or_lt_of_le hq with rfl | hgt
        · exact Bool.eq_false_iff.2 hp
        · exact h4 q hgt hlt
      · rintro ⟨h1, h2, h3, h4⟩
        have hne : p ≠ pos := by rintro rfl; exact hp h3
        exact ⟨by omega, by omega, h3, fun q hq => h4 q (by omega)⟩

/-- The reference SEARCH tries every position at which the pattern could stand. -/
theorem leastMatch_some_iff {bits pattern : List Bool} {start pos : Nat} :
    leastMatch bits start pattern = some pos ↔ start ≤ pos ∧ patternAt bits pattern pos = true ∧
      ∀ q, start ≤ q → q < pos → patternAt bits pattern q = false := by
  rw [leastMatch, leastFrom_some_iff]
  constructor
  · rintro ⟨h1, -, h3, h4⟩
    exact ⟨h1, h3, h4⟩
  · rintro ⟨h1, h3, h4⟩
    have hlen : pos + pattern.length ≤ bits.length := (patternAt_iff.1 h3).1
    exact ⟨h1, by omega, h3, h4⟩

theorem patternAt_of_notFound {w : SearchImpl} {bits pattern : List Bool} {start q : Nat}
    (h : runSearch w bits start pattern = none) (hq : start ≤ q) : patternAt bits pattern q = false :=
  Bool.eq_false_iff.2 fun hp => runSearch_notFound h hq (patternAt_iff.1 hp)

/-- Settles O41: the reference SEARCH tries the positions in order, up to the last at which the pattern could stand. -/
theorem referenceSearchIsLeast : Obligations.ReferenceSearchIsLeast := by
  refine ⟨fun bits pattern start => ⟨fun pos => leastMatch_some_iff, fun h q => patternAt_of_notFound h, fun h => ?_⟩,
    fun w bits pattern start h q => patternAt_of_notFound h⟩
  match hs : runSearch .least bits start pattern with
  | none => rfl
  | some pos =>
    obtain ⟨hpos, hp, -⟩ := leastMatch_some_iff.1 hs
    exact absurd hp (by simp [h pos hpos])

end Sys2Proof.Machine
end

section
/-! The frame machine one transition at a time (45_frame_decoder.md R94 to R105): its fuel is never short, so a run is a
transition and the run from where it leads; and what the transition of each state is. -/

namespace Sys2Proof.Machine

open Sys2Proof

variable {p : Params} {c d : FrameCtx}

/-! A run is a transition and a run -/

/-- Fuel beyond the moves left makes no difference. -/
theorem frameRun_of_movesLeft_le {n m : Nat} (hn : c.fsm.movesLeft ≤ n) (hm : c.fsm.movesLeft ≤ m) :
    frameRun p n c = frameRun p m c := by
  induction n generalizing m c with
  | zero =>
    have hr : c.fsm.atRest = true := Fsm.atRest_iff_movesLeft.2 (Nat.le_zero.1 hn)
    rw [frameRun_atRest hr, frameRun_atRest hr]
  | succ n ih =>
    cases hr : c.fsm.atRest with
    | true => rw [frameRun_atRest hr, frameRun_atRest hr]
    | false =>
      cases m with
      | zero => rw [Fsm.atRest_iff_movesLeft.2 (Nat.le_zero.1 hm)] at hr; cases hr
      | succ m =>
        rw [frameRun_succ hr, frameRun_succ hr]
        cases hd : frameStep p c with
        | error r => rfl
        | ok d =>
          have := (frameMove_of_frameStep hd).movesLeft_lt hr
          exact ih (by omega) (by omega)

theorem frameRun_eq_bind (hr : c.fsm.atRest = false) :
    frameRun p frameFuel c = (frameStep p c >>= frameRun p frameFuel) := by
  rw [← frameRun_succ hr]
  exact frameRun_of_movesLeft_le c.fsm.movesLeft_le (c.fsm.movesLeft_le.trans (Nat.le_succ _))

/-! The transition of each state -/

theorem frameStep_searchingPreamble (hf : c.fsm = .searchingPreamble) : frameStep p c = searchingPreamble p c := by
  rw [frameStep, hf]

theorem frameStep_extractingBytes (hf : c.fsm = .extractingBytes) : frameStep p c = .ok (extractingBytes p c) := by
  rw [frameStep, hf]

theorem frameStep_dispatchType (hf : c.fsm = .dispatchType) : frameStep p c = dispatchType p c := by
  rw [frameStep, hf]

theorem frameStep_dispatchSubtype (hf : c.fsm = .dispatchSubtype) : frameStep p c = dispatchSubtype p c := by
  rw [frameStep, hf]

theorem frameStep_validatingCrc (hf : c.fsm = .validatingCrc) : frameStep p c = validatingCrc p c := by
  rw [frameStep, hf]

theorem frameStep_extractingFields (hf : c.fsm = .extractingFields) : frameStep p c = extractingFields p c := by
  rw [frameStep, hf]

theorem frameStep_emit (hf : c.fsm = .emit) : frameStep p c = .ok (emitRecord c) := by
  rw [frameStep, hf]

/-! SearchingPreamble (R96) -/

theorem searchingPreamble_of_notFound (h : runSearch p.search c.bits 0 p.syncPattern = none) :
    searchingPreamble p c = .ok { c with n := 0, fsm := .noSync } := by
  rw [searchingPreamble, h]

section
variable {pos : Nat} (h : runSearch p.search c.bits 0 p.syncPattern = some pos)
include h

theorem searchingPreamble_of_found (hp : patternAt c.bits p.syncPattern pos = true) :
    searchingPreamble p c = .ok { c with pos := pos, fsm := .extractingBytes } := by
  simp only [searchingPreamble, h, hp, if_true]

theorem searchingPreamble_of_not_patternAt (hp : patternAt c.bits p.syncPattern pos = false) :
    searchingPreamble p c = .error .collabContract := by
  simp [searchingPreamble, h, hp]

end

/-! The sanity check (R97) -/

theorem sanityCheck_of_lt (h : c.n < 5) : sanityCheck c = { c with fsm := .failSanity } := by
  rw [sanityCheck, sanityMin, if_pos h]

theorem sanityCheck_of_ge (h : 5 ≤ c.n) : sanityCheck c = { c with fsm := .dispatchType } := by
  rw [sanityCheck, sanityMin, if_neg (Nat.not_lt.2 h)]

/-! DispatchType (R98) -/

theorem dispatchType_of_tag (h : c.byte p 2 = .ok 0x2A) : dispatchType p c = .ok { c with fsm := .dispatchSubtype } :=
  dispatchType_ok_iff.2 ⟨_, h, rfl⟩

theorem dispatchType_of_other {b : Byte} (h : c.byte p 2 = .ok b) (hb : b ≠ 0x2A) :
    dispatchType p c = .ok { c with fsm := .abortLength } :=
  dispatchType_ok_iff.2 ⟨b, h, by rw [typeTag, if_neg hb]⟩

/-! DispatchSubtype (R99) -/

theorem be_pair (a b : Byte) : be [a, b] = 256 * a.toNat + b.toNat := by
  simp only [be, List.foldl_cons, List.foldl_nil]
  omega

theorem mem_longSubtypes {t : Byte} : t ∈ ([0x55, 0xD5] : List Byte) ↔ t = 0x55 ∨ t = 0xD5 := by simp

/-- The context DispatchSubtype hands to the length gate, for a subtype, a payload start and a declared length. -/
def FrameCtx.header (c : FrameCtx) (t : Byte) (P L : Nat) : FrameCtx :=
  { c with subtype := t, payload := P, len := L }

theorem lengthGate_of_bad (h : c.len < 2 ∨ c.n < c.payload + c.len + 2) :
    lengthGate c = { c with fsm := .abortLength } := by
  rw [lengthGate, if_pos h]

theorem lengthGate_of_good (h2 : 2 ≤ c.len) (hn : c.payload + c.len + 2 ≤ c.n) :
    lengthGate c = { c with fsm := .validatingCrc } := by
  rw [lengthGate, if_neg (not_or.2 ⟨Nat.not_lt.2 h2, Nat.not_lt.2 hn⟩)]

section
variable {B : Nat → Byte} (h3 : c.byte p 3 = .ok (B 3))
include h3

theorem dispatchSubtype_of_unknown (h : B 3 ∉ ([0x55, 0xD2, 0xD5] : List Byte)) :
    dispatchSubtype p c = .ok { c with subtype := B 3, fsm := .abortLength } := by
  simp only [List.mem_cons, List.not_mem_nil, or_false, not_or] at h
  exact dispatchSubtype_ok_iff.2 ⟨_, h3, .inr (.inr (.inr ⟨h.1, h.2.2, h.2.1, rfl⟩))⟩

theorem dispatchSubtype_of_short (h : B 3 = 0x55 ∨ B 3 = 0xD5) (hn : c.n < 6) :
    dispatchSubtype p c = .ok { c with subtype := B 3, payload := 6, fsm := .abortLength } :=
  dispatchSubtype_ok_iff.2 ⟨_, h3, .inl ⟨h, hn, rfl⟩⟩

/-- With the bytes of its length written, a known header goes to the length gate. -/
theorem dispatchSubtype_of_headerGives {P L : Nat} (h : HeaderGives B P L) (hn : P ≤ c.n)
    (hB : ∀ i, 4 ≤ i → i < P → c.byte p i = .ok (B i)) :
    dispatchSubtype p c = .ok (lengthGate (c.header (B 3) P L)) := by
  refine dispatchSubtype_ok_iff.2 ⟨_, h3, ?_⟩
  rcases h with ⟨ht, rfl, rfl⟩ | ⟨ht, rfl, rfl⟩
  · have field : memReadRange p.frameCap c.buf 4 2 = .ok [B 4, B 5] := by
      have h4 : memRead p.frameCap c.buf 4 = .ok (B 4) := hB 4 (by omega) (by omega)
      have h5 : memRead p.frameCap c.buf 5 = .ok (B 5) := hB 5 (by omega) (by omega)
      rw [memReadRange, h4, memReadRange, h5, memReadRange]
      rfl
    exact .inr (.inl ⟨ht, hn, _, field, by rw [be_pair]; rfl⟩)
  · exact .inr (.inr (.inl ⟨ht, _, hB 4 (by omega) (by omega), rfl⟩))

end

/-! ValidatingCrc (R100, R111) -/

theorem validatingCrc_of_match {k : Nat} {v : Half} (h : verify p c.buf c.payload c.len = .ok (some (k, v))) :
    validatingCrc p c = .ok { c with crcIdx := BitVec.ofNat 8 k, fsm := .extractingFields } :=
  validatingCrc_ok_iff.2 ⟨_, h, .inl ⟨k, v, rfl, rfl⟩⟩

theorem validatingCrc_of_noMatch (h : verify p c.buf c.payload c.len = .ok none) {bs : List Byte}
    (hbs : p.diagEnable = true → memReadRange p.frameCap c.buf 0 c.n = .ok bs) :
    validatingCrc p c = .ok
      { c with crcIdx := 0xFF, ev := if p.diagEnable = true then some (.diag bs) else c.ev, fsm := .failMic } := by
  refine validatingCrc_ok_iff.2 ⟨_, h, ?_⟩
  cases hd : p.diagEnable with
  | false => exact .inr (.inl ⟨rfl, rfl, rfl⟩)
  | true => exact .inr (.inr ⟨rfl, rfl, bs, hbs hd, rfl⟩)

theorem validatingCrc_of_verify_error {r : FaultReason} (h : verify p c.buf c.payload c.len = .error r) :
    validatingCrc p c = .error r := by
  rw [validatingCrc, h, error_bind]

theorem validatingCrc_of_diag_error {r : FaultReason} (h : verify p c.buf c.payload c.len = .ok none)
    (hd : p.diagEnable = true) (hr : memReadRange p.frameCap c.buf 0 c.n = .error r) :
    validatingCrc p c = .error r := by
  simp only [validatingCrc, h, ok_bind, hd, if_true, hr, error_bind]

/-- Settles O39: the transition of each state, case by case. -/
theorem frameTransitions : Obligations.FrameTransitions := by
  intro p c
  refine ⟨fun hf h => ?_, fun pos hf h => ⟨fun hp => ?_, fun hp => ?_⟩, fun hf => ?_, fun b hf hb => ?_,
    fun B hf h3 => ⟨fun h => ?_, fun h hn => ?_, fun P L h hn hB => ?_⟩, fun r hf hv hbs => ?_, fun rec hf h => ?_,
    fun hf => ?_⟩
  · exact ⟨_, (frameStep_searchingPreamble hf).trans (searchingPreamble_of_notFound h), rfl, rfl⟩
  · exact ⟨_, (frameStep_searchingPreamble hf).trans (searchingPreamble_of_found h hp), rfl, rfl⟩
  · exact (frameStep_searchingPreamble hf).trans (searchingPreamble_of_not_patternAt h hp)
  · exact ⟨_, frameStep_extractingBytes hf, Nat.min_le_right _ _, fun hn => congrArg FrameCtx.fsm (sanityCheck_of_lt hn),
      fun hn => congrArg FrameCtx.fsm (sanityCheck_of_ge hn)⟩
  · rw [frameStep_dispatchType hf]
    by_cases htag : b = 0x2A
    · subst htag
      exact ⟨_, dispatchType_of_tag hb, fun hne => absurd rfl hne, fun _ => rfl⟩
    · exact ⟨_, dispatchType_of_other hb htag, fun _ => rfl, fun he => absurd he htag⟩
  · exact ⟨_, (frameStep_dispatchSubtype hf).trans (dispatchSubtype_of_unknown h3 h), rfl⟩
  · exact ⟨_, (frameStep_dispatchSubtype hf).trans (dispatchSubtype_of_short h3 (mem_longSubtypes.1 h) hn), rfl⟩
  · exact ⟨_, (frameStep_dispatchSubtype hf).trans (dispatchSubtype_of_headerGives h3 h hn hB), rfl, rfl, rfl,
      fun hbad => congrArg FrameCtx.fsm (lengthGate_of_bad (c := c.header (B 3) P L) hbad),
      fun h2 hfit => congrArg FrameCtx.fsm (lengthGate_of_good (c := c.header (B 3) P L) h2 hfit)⟩
  · rw [frameStep_validatingCrc hf]
    match r with
    | some (k, v) => exact ⟨_, validatingCrc_of_match hv, nofun, fun k v h => by cases h; exact ⟨rfl, rfl⟩⟩
    | none =>
      obtain ⟨bs, hread⟩ : ∃ bs, p.diagEnable = true → memReadRange p.frameCap c.buf 0 c.n = .ok bs := by
        by_cases hd : p.diagEnable = true
        · exact (hbs hd rfl).imp fun _ h _ => h
        · exact ⟨[], fun h => absurd h hd⟩
      exact ⟨_, validatingCrc_of_noMatch hv hread, fun _ => ⟨rfl, rfl⟩, nofun⟩
  · exact ⟨_, (frameStep_extractingFields hf).trans (extractingFields_ok_iff.2 ⟨rec, h, rfl⟩), rfl, rfl⟩
  · exact ⟨_, frameStep_emit hf, rfl, rfl, rfl⟩

/-- Settles O40: the fuel is enough for every state, and no transition leads to IDLE. -/
theorem frameMachineEnds : Obligations.FrameMachineEnds := fun _ _ _ hi hrun =>
  ⟨frameRun_frameFuel hrun, frameRun_keeps (fun c => c.fsm ≠ .idle)
    (fun _ _ h hs => (frameMove_of_frameStep hs).keeps_ne_idle h) hi hrun⟩

end Sys2Proof.Machine
end

section
/-! The host's rendering of an EMIT event (45_frame_decoder.md R110, R112). -/

namespace Sys2Proof.Machine

open Sys2Proof

/-- Settles O53: model, the fields of the kind, mic; and one rendering of four bytes, evaluated. -/
theorem renderingOfEmits : Obligations.RenderingOfEmits := fun _ _ _ _ _ _ _ => ⟨rfl, rfl, rfl, rfl, by decide⟩

end Sys2Proof.Machine
end

section
/-! The fields of a frame (45_frame_decoder.md R101 to R104): what ExtractingFields reads, in its order, and the record it
builds from written bytes. -/

namespace Sys2Proof.Machine

open Sys2Proof

/-! A computation without its value -/

/-- Whether a computation faults and how, without its value. -/
def discard {α : Type} (x : Except FaultReason α) : Except FaultReason Unit := x >>= fun _ => .ok ()

@[simp] theorem discard_ok {α : Type} (a : α) : discard (.ok a : Except FaultReason α) = .ok () := rfl

theorem eq_error_of_discard {α : Type} {x : Except FaultReason α} {r : FaultReason} (h : discard x = .error r) :
    x = .error r := by
  cases x with
  | error f => cases h; rfl
  | ok a => cases h

theorem discard_bind {α β : Type} {x : Except FaultReason α} {f : α → Except FaultReason β}
    {y z : Except FaultReason Unit} (hx : discard x = y) (hf : ∀ a, discard (f a) = z) :
    discard (x >>= f) = (y >>= fun _ => z) := by
  subst hx
  cases x with
  | error r => rfl
  | ok a => exact hf a

variable {p : Params} {c : FrameCtx}

/-! The reads of ExtractingFields, in order -/

/-- The bounds check and the reads of FIELD(off, len) (R101), for a field (off, len). -/
def readField (p : Params) (c : FrameCtx) (f : Nat × Nat) : Except FaultReason Unit := do
  faultIf (c.n < f.1 + f.2) .fieldBounds
  discard (memReadRange p.frameCap c.buf f.1 f.2)

/-- The same for a list of fields. -/
def readFields (p : Params) (c : FrameCtx) : List (Nat × Nat) → Except FaultReason Unit
  | [] => .ok ()
  | f :: fs => readField p c f >>= fun _ => readFields p c fs

theorem discard_field4 (off : Nat) : discard (field4 p c off) = readField p c (off, 4) := by
  simp only [discard, field4, readField, memReadRange, FrameCtx.byte, bind_assoc, ok_bind, pure_eq_ok,
    Nat.add_assoc, Nat.reduceAdd]

theorem discard_field6 (off : Nat) : discard (field6 p c off) = readField p c (off, 6) := by
  simp only [discard, field6, readField, memReadRange, FrameCtx.byte, bind_assoc, ok_bind, pure_eq_ok,
    Nat.add_assoc, Nat.reduceAdd]

theorem discard_fieldU32 (off : Nat) : discard (fieldU32 p c off) = readField p c (off, 4) := by
  refine (discard_bind (discard_field4 off) fun _ => discard_ok _).trans ?_
  cases readField p c (off, 4) <;> rfl

/-- ExtractingFields faults as the reads of its fields do, in their order. -/
theorem discard_fieldsOf : discard (fieldsOf p c) = readFields p c (fieldReads c.subtype c.len) := by
  rw [fieldsOf, fieldReads]
  split
  · exact discard_bind (discard_field6 7) fun _ => discard_bind (discard_field6 13) fun _ =>
      discard_bind (discard_fieldU32 20) fun _ => discard_bind (discard_field4 26) fun _ => rfl
  · split
    · refine discard_bind (discard_field4 7) fun _ => discard_bind (discard_field4 26) fun _ => ?_
      by_cases hL : c.len = 0x47
      · rw [longLen, if_neg (not_not_intro hL), if_pos hL]
        exact discard_bind (discard_fieldU32 16) fun _ => discard_bind (discard_fieldU32 24) fun _ =>
          discard_bind (discard_field6 32) fun _ => rfl
      · rw [longLen, if_pos hL, if_neg hL]
        rfl
    · rfl

/-! One field -/

theorem readField_fieldBounds {f : Nat × Nat} (h : c.n < f.1 + f.2) : readField p c f = .error .fieldBounds := by
  rw [readField, faultIf_true h, error_bind]

/-- The field ends inside the frame and its bytes are those of B. -/
def FieldHolds (c : FrameCtx) (B : Nat → Byte) (f : Nat × Nat) : Prop :=
  f.1 + f.2 ≤ c.n ∧ ∀ i, f.1 ≤ i → i < f.1 + f.2 → Memory.get? c.buf i = some (B i)

/-- The big-endian value of four bytes is the word they make. -/
theorem mod32_be_addr4 (B : Nat → Byte) (off : Nat) : mod32 (be (addr4 B off).toList) = word32 B off := by
  have join (m : Nat) (x : Byte) : m <<< 8 ||| x.toNat = m * 256 + x.toNat := by
    rw [← Nat.shiftLeft_add_eq_or_of_lt x.isLt, Nat.shiftLeft_eq]
  have value : be (addr4 B off).toList = (((0 * 256 + (B off).toNat) * 256 + (B (off + 1)).toNat) * 256 +
      (B (off + 2)).toNat) * 256 + (B (off + 3)).toNat := rfl
  refine BitVec.eq_of_toNat_eq ?_
  simp only [word32, BitVec.toNat_append, join, mod32, value, BitVec.toNat_ofNat]
  omega

section
variable (hcap : c.n ≤ p.frameCap)
include hcap

theorem readField_unwritten {f : Nat × Nat} {i : Nat} (hn : f.1 + f.2 ≤ c.n) (hi : f.1 ≤ i) (hlt : i < f.1 + f.2)
    (hu : Memory.get? c.buf i = none) : readField p c f = .error .unwrittenRead := by
  obtain ⟨k, rfl⟩ := Nat.exists_eq_add_of_le hi
  rw [readField, faultIf_false (Nat.not_lt.2 hn), ok_bind,
    memReadRange_unwritten (by omega) (by omega : k < f.2) hu]
  rfl

variable {B : Nat → Byte}

theorem byte_of_get {i : Nat} (hi : i < c.n) (h : Memory.get? c.buf i = some (B i)) : c.byte p i = .ok (B i) :=
  memRead_of_get (by omega) h

theorem readField_of_holds {f : Nat × Nat} (h : FieldHolds c B f) : readField p c f = .ok () := by
  obtain ⟨hn, hB⟩ := h
  have read : memReadRange p.frameCap c.buf f.1 f.2 = .ok ((List.range f.2).map fun k => B (f.1 + k)) :=
    memReadRange_of_fn (fun k => B (f.1 + k)) (by omega) fun k hk => hB _ (by omega) (by omega)
  rw [readField, faultIf_false (Nat.not_lt.2 hn), ok_bind, read, discard_ok]

theorem field4_of_holds {off : Nat} (h : FieldHolds c B (off, 4)) : field4 p c off = .ok (addr4 B off) := by
  obtain ⟨hn, hB⟩ := h
  have byte (k : Nat) (hk : k < 4) : c.byte p (off + k) = .ok (B (off + k)) :=
    byte_of_get hcap (by omega) (hB _ (by omega) (by omega))
  exact field4_ok_iff.2 ⟨hn, _, _, _, _, byte 0 (by omega), byte 1 (by omega), byte 2 (by omega), byte 3 (by omega), rfl⟩

theorem field6_of_holds {off : Nat} (h : FieldHolds c B (off, 6)) : field6 p c off = .ok (addr6 B off) := by
  obtain ⟨hn, hB⟩ := h
  have byte (k : Nat) (hk : k < 6) : c.byte p (off + k) = .ok (B (off + k)) :=
    byte_of_get hcap (by omega) (hB _ (by omega) (by omega))
  exact field6_ok_iff.2 ⟨hn, _, _, _, _, _, _, byte 0 (by omega), byte 1 (by omega), byte 2 (by omega),
    byte 3 (by omega), byte 4 (by omega), byte 5 (by omega), rfl⟩

theorem fieldU32_of_holds {off : Nat} (h : FieldHolds c B (off, 4)) : fieldU32 p c off = .ok (word32 B off) := by
  rw [fieldU32, field4_of_holds hcap h, ok_bind, mod32_be_addr4]
  rfl

theorem fields55_of_holds (h : ∀ f ∈ ([(7, 6), (13, 6), (20, 4), (26, 4)] : List (Nat × Nat)), FieldHolds c B f) :
    fields55 p c = .ok (.k55 (addr6 B 7) (addr6 B 13) (word32 B 20) (addr4 B 26)) := by
  simp only [List.forall_mem_cons] at h
  obtain ⟨hdst, hsrcWan, hup, hsrc, -⟩ := h
  rw [fields55, field6_of_holds hcap hdst, ok_bind, field6_of_holds hcap hsrcWan, ok_bind,
    fieldU32_of_holds hcap hup, ok_bind, field4_of_holds hcap hsrc, ok_bind]
  rfl

theorem fieldsD5_of_holds_short (hL : c.len ≠ 0x47)
    (h : ∀ f ∈ ([(7, 4), (26, 4)] : List (Nat × Nat)), FieldHolds c B f) :
    fieldsD5 p c = .ok (.kd5s (addr4 B 7) (addr4 B 26)) := by
  simp only [List.forall_mem_cons] at h
  obtain ⟨hdst, hsrc, -⟩ := h
  rw [fieldsD5, field4_of_holds hcap hdst, ok_bind, field4_of_holds hcap hsrc, ok_bind, longLen, if_pos hL]
  rfl

theorem fieldsD5_of_holds_long (hL : c.len = 0x47)
    (h : ∀ f ∈ ([(7, 4), (26, 4), (16, 4), (24, 4), (32, 6)] : List (Nat × Nat)), FieldHolds c B f) :
    fieldsD5 p c = .ok (.kd5l (addr4 B 7) (addr4 B 26) (word32 B 16) (word32 B 24) (addr6 B 32)) := by
  simp only [List.forall_mem_cons] at h
  obtain ⟨hdst, hsrc, hts, hup, hwan, -⟩ := h
  rw [fieldsD5, field4_of_holds hcap hdst, ok_bind, field4_of_holds hcap hsrc, ok_bind, longLen,
    if_neg (not_not_intro hL), fieldU32_of_holds hcap hts, ok_bind, fieldU32_of_holds hcap hup, ok_bind,
    field6_of_holds hcap hwan, ok_bind]
  rfl

/-- Where every field holds, ExtractingFields builds the record of the layout (R102 to R104). -/
theorem fieldsOf_of_holds {r : Record} (ht : c.subtype = B 3) (hr : RecordOf B c.n c.len r)
    (hf : ∀ f ∈ fieldReads (B 3) c.len, FieldHolds c B f) : fieldsOf p c = .ok r := by
  rw [fieldsOf, ht]
  rcases hr with ⟨h3, -, rfl⟩ | ⟨h3, rfl⟩ | ⟨h3, hL, -, rfl⟩ | ⟨h3, hL, rfl⟩
  · rw [h3, fieldReads, if_pos rfl] at hf
    rw [h3, if_pos rfl, fields55_of_holds hcap hf]
  · rw [h3]
    rfl
  · rw [h3, fieldReads, if_neg (by decide), if_pos rfl, if_neg hL] at hf
    rw [h3, if_neg (by decide), if_pos rfl, fieldsD5_of_holds_short hcap hL hf]
  · rw [h3, fieldReads, if_neg (by decide), if_pos rfl, if_pos hL] at hf
    rw [h3, if_neg (by decide), if_pos rfl, fieldsD5_of_holds_long hcap hL hf]

end

/-! The first field that faults decides -/

theorem readFields_append_cons {before after : List (Nat × Nat)} {f : Nat × Nat} {r : FaultReason}
    (hb : ∀ g ∈ before, readField p c g = .ok ()) (hf : readField p c f = .error r) :
    readFields p c (before ++ f :: after) = .error r := by
  induction before with
  | nil => rw [List.nil_append, readFields, hf, error_bind]
  | cons g gs ih =>
    obtain ⟨hg, hgs⟩ := List.forall_mem_cons.1 hb
    rw [List.cons_append, readFields, hg, ok_bind, ih hgs]

/-- Where every field that ends inside the frame is written, any other faults FIELD_BOUNDS. -/
theorem readFields_fieldBounds {fs : List (Nat × Nat)} (hw : ∀ f ∈ fs, f.1 + f.2 ≤ c.n → readField p c f = .ok ())
    {f : Nat × Nat} (hf : f ∈ fs) (hn : c.n < f.1 + f.2) : readFields p c fs = .error .fieldBounds := by
  induction fs with
  | nil => cases hf
  | cons g gs ih =>
    obtain ⟨hg, hgs⟩ := List.forall_mem_cons.1 hw
    rw [readFields]
    by_cases hgn : g.1 + g.2 ≤ c.n
    · have hne : f ≠ g := by rintro rfl; omega
      rw [hg hgn, ok_bind, ih hgs (List.mem_of_ne_of_mem hne hf)]
    · rw [readField_fieldBounds (Nat.not_le.1 hgn), error_bind]

end Sys2Proof.Machine
end

section
/-! The run of the frame machine from DispatchType on (45_frame_decoder.md R98 to R105): the faults of the header's reads,
the length gate, and what a frame that passes it leads to. -/

namespace Sys2Proof.Machine

open Sys2Proof

variable {p : Params} {c d : FrameCtx} {r : FaultReason}

/-! The header -/

theorem frameRun_dispatchType (hf : c.fsm = .dispatchType) :
    frameRun p frameFuel c = (dispatchType p c >>= frameRun p frameFuel) := by
  rw [frameRun_eq_bind (by rw [hf]; rfl), frameStep_dispatchType hf]

section
variable (hf : c.fsm = .dispatchType)
include hf

theorem frameRun_of_tag_error (h : c.byte p 2 = .error r) : frameRun p frameFuel c = .error r := by
  rw [frameRun_dispatchType hf, dispatchType, h, error_bind, error_bind]

theorem frameRun_of_other_tag {b : Byte} (h : c.byte p 2 = .ok b) (hb : b ≠ 0x2A) :
    frameRun p frameFuel c = .ok { c with fsm := .abortLength } := by
  rw [frameRun_dispatchType hf, dispatchType_of_other h hb, ok_bind, frameRun_atRest rfl]

variable (htag : c.byte p 2 = .ok 0x2A)
include htag

/-- Behind the tag, the run is that from DispatchSubtype on. -/
theorem frameRun_of_tag :
    frameRun p frameFuel c = (dispatchSubtype p { c with fsm := .dispatchSubtype } >>= frameRun p frameFuel) := by
  rw [frameRun_dispatchType hf, dispatchType_of_tag htag, ok_bind, frameRun_eq_bind rfl, frameStep_dispatchSubtype rfl]

theorem frameRun_of_subtype_error (h : dispatchSubtype p { c with fsm := .dispatchSubtype } = .error r) :
    frameRun p frameFuel c = .error r := by
  rw [frameRun_of_tag hf htag, h, error_bind]

theorem frameRun_of_subtype_atRest (h : dispatchSubtype p { c with fsm := .dispatchSubtype } = .ok d)
    (hd : d.fsm.atRest = true) : frameRun p frameFuel c = .ok d := by
  rw [frameRun_of_tag hf htag, h, ok_bind, frameRun_atRest hd]

end

theorem dispatchSubtype_of_subtype_error (h : c.byte p 3 = .error r) : dispatchSubtype p c = .error r := by
  rw [dispatchSubtype, h, error_bind]

theorem dispatchSubtype_of_lengthByte_error (h3 : c.byte p 3 = .ok 0xD2) (h : c.byte p 4 = .error r) :
    dispatchSubtype p c = .error r := by
  rw [dispatchSubtype, h3, ok_bind, if_neg (by decide), if_pos rfl, h, error_bind]

theorem dispatchSubtype_of_length_error {t : Byte} (h3 : c.byte p 3 = .ok t) (ht : t = 0x55 ∨ t = 0xD5) (hn : 6 ≤ c.n)
    (h : memReadRange p.frameCap c.buf 4 2 = .error r) : dispatchSubtype p c = .error r := by
  rw [dispatchSubtype, h3, ok_bind, if_pos ht, if_neg (Nat.not_lt.2 hn), h, error_bind]

/-! A frame that passes the length gate -/

theorem five_le_of_headerGives {B : Nat → Byte} {P L : Nat} (h : HeaderGives B P L) : 5 ≤ P := by
  rcases h with ⟨-, rfl, -⟩ | ⟨-, rfl, -⟩ <;> decide

/-- The machine stands in DispatchType, before a frame of the bytes B whose tag, subtype and declared length let it pass
to ValidatingCrc (R98, R99). -/
structure PassesGate (p : Params) (c : FrameCtx) (B : Nat → Byte) (P L : Nat) : Prop where
  fsm : c.fsm = .dispatchType
  cap : c.n ≤ p.frameCap
  tag : B 2 = 0x2A
  header : HeaderGives B P L
  two : 2 ≤ L
  fits : P + L + 2 ≤ c.n
  written : ∀ i, 2 ≤ i → i < P → Memory.get? c.buf i = some (B i)

/-- The context such a frame brings to ValidatingCrc. -/
def FrameCtx.gated (c : FrameCtx) (t : Byte) (P L : Nat) : FrameCtx :=
  { c.header t P L with fsm := .validatingCrc }

/-- The context a frame leaves in Emit's end state Success (R105), with its CRC under candidate k and the record r. -/
def FrameCtx.emitted (c : FrameCtx) (t : Byte) (P L : Nat) (k : Fin 8) (r : Record) : FrameCtx :=
  { c.header t P L with
    crcIdx := BitVec.ofNat 8 k.val, record := r, recValid := true, ev := some (.emit r), fsm := .success }

section
variable {B : Nat → Byte} {P L : Nat} (hg : PassesGate p c B P L)
include hg

/-- Such a frame gets to ValidatingCrc. -/
theorem frameRun_of_passesGate : frameRun p frameFuel c =
    (validatingCrc p (c.gated (B 3) P L) >>= frameRun p frameFuel) := by
  obtain ⟨hf, hcap, htag, hh, h2, hfit, hw⟩ := hg
  have hP := five_le_of_headerGives hh
  have byte (i : Nat) (hi : 2 ≤ i) (hlt : i < P) : c.byte p i = .ok (B i) :=
    byte_of_get hcap (by omega) (hw i hi hlt)
  have hgate : dispatchSubtype p { c with fsm := .dispatchSubtype } =
      .ok (c.gated (B 3) P L) :=
    (dispatchSubtype_of_headerGives (byte 3 (by omega) (by omega)) hh (show P ≤ c.n by omega)
      fun i hi => byte i (by omega)).trans (congrArg Except.ok (lengthGate_of_good h2 hfit))
  rw [frameRun_of_tag hf (htag ▸ byte 2 (by omega) (by omega)), hgate, ok_bind, frameRun_eq_bind rfl,
    frameStep_validatingCrc rfl]

theorem frameRun_of_verify_error (h : verify p c.buf P L = .error r) : frameRun p frameFuel c = .error r := by
  rw [frameRun_of_passesGate hg, validatingCrc_of_verify_error h, error_bind]

section
variable (hB : ∀ i, P ≤ i → i < P + L → Memory.get? c.buf i = some (B i))
include hB

theorem verify_eq_of_lowestMatch {k : Fin 8} (hk : LowestMatch p B P L k) :
    verify p c.buf P L = .ok (some (k.val, p.crcInit[k])) :=
  verify_of_lowestMatch hg.two (by have := hg.fits; have := hg.cap; omega) hB hk

theorem verify_eq_of_noMatch (hno : NoMatch p B P L) : verify p c.buf P L = .ok none :=
  verify_of_noMatch hg.two (by have := hg.fits; have := hg.cap; omega) hB hno

theorem frameRun_of_noMatch (hno : NoMatch p B P L) {bs : List Byte}
    (hbs : p.diagEnable = true → memReadRange p.frameCap c.buf 0 c.n = .ok bs) :
    frameRun p frameFuel c = .ok { c.gated (B 3) P L with
      crcIdx := 0xFF, ev := if p.diagEnable = true then some (.diag bs) else c.ev, fsm := .failMic } := by
  have hv := verify_eq_of_noMatch hg hB hno
  rw [frameRun_of_passesGate hg, validatingCrc_of_noMatch (c := c.gated (B 3) P L) hv hbs, ok_bind, frameRun_atRest rfl]
  rfl

theorem frameRun_of_diag_error (hno : NoMatch p B P L) (hd : p.diagEnable = true)
    (h : memReadRange p.frameCap c.buf 0 c.n = .error r) : frameRun p frameFuel c = .error r := by
  have hv := verify_eq_of_noMatch hg hB hno
  rw [frameRun_of_passesGate hg, validatingCrc_of_diag_error (c := c.gated (B 3) P L) hv hd h, error_bind]

variable {k : Fin 8} (hk : LowestMatch p B P L k)
include hk

/-- A frame that checks gets to ExtractingFields, and emits the record it builds there. -/
theorem frameRun_of_lowestMatch : frameRun p frameFuel c =
    (fieldsOf p (c.header (B 3) P L) >>= fun r => .ok (c.emitted (B 3) P L k r)) := by
  rw [frameRun_of_passesGate hg, validatingCrc_of_match (verify_eq_of_lowestMatch hg hB hk), ok_bind,
    frameRun_eq_bind rfl, frameStep_extractingFields rfl, extractingFields, bind_assoc]
  refine bind_congr fun r => ?_
  rw [pure_eq_ok, ok_bind, frameRun_eq_bind rfl, frameStep_emit rfl, ok_bind, frameRun_atRest rfl]
  rfl

theorem frameRun_of_readFields_error (h : readFields p (c.header (B 3) P L) (fieldReads (B 3) L) = .error r) :
    frameRun p frameFuel c = .error r := by
  rw [frameRun_of_lowestMatch hg hB hk, eq_error_of_discard (discard_fieldsOf.trans h), error_bind]

theorem frameRun_of_recordOf {rec : Record} (hr : RecordOf B c.n L rec)
    (hf : ∀ f ∈ fieldReads (B 3) L, FieldHolds c B f) :
    frameRun p frameFuel c = .ok (c.emitted (B 3) P L k rec) := by
  have hrec : fieldsOf p (c.header (B 3) P L) = .ok rec :=
    fieldsOf_of_holds (c := c.header (B 3) P L) hg.cap rfl hr hf
  rw [frameRun_of_lowestMatch hg hB hk, hrec, ok_bind]

end

end

end Sys2Proof.Machine
end

section
/-! FRAME.PARSE, path by path (45_frame_decoder.md R97 to R106, R109, R111). -/

namespace Sys2Proof.Machine

open Sys2Proof

/-- STATUS in Success: code 2, and bit 4 where bytes were cut (R25, R26). -/
theorem statusWord_success (trunc : Bool) : statusWord .success trunc = if trunc then 0x12 else 0x2 := by
  cases trunc <;> rfl

/-- What a FRAME command commits in a terminal state that is no Success and leaves no event (R106). -/
theorem frameCommit_of_fail {c : FrameCtx} (f : Fsm) (w : Word) (hf : c.fsm = f) (hne : f ≠ .success)
    (hk : c.crcIdx = 0xFF) (hr : c.recValid = false) (he : c.ev = none)
    (ht : c.trunc = false) (hw : statusWord f.resultCode false = w) (s : State) :
    frameCommit c s =
      { s with flen := BitVec.ofNat 32 c.n, fsm := f, crcIdx := 0xFF, recValid := false, status := w } := by
  subst hf
  rw [frameCommit, if_neg hne, hk, hr, he, ht, ite_self, hw, Option.toList_none, List.append_nil]
  rfl

/-- What a FRAME command commits in Success (R105, R106). -/
theorem frameCommit_emitted (c : FrameCtx) (s : State) (t : Byte) (P L : Nat) (k : Fin 8) (rec : Record) :
    frameCommit (c.emitted t P L k rec) s =
      { s with
        flen := BitVec.ofNat 32 c.n
        fsm := .success
        crcIdx := BitVec.ofNat 8 k.val
        recValid := true
        record := rec
        out := s.out ++ [.emit rec]
        status := statusWord .success c.trunc } := rfl

/-- The context FRAME.PARSE begins its machine with, past the sanity check (R109). -/
def parseEntry (s : State) (n : Nat) : FrameCtx := sanityCheck (frameEntry s .extractingBytes [] n)

@[simp] theorem parseEntry_n (s : State) (n : Nat) : (parseEntry s n).n = n := rfl
@[simp] theorem parseEntry_buf (s : State) (n : Nat) : (parseEntry s n).buf = s.frameBuf := rfl
@[simp] theorem parseEntry_trunc (s : State) (n : Nat) : (parseEntry s n).trunc = false := rfl

variable {s : State} {n : Nat} {c : FrameCtx} {r : FaultReason}

theorem parseEntry_fsm (h5 : 5 ≤ n) : (parseEntry s n).fsm = .dispatchType :=
  congrArg FrameCtx.fsm (sanityCheck_of_ge (c := frameEntry s .extractingBytes [] n) h5)

theorem exec_frameParse_bounds (h : s.params.frameCap < n) : exec (.frameParse n) s = .next (s.takeFault 0x51 .bounds) :=
  finish_error (by rw [frameParse, checkFrameParse, faultIf_true h, error_bind])

section
variable (hcap : n ≤ s.params.frameCap)
include hcap

theorem exec_frameParse_of_ok (h : frameRun s.params frameFuel (parseEntry s n) = .ok c) :
    exec (.frameParse n) s = .next (frameCommit c s) :=
  finish_ok (frameParse_ok_iff.2 ⟨hcap, c, h, rfl⟩)

theorem exec_frameParse_of_error (h : frameRun s.params frameFuel (parseEntry s n) = .error r) :
    exec (.frameParse n) s = .next (s.takeFault 0x51 r) :=
  finish_error (by
    rw [frameParse, checkFrameParse, faultIf_false (Nat.not_lt.2 hcap), ok_bind, ← parseEntry, h, error_bind])

theorem exec_frameParse_of_short (hn : n < 5) : exec (.frameParse n) s = .next
    { s with flen := BitVec.ofNat 32 n, fsm := .failSanity, crcIdx := 0xFF, recValid := false, status := 4 } := by
  have hentry : parseEntry s n = { frameEntry s .extractingBytes [] n with fsm := .failSanity } := sanityCheck_of_lt hn
  rw [exec_frameParse_of_ok hcap (frameRun_atRest (by rw [hentry]; rfl)), hentry]
  exact congrArg _ (frameCommit_of_fail .failSanity 4 rfl nofun rfl rfl rfl rfl rfl s)

theorem exec_frameParse_abort {t : Byte} {P L : Nat} (h : frameRun s.params frameFuel (parseEntry s n) =
      .ok { (parseEntry s n).header t P L with fsm := .abortLength }) :
    exec (.frameParse n) s = .next
      { s with flen := BitVec.ofNat 32 n, fsm := .abortLength, crcIdx := 0xFF, recValid := false, status := 3 } := by
  rw [exec_frameParse_of_ok hcap h]
  exact congrArg _ (frameCommit_of_fail .abortLength 3 rfl nofun rfl rfl rfl rfl rfl s)

end

/-- Settles O44: each abort is a transition to AbortLength, from DispatchType or from DispatchSubtype. -/
theorem parseAbortsOnLength : Obligations.ParseAbortsOnLength := by
  intro s n B h5 hcap h2 h
  have hf : (parseEntry s n).fsm = .dispatchType := parseEntry_fsm h5
  have byte (i : Nat) (hi : i < n) (hw : Memory.get? s.frameBuf i = some (B i)) :
      (parseEntry s n).byte s.params i = .ok (B i) := byte_of_get hcap hi hw
  by_cases htag : B 2 = 0x2A
  · have abort {t : Byte} {P L : Nat} (hd : dispatchSubtype s.params { parseEntry s n with fsm := .dispatchSubtype } =
        .ok { (parseEntry s n).header t P L with fsm := .abortLength }) :=
      exec_frameParse_abort hcap (frameRun_of_subtype_atRest hf (htag ▸ byte 2 (by omega) h2) hd rfl)
    rcases h with h | ⟨h3, h⟩ | ⟨h3, h, hn⟩ | ⟨P, L, hh, hP, hw, hbad⟩
    · exact absurd htag h
    · exact abort (t := B 3) (P := 0) (L := 0) (dispatchSubtype_of_unknown (byte 3 (by omega) h3) h)
    · exact abort (t := B 3) (P := 6) (L := 0) (dispatchSubtype_of_short (byte 3 (by omega) h3) (mem_longSubtypes.1 h) hn)
    · have hP5 := five_le_of_headerGives hh
      have header := dispatchSubtype_of_headerGives (c := { parseEntry s n with fsm := .dispatchSubtype })
        (byte 3 (by omega) (hw 3 (by omega) (by omega))) hh hP fun i hi hlt => byte i (by omega) (hw i (by omega) hlt)
      exact abort (header.trans (congrArg Except.ok (lengthGate_of_bad hbad)))
  · exact exec_frameParse_abort (t := 0) (P := 0) (L := 0) hcap (frameRun_of_other_tag hf (byte 2 (by omega) h2) htag)

/-! A frame that passes the length gate -/

theorem passesGate_parseEntry {P L : Nat} {B : Nat → Byte} (hcap : n ≤ s.params.frameCap) (htag : B 2 = 0x2A)
    (hh : HeaderGives B P L) (h2 : 2 ≤ L) (hfit : P + L + 2 ≤ n)
    (hw : ∀ i, 2 ≤ i → i < P → Memory.get? s.frameBuf i = some (B i)) : PassesGate s.params (parseEntry s n) B P L :=
  ⟨parseEntry_fsm (by have := five_le_of_headerGives hh; omega), hcap, htag, hh, h2, hfit, hw⟩

/-- Settles O45: VERIFY answers NOMATCH, and DIAG reads the n bytes where it is enabled. -/
theorem parseFailsMic : Obligations.ParseFailsMic := by
  intro s n P L B hcap htag hh h2 hfit hno hw
  have hP := five_le_of_headerGives hh
  have hg := passesGate_parseEntry hcap htag hh h2 hfit fun i hi hlt => hw i (.inl ⟨hi, by omega⟩)
  have diag (hd : s.params.diagEnable = true) : memReadRange s.params.frameCap s.frameBuf 0 n = .ok (slice B 0 n) :=
    memReadRange_of_fn (fun k => B (0 + k)) (by omega) fun k hk => hw _ (.inr ⟨hd, by omega⟩)
  rw [exec_frameParse_of_ok hcap
    (frameRun_of_noMatch hg (fun i hi hlt => hw i (.inl ⟨by omega, hlt⟩)) hno diag)]
  cases hd : s.params.diagEnable <;>
    simp [frameCommit, parseEntry, sanityCheck, frameEntry, FrameCtx.gated, FrameCtx.header, Fsm.resultCode, statusWord,
      ResultCode.code, mod32]

/-! A frame that checks -/

section
variable {P L : Nat} {B : Nat → Byte} {k : Fin 8} (hcap : n ≤ s.params.frameCap) (htag : B 2 = 0x2A)
  (hh : HeaderGives B P L) (h2 : 2 ≤ L) (hfit : P + L + 2 ≤ n) (hk : LowestMatch s.params B P L k)
  (hw : ∀ i, 2 ≤ i → i < P + L → Memory.get? s.frameBuf i = some (B i))
include hcap htag hh h2 hfit hk hw

/-- It faults as the reads of its fields do. -/
theorem exec_frameParse_of_readFields_error
    (h : readFields s.params ((parseEntry s n).header (B 3) P L) (fieldReads (B 3) L) = .error r) :
    exec (.frameParse n) s = .next (s.takeFault 0x51 r) := by
  have hP := five_le_of_headerGives hh
  have hg := passesGate_parseEntry hcap htag hh h2 hfit fun i hi hlt => hw i hi (by omega)
  exact exec_frameParse_of_error hcap (frameRun_of_readFields_error hg (fun i hi => hw i (by omega)) hk h)

/-- It emits the record of its fields, where they end inside it and are written. -/
theorem exec_frameParse_of_recordOf {rec : Record} (hr : RecordOf B n L rec)
    (hf : ∀ f ∈ fieldReads (B 3) L, FieldHolds (parseEntry s n) B f) :
    exec (.frameParse n) s = .next
      { s with
        flen := BitVec.ofNat 32 n
        fsm := .success
        crcIdx := BitVec.ofNat 8 k.val
        recValid := true
        record := rec
        out := s.out ++ [.emit rec]
        status := 2 } := by
  have hP := five_le_of_headerGives hh
  have hg := passesGate_parseEntry hcap htag hh h2 hfit fun i hi hlt => hw i hi (by omega)
  rw [exec_frameParse_of_ok hcap (frameRun_of_recordOf hg (fun i hi => hw i (by omega)) hk hr hf), frameCommit_emitted,
    parseEntry_trunc, parseEntry_n, statusWord_success, if_neg Bool.false_ne_true]

end

/-- SRC is a field of both kinds with a 6-byte header. -/
theorem src_mem_fieldReads {t : Byte} (h : t = 0x55 ∨ t = 0xD5) (L : Nat) : (26, 4) ∈ fieldReads t L := by
  rcases h with rfl | rfl <;> simp [fieldReads]

theorem two_le_of_mem_fieldReads {t : Byte} {L : Nat} : ∀ f ∈ fieldReads t L, 2 ≤ f.1 := by
  unfold fieldReads
  split_ifs <;> decide

/-- Settles O46: both kinds with a 6-byte header have a field that ends at byte 30. -/
theorem parseFieldBeyondFrameFaults : Obligations.ParseFieldBeyondFrameFaults := by
  intro s n L k B hcap htag hh h2 hfit hn hk hw
  refine exec_frameParse_of_readFields_error hcap htag hh h2 hfit hk (fun i hi hlt => hw i hi (by omega)) ?_
  have ht : B 3 = 0x55 ∨ B 3 = 0xD5 := hh.elim And.left fun h => absurd h.2.1 (by decide)
  refine readFields_fieldBounds (fun f hf hfn => ?_) (src_mem_fieldReads ht L) hn
  have := two_le_of_mem_fieldReads f hf
  exact readField_of_holds (B := B) hcap ⟨hfn, fun i hi hlt => hw i (by omega) (hlt.trans_le hfn)⟩

/-- Settles O47: the four fields of the layout of 0x55 hold. -/
theorem parseEmitsK55 : Obligations.ParseEmitsK55 := by
  intro s n L k B hcap hn htag ht hL h2 hfit hk hw
  refine exec_frameParse_of_recordOf hcap htag (.inl ⟨.inl ht, rfl, hL⟩) h2 hfit hk
    (fun i hi hlt => hw i (.inl ⟨hi, hlt⟩)) (.inl ⟨ht, hn, rfl⟩) ?_
  have holds (off len : Nat) (hb : off + len ≤ 30)
      (hr : ∀ i, off ≤ i → i < off + len → (7 ≤ i ∧ i < 19) ∨ (20 ≤ i ∧ i < 24) ∨ (26 ≤ i ∧ i < 30)) :
      FieldHolds (parseEntry s n) B (off, len) :=
    ⟨le_trans hb hn, fun i hi hlt => hw i (.inr (hr i hi hlt))⟩
  rw [ht, fieldReads, if_pos rfl]
  simp only [List.forall_mem_cons]
  exact ⟨holds 7 6 (by omega) (by omega), holds 13 6 (by omega) (by omega), holds 20 4 (by omega) (by omega),
    holds 26 4 (by omega) (by omega), nofun⟩

/-- Settles O48: KD2 has no field. -/
theorem parseEmitsKD2 : Obligations.ParseEmitsKD2 := by
  intro s n L k B hcap htag ht hL h2 hfit hk hw
  exact exec_frameParse_of_recordOf hcap htag (.inr ⟨ht, rfl, hL⟩) h2 hfit hk hw (.inr (.inl ⟨ht, rfl⟩))
    (by rw [ht]; exact nofun)

/-- Settles O49: the fields of the short form hold, and those of the long form are bytes of its payload. -/
theorem parseEmitsKD5 : Obligations.ParseEmitsKD5 := by
  intro s n L k B hcap hn htag ht hL h2 hfit hk hw
  have holds (off len : Nat) (hb : off + len ≤ n) (hr : ∀ i, off ≤ i → i < off + len →
      (2 ≤ i ∧ i < 6 + L) ∨ (7 ≤ i ∧ i < 11) ∨ (26 ≤ i ∧ i < 30)) : FieldHolds (parseEntry s n) B (off, len) :=
    ⟨hb, fun i hi hlt => hw i (hr i hi hlt)⟩
  refine exec_frameParse_of_recordOf hcap htag (.inl ⟨.inr ht, rfl, hL⟩) h2 hfit hk
    (fun i hi hlt => hw i (.inl ⟨hi, hlt⟩)) ?_ ?_
  · by_cases hlong : L = 0x47
    · rw [if_pos hlong]; exact .inr (.inr (.inr ⟨ht, hlong, rfl⟩))
    · rw [if_neg hlong]; exact .inr (.inr (.inl ⟨ht, hlong, hn, rfl⟩))
  · rw [ht, fieldReads, if_neg (by decide), if_pos rfl]
    refine List.forall_mem_cons.2 ⟨holds 7 4 (by omega) (by omega), List.forall_mem_cons.2
      ⟨holds 26 4 (by omega) (by omega), ?_⟩⟩
    by_cases hlong : L = 0x47
    · rw [if_pos hlong]
      simp only [List.forall_mem_cons]
      exact ⟨holds 16 4 (by omega) (by omega), holds 24 4 (by omega) (by omega), holds 32 6 (by omega) (by omega), nofun⟩
    · rw [if_neg hlong]; exact nofun

end Sys2Proof.Machine
end

section
/-! FRAME.DECODE up to its parser (45_frame_decoder.md R92, R93, R96, R97, R108), and the operand and read faults of both
FRAME commands (60_exceptions.md R118). -/

namespace Sys2Proof.Machine

open Sys2Proof

/-! SearchingPreamble and ExtractingBytes -/

section
variable {p : Params} {c : FrameCtx} (hf : c.fsm = .searchingPreamble)
include hf

theorem frameRun_searchingPreamble :
    frameRun p frameFuel c = (searchingPreamble p c >>= frameRun p frameFuel) := by
  rw [frameRun_eq_bind (by rw [hf]; rfl), frameStep_searchingPreamble hf]

theorem frameRun_of_notFound (h : runSearch p.search c.bits 0 p.syncPattern = none) :
    frameRun p frameFuel c = .ok { c with n := 0, fsm := .noSync } := by
  rw [frameRun_searchingPreamble hf, searchingPreamble_of_notFound h, ok_bind, frameRun_atRest rfl]

variable {pos : Nat} (h : runSearch p.search c.bits 0 p.syncPattern = some pos)
include h

theorem frameRun_of_not_patternAt (hp : patternAt c.bits p.syncPattern pos = false) :
    frameRun p frameFuel c = .error .collabContract := by
  rw [frameRun_searchingPreamble hf, searchingPreamble_of_not_patternAt h hp, error_bind]

theorem frameRun_of_found (hp : patternAt c.bits p.syncPattern pos = true) : frameRun p frameFuel c =
    frameRun p frameFuel (extractingBytes p { c with pos := pos, fsm := .extractingBytes }) := by
  rw [frameRun_searchingPreamble hf, searchingPreamble_of_found h hp, ok_bind, frameRun_eq_bind rfl,
    frameStep_extractingBytes rfl, ok_bind]

end

/-! The command -/

/-- What FRAME.DECODE commits (R108). -/
def decodeCommit (c : FrameCtx) (s : State) : State :=
  { frameCommit c s with frameBuf := if c.fsm = .noSync then s.frameBuf else c.buf }

/-- The context with which FRAME.DECODE enters its parser: SEARCH has found pos, and the bytes are extracted (R97). -/
def decodeEntry (s : State) (bits : List Bool) (pos : Nat) : FrameCtx :=
  extractingBytes s.params { frameEntry s .searchingPreamble bits 0 with pos := pos, fsm := .extractingBytes }

variable {s : State} {n : Nat} {bits : List Bool} {c : FrameCtx}

theorem frameDecode_bounds (h : s.params.nBits < n) : frameDecode n s = .error .bounds := by
  rw [frameDecode, checkFrameDecode, faultIf_true h, error_bind]

theorem frameDecode_of_read_error {r : FaultReason} (hn : n ≤ s.params.nBits)
    (h : memReadRange s.params.nBits s.bitIn 0 n = .error r) : frameDecode n s = .error r := by
  rw [frameDecode, checkFrameDecode, faultIf_false (Nat.not_lt.2 hn), ok_bind, h, error_bind]

theorem frameDecode_unwritten {k : Nat} (hn : n ≤ s.params.nBits) (hk : k < n) (hu : Memory.get? s.bitIn k = none) :
    frameDecode n s = .error .unwrittenRead :=
  frameDecode_of_read_error hn (memReadRange_unwritten (by omega) hk (by rwa [Nat.zero_add]))

theorem memReadRange_bits {size : Nat} {m : Memory Bool} (hlen : bits.length ≤ size)
    (h : ∀ j (h : j < bits.length), Memory.get? m j = some bits[j]) : memReadRange size m 0 bits.length = .ok bits :=
  memReadRange_ok_iff.2 ⟨rfl, fun k hk => by rw [Nat.zero_add]; exact ⟨by omega, h k hk⟩⟩

/-- With the bits read, FRAME.DECODE is its machine. -/
theorem frameDecode_of_read (hn : n ≤ s.params.nBits) (h : memReadRange s.params.nBits s.bitIn 0 n = .ok bits) :
    frameDecode n s = (frameRun s.params frameFuel (frameEntry s .searchingPreamble bits 0) >>= fun c =>
      .ok (decodeCommit c s)) := by
  rw [frameDecode, checkFrameDecode, faultIf_false (Nat.not_lt.2 hn), ok_bind, h, ok_bind]
  rfl

theorem decodeCommit_of_entered (h : c.fsm ≠ .noSync) : decodeCommit c s = { frameCommit c s with frameBuf := c.buf } := by
  rw [decodeCommit, if_neg h]

/-- Settles O52: the machine ends in NoSync or faults with its first transition. -/
theorem decodeWithoutSync : Obligations.DecodeWithoutSync := by
  intro s bits hlen hbits
  have decode := frameDecode_of_read hlen (memReadRange_bits hlen hbits)
  refine ⟨fun h => finish_ok ?_, fun pos h hp => finish_error ?_⟩
  · rw [decode, frameRun_of_notFound rfl h, ok_bind, decodeCommit, if_pos rfl]
    exact congrArg _ (frameCommit_of_fail .noSync 6 rfl nofun rfl rfl rfl rfl rfl s)
  · have hp : patternAt bits s.params.syncPattern pos = false := Bool.eq_false_iff.2 (mt patternAt_iff.1 hp)
    rw [decode, frameRun_of_not_patternAt rfl h hp, error_bind]

/-! The parser of FRAME.DECODE -/

section
variable {pos : Nat} {es : List Byte} (hx : Extracts s bits pos es)
include hx

theorem decodeEntry_n : (decodeEntry s bits pos).n = min es.length s.params.frameCap := by
  obtain ⟨-, -, -, -, -, rfl⟩ := hx; rfl

theorem decodeEntry_trunc : (decodeEntry s bits pos).trunc = decide (s.params.frameCap < es.length) := by
  obtain ⟨-, -, -, -, -, rfl⟩ := hx; rfl

theorem decodeEntry_buf :
    (decodeEntry s bits pos).buf = Memory.setRange s.frameBuf 0 (es.take s.params.frameCap) := by
  obtain ⟨-, -, -, -, -, rfl⟩ := hx; rfl

theorem get?_decodeEntry_of_lt {i : Nat} (hi : i < min es.length s.params.frameCap) :
    Memory.get? (decodeEntry s bits pos).buf i = es[i]? := by
  have htake : i < (es.take s.params.frameCap).length := by rw [List.length_take]; omega
  have hget := Memory.get?_setRange s.frameBuf (i := 0) _ htake
  rw [Nat.zero_add, List.getElem_take] at hget
  rw [decodeEntry_buf hx, hget, List.getElem?_eq_getElem]

theorem get?_decodeEntry_of_ge {i : Nat} (hi : min es.length s.params.frameCap ≤ i) :
    Memory.get? (decodeEntry s bits pos).buf i = Memory.get? s.frameBuf i := by
  rw [decodeEntry_buf hx]
  exact Memory.get?_setRange_of_ge _ _ (by rw [List.length_take]; omega)

/-- Where SEARCH finds the pattern, FRAME.DECODE is the run of its parser. -/
theorem frameDecode_of_extracts : frameDecode bits.length s =
    (frameRun s.params frameFuel (decodeEntry s bits pos) >>= fun c => .ok (decodeCommit c s)) := by
  obtain ⟨hlen, hbits, hs, hp, hp', -⟩ := hx
  have hp : patternAt bits s.params.syncPattern pos = true := patternAt_iff.2 ⟨hp, hp'⟩
  rw [frameDecode_of_read hlen (memReadRange_bits hlen hbits), frameRun_of_found rfl hs hp]
  rfl

theorem exec_frameDecode_of_ok (h : frameRun s.params frameFuel (decodeEntry s bits pos) = .ok c) :
    exec (.frameDecode bits.length) s = .next (decodeCommit c s) :=
  finish_ok (by rw [frameDecode_of_extracts hx, h, ok_bind])

theorem exec_frameDecode_of_error {r : FaultReason}
    (h : frameRun s.params frameFuel (decodeEntry s bits pos) = .error r) :
    exec (.frameDecode bits.length) s = .next (s.takeFault 0x50 r) :=
  finish_error (by rw [frameDecode_of_extracts hx, h, error_bind])

/-- Ten bits per byte: fewer than 50 bits give fewer than 5 bytes (R108). -/
theorem length_lt_of_extracts (h : bits.length - (pos + s.params.syncExtractOffset) < 50) : es.length < 5 := by
  obtain ⟨-, -, -, -, -, rfl⟩ := hx
  have := runExtract_length_le s.params.extract bits (pos + s.params.syncExtractOffset)
    (bits.length - (pos + s.params.syncExtractOffset))
  omega

end

/-- Settles O43: the sanity check ends both machines before a header byte is read. -/
theorem shortFrameFailsSanity : Obligations.ShortFrameFailsSanity := by
  refine ⟨fun s n hn hcap => exec_frameParse_of_short hcap hn, fun s bits pos es hx hcap h => ?_⟩
  have hlen : es.length < 5 := h.elim id (length_lt_of_extracts hx)
  have hmin : min es.length s.params.frameCap = es.length := by omega
  have hn : (decodeEntry s bits pos).n = es.length := (decodeEntry_n hx).trans hmin
  have htrunc : (decodeEntry s bits pos).trunc = false := (decodeEntry_trunc hx).trans (decide_eq_false (by omega))
  have hfsm : (decodeEntry s bits pos).fsm = .failSanity :=
    congrArg FrameCtx.fsm (sanityCheck_of_lt (show (decodeEntry s bits pos).n < 5 by omega))
  refine ⟨_, exec_frameDecode_of_ok hx (frameRun_atRest (by rw [hfsm]; rfl)), ?_, fun i hi => ?_, fun i hi => ?_⟩
  · rw [decodeCommit_of_entered (by rw [hfsm]; nofun)]
    rw [frameCommit_of_fail .failSanity 4 hfsm nofun rfl rfl rfl htrunc rfl, hn]
  · rw [decodeCommit_of_entered (by rw [hfsm]; nofun)]
    exact get?_decodeEntry_of_lt hx (hmin.symm ▸ hi)
  · rw [decodeCommit_of_entered (by rw [hfsm]; nofun)]
    exact get?_decodeEntry_of_ge hx (hmin.symm ▸ hi)

theorem fieldReads_le_thirty {t : Byte} {L : Nat} (h : t ≠ 0xD5 ∨ L ≠ 0x47) :
    ∀ f ∈ fieldReads t L, f.1 + f.2 ≤ 30 := by
  unfold fieldReads
  split_ifs with h55 hd5 hL
  · decide
  · exact absurd h (by simp [hd5, hL])
  · decide
  · exact nofun

theorem fieldReads_le_long (t : Byte) (L : Nat) : ∀ f ∈ fieldReads t L, f.1 + f.2 ≤ 38 := by
  unfold fieldReads
  split_ifs <;> decide

/-- The fields of a record end inside its frame. -/
theorem fieldReads_le_of_recordOf {B : Nat → Byte} {P L n : Nat} {r : Record} (hfit : P + L + 2 ≤ n)
    (hr : RecordOf B n L r) : ∀ f ∈ fieldReads (B 3) L, f.1 + f.2 ≤ n := by
  rcases hr with ⟨h3, hn, -⟩ | ⟨h3, -⟩ | ⟨-, hL, hn, -⟩ | ⟨-, hL, -⟩
  · exact fun f hf => (fieldReads_le_thirty (.inl (by rw [h3]; decide)) f hf).trans hn
  · rw [h3]
    exact nofun
  · exact fun f hf => (fieldReads_le_thirty (.inr hL) f hf).trans hn
  · exact fun f hf => (fieldReads_le_long _ _ f hf).trans (by omega)

/-- Settles O50: the extracted bytes are written, so every field of a valid frame holds. -/
theorem decodeEmitsRecord : Obligations.DecodeEmitsRecord := by
  intro s bits pos es k r hx ⟨h5, htag, P, L, hh, h2, hfit, hk, hr⟩
  have hn := decodeEntry_n hx
  have written (i : Nat) (hi : i < min es.length s.params.frameCap) :
      Memory.get? (decodeEntry s bits pos).buf i = some (es.getD i 0) := by
    rw [get?_decodeEntry_of_lt hx hi, List.getD_eq_getElem?_getD, List.getElem?_eq_getElem (by omega)]
    rfl
  have hg : PassesGate s.params (decodeEntry s bits pos) (fun i => es.getD i 0) P L :=
    { fsm := congrArg FrameCtx.fsm (sanityCheck_of_ge (show 5 ≤ (decodeEntry s bits pos).n by omega))
      cap := by omega
      tag := htag
      header := hh
      two := h2
      fits := by omega
      written := fun i _ hi => written i (by omega) }
  have hbound := fieldReads_le_of_recordOf hfit hr
  have hrun := frameRun_of_recordOf hg (fun i _ hi => written i (by omega)) hk (hn ▸ hr) fun f hf =>
    ⟨hn ▸ hbound f hf, fun i _ hi => written i (by have := hbound f hf; omega)⟩
  have hcommit : decodeCommit ((decodeEntry s bits pos).emitted (es.getD 3 0) P L k r) s =
      { frameCommit ((decodeEntry s bits pos).emitted (es.getD 3 0) P L k r) s with
        frameBuf := (decodeEntry s bits pos).buf } := decodeCommit_of_entered nofun
  refine ⟨_, exec_frameDecode_of_ok hx hrun, ?_, fun i hi => ?_, fun i hi => ?_⟩
  · rw [hcommit, frameCommit_emitted, hn, decodeEntry_trunc hx, statusWord_success]
    simp only [decide_eq_true_eq]
  · rw [hcommit]
    exact get?_decodeEntry_of_lt hx hi
  · rw [hcommit]
    exact get?_decodeEntry_of_ge hx hi

/-! The operands and the reads -/

section
variable {B : Nat → Byte}

/-- An unwritten byte of the header faults when it is read (R98, R99). -/
theorem exec_frameParse_header_unwritten (h5 : 5 ≤ n) (hcap : n ≤ s.params.frameCap)
    (h : Memory.get? s.frameBuf 2 = none ∨
      Memory.get? s.frameBuf 2 = some 0x2A ∧ Memory.get? s.frameBuf 3 = none ∨
      Memory.get? s.frameBuf 2 = some 0x2A ∧ Memory.get? s.frameBuf 3 = some (B 3) ∧
        (B 3 = 0xD2 ∧ Memory.get? s.frameBuf 4 = none ∨
         (B 3 = 0x55 ∨ B 3 = 0xD5) ∧ 6 ≤ n ∧ (Memory.get? s.frameBuf 4 = none ∨ Memory.get? s.frameBuf 5 = none))) :
    exec (.frameParse n) s = .next (s.takeFault 0x51 .unwrittenRead) := by
  have hf : (parseEntry s n).fsm = .dispatchType := parseEntry_fsm h5
  have byte {i : Nat} {b : Byte} (hi : i < n) (hw : Memory.get? s.frameBuf i = some b) :
      (parseEntry s n).byte s.params i = .ok b := memRead_of_get (by omega) hw
  have unread {i : Nat} (hi : i < n) (hu : Memory.get? s.frameBuf i = none) :
      (parseEntry s n).byte s.params i = .error .unwrittenRead := memRead_unwritten (by omega) hu
  refine exec_frameParse_of_error hcap ?_
  rcases h with hu | ⟨htag, hu⟩ | ⟨htag, h3, ⟨hd2, hu⟩ | ⟨ht, hn, hu⟩⟩
  · exact frameRun_of_tag_error hf (unread (by omega) hu)
  · exact frameRun_of_subtype_error hf (byte (by omega) htag) (dispatchSubtype_of_subtype_error (unread (by omega) hu))
  · exact frameRun_of_subtype_error hf (byte (by omega) htag)
      (dispatchSubtype_of_lengthByte_error (byte (by omega) (hd2 ▸ h3)) (unread (by omega) hu))
  · have field : memReadRange s.params.frameCap s.frameBuf 4 2 = .error .unwrittenRead := by
      rcases hu with hu | hu
      · exact memReadRange_unwritten (k := 0) (by omega) (by omega) hu
      · exact memReadRange_unwritten (k := 1) (by omega) (by omega) hu
    exact frameRun_of_subtype_error hf (byte (by omega) htag)
      (dispatchSubtype_of_length_error (byte (by omega) h3) ht hn field)

/-- With the header in order, an unwritten byte of the payload faults, and, where no candidate checks and DIAG is enabled,
an unwritten byte of the frame (R100, R111). -/
theorem exec_frameParse_payload_unwritten {P L k : Nat} (hcap : n ≤ s.params.frameCap) (htag : B 2 = 0x2A)
    (hh : HeaderGives B P L) (h2 : 2 ≤ L) (hfit : P + L + 2 ≤ n)
    (hw : ∀ i, 2 ≤ i → i < P → Memory.get? s.frameBuf i = some (B i)) (hu : Memory.get? s.frameBuf k = none)
    (h : (P ≤ k ∧ k < P + L) ∨
      ((∀ i, P ≤ i → i < P + L → Memory.get? s.frameBuf i = some (B i)) ∧ NoMatch s.params B P L ∧
        s.params.diagEnable = true ∧ k < n)) :
    exec (.frameParse n) s = .next (s.takeFault 0x51 .unwrittenRead) := by
  have hg := passesGate_parseEntry hcap htag hh h2 hfit hw
  refine exec_frameParse_of_error hcap ?_
  rcases h with ⟨hk, hlt⟩ | ⟨hB, hno, hd, hk⟩
  · obtain ⟨j, rfl⟩ := Nat.exists_eq_add_of_le hk
    exact frameRun_of_verify_error hg (verify_unwritten h2 (by omega) (by omega) hu)
  · have read : memReadRange s.params.frameCap s.frameBuf 0 n = .error .unwrittenRead :=
      memReadRange_unwritten (by omega) hk (by rwa [Nat.zero_add])
    exact frameRun_of_diag_error hg hB hno hd read

end

/-- The bytes of a memory, 0 where it is unwritten. -/
def bytesOf (m : Memory Byte) (i : Nat) : Byte := (Memory.get? m i).getD 0

theorem get?_eq_bytesOf {m : Memory Byte} {i : Nat} (h : Memory.get? m i ≠ none) :
    Memory.get? m i = some (bytesOf m i) := by
  obtain ⟨b, hb⟩ := Option.ne_none_iff_exists'.1 h
  rw [bytesOf, hb, Option.getD_some]

/-- Settles O42: the checks decide first, then the reads in their order, down to the first field that faults. -/
theorem frameOperandAndReadFaults : Obligations.FrameOperandAndReadFaults := by
  refine ⟨fun s n => ⟨fun h => finish_error (frameDecode_bounds h),
      fun k hn hk hu => finish_error (frameDecode_unwritten hn hk hu), exec_frameParse_bounds⟩,
    fun s n B h5 hcap h => exec_frameParse_header_unwritten h5 hcap h,
    fun s n P L k B hcap htag hh h2 hfit hw hu h =>
      exec_frameParse_payload_unwritten hcap htag hh h2 hfit hw hu h,
    fun s n P L off len k B before after hcap htag hh h2 hfit hw hk hfields hbefore => ?_⟩
  have fault {r : FaultReason} (hf : readField s.params ((parseEntry s n).header (B 3) P L) (off, len) = .error r) :
      exec (.frameParse n) s = .next (s.takeFault 0x51 r) := by
    refine exec_frameParse_of_readFields_error hcap htag hh h2 hfit hk hw
      (hfields ▸ readFields_append_cons (fun f hf => ?_) hf)
    obtain ⟨hn, hne⟩ := hbefore f hf
    exact readField_of_holds (B := bytesOf s.frameBuf) hcap ⟨hn, fun i hi hlt => get?_eq_bytesOf (hne i hi hlt)⟩
  exact ⟨fun hn => fault (readField_fieldBounds hn),
    fun i hn hi hlt hu => fault (readField_unwritten hcap hn hi hlt hu)⟩

end Sys2Proof.Machine
end

section
/-! What the parser of a FRAME command depends on (45_frame_decoder.md R107, D53): its reads are of B[0 .. n), so two runs
with the same bytes there go the same way. -/

namespace Sys2Proof.Machine

open Sys2Proof

/-! The parser: the machine from the sanity check on -/

/-- The number of bytes that the checks before a state have made sure of (R97, R99). -/
def FrameCtx.bytesNeeded (c : FrameCtx) : Nat :=
  match c.fsm with
  | .dispatchType | .dispatchSubtype => 5
  | .validatingCrc => c.payload + c.len + 2
  | _ => 0

/-- The context c is one of the parser entered with e: past SEARCH and EXTRACT, with the n bytes, B and TRUNC of e. -/
structure ParserOf (e c : FrameCtx) : Prop where
  entered : c.fsm ∉ ([.idle, .searchingPreamble, .extractingBytes, .noSync] : List Fsm)
  n : c.n = e.n
  buf : c.buf = e.buf
  trunc : c.trunc = e.trunc
  needed : c.bytesNeeded ≤ c.n
  success : c.recValid = true → c.fsm = .success

variable {p : Params} {e c d : FrameCtx}

theorem parserOf_sanityCheck (h : c.recValid = false) : ParserOf (sanityCheck c) (sanityCheck c) := by
  have hs : (sanityCheck c).recValid = true → (sanityCheck c).fsm = .success := fun e => absurd (h.symm.trans e) nofun
  refine ⟨?_, rfl, rfl, rfl, ?_, hs⟩
  · rcases sanityCheck_fsm c with e | e <;> rw [e] <;> decide
  · by_cases hn : c.n < 5
    · rw [sanityCheck_of_lt hn]; exact Nat.zero_le _
    · rw [sanityCheck_of_ge (Nat.not_lt.1 hn)]; exact Nat.not_lt.1 hn

theorem parserOf_parseEntry (s : State) (n : Nat) : ParserOf (parseEntry s n) (parseEntry s n) :=
  parserOf_sanityCheck rfl

theorem parserOf_decodeEntry (s : State) (bits : List Bool) (pos : Nat) :
    ParserOf (decodeEntry s bits pos) (decodeEntry s bits pos) :=
  parserOf_sanityCheck rfl

/-- A transition before Success that keeps n, B and TRUNC stays in the parser. -/
theorem ParserOf.of_inner {c' : FrameCtx} (h : ParserOf e c) (hne : c.fsm ≠ .success) (hr : c'.recValid = c.recValid)
    (hn : c'.n = c.n) (hb : c'.buf = c.buf) (ht : c'.trunc = c.trunc)
    (hf : c'.fsm ∉ ([.idle, .searchingPreamble, .extractingBytes, .noSync] : List Fsm))
    (hneed : c'.bytesNeeded ≤ c.n) : ParserOf e c' :=
  ⟨hf, hn.trans h.n, hb.trans h.buf, ht.trans h.trunc, hn ▸ hneed, fun hv => absurd (h.success (hr ▸ hv)) hne⟩

theorem ParserOf.lengthGate {t : Byte} {P L : Nat} (h : ParserOf e c) (hne : c.fsm ≠ .success) :
    ParserOf e (lengthGate (c.header t P L)) := by
  by_cases hbad : L < 2 ∨ c.n < P + L + 2
  · rw [lengthGate_of_bad (c := c.header t P L) hbad]
    exact h.of_inner hne rfl rfl rfl rfl (by simp) (Nat.zero_le _)
  · rw [not_or, Nat.not_lt, Nat.not_lt] at hbad
    rw [lengthGate_of_good (c := c.header t P L) hbad.1 hbad.2]
    exact h.of_inner hne rfl rfl rfl rfl (by simp) hbad.2

theorem ParserOf.frameStep {c' : FrameCtx} (h : ParserOf e c) (hs : frameStep p c = .ok c') : ParserOf e c' := by
  rcases frameStep_ok hs with ⟨hf, -⟩ | ⟨hf, -⟩ | ⟨hf, hs⟩ | ⟨hf, hs⟩ | ⟨hf, hs⟩ | ⟨hf, hs⟩ | ⟨hf, rfl⟩ | ⟨-, rfl⟩
  · exact absurd h.entered (by simp [hf])
  · exact absurd h.entered (by simp [hf])
  · have h5 : 5 ≤ c.n := by simpa [FrameCtx.bytesNeeded, hf] using h.needed
    obtain ⟨tag, -, rfl⟩ := dispatchType_ok_iff.1 hs
    split
    · exact h.of_inner (by simp [hf]) rfl rfl rfl rfl (by simp) h5
    · exact h.of_inner (by simp [hf]) rfl rfl rfl rfl (by simp) (Nat.zero_le _)
  · have hne : c.fsm ≠ .success := by simp [hf]
    obtain ⟨t, -, ⟨-, -, rfl⟩ | ⟨-, -, field, -, rfl⟩ | ⟨-, b, -, rfl⟩ | ⟨-, -, -, rfl⟩⟩ := dispatchSubtype_ok_iff.1 hs
    · exact h.of_inner hne rfl rfl rfl rfl (by simp) (Nat.zero_le _)
    · exact h.lengthGate hne
    · exact h.lengthGate hne
    · exact h.of_inner hne rfl rfl rfl rfl (by simp) (Nat.zero_le _)
  · obtain ⟨r, -, ⟨k, v, -, rfl⟩ | ⟨-, -, rfl⟩ | ⟨-, -, bs, -, rfl⟩⟩ := validatingCrc_ok_iff.1 hs <;>
      exact h.of_inner (by simp [hf]) rfl rfl rfl rfl (by simp) (Nat.zero_le _)
  · obtain ⟨r, -, rfl⟩ := extractingFields_ok_iff.1 hs
    exact h.of_inner (by simp [hf]) rfl rfl rfl rfl (by simp) (Nat.zero_le _)
  · exact ⟨by simp [emitRecord], h.n, h.buf, h.trunc, Nat.zero_le _, fun _ => rfl⟩
  · exact h

theorem ParserOf.frameRun {n : Nat} {c' : FrameCtx} (h : ParserOf e c) (hr : frameRun p n c = .ok c') : ParserOf e c' :=
  frameRun_keeps (ParserOf e) (fun _ _ h hs => h.frameStep hs) h hr

theorem ParserOf.ne_noSync (h : ParserOf e c) : c.fsm ≠ .noSync := fun hf => h.entered (by simp [hf])

/-! The same frame on other input -/

/-- The context c with the input of d in place of its own: the bits, what SEARCH and EXTRACT made of them, and B. -/
def FrameCtx.over (c d : FrameCtx) : FrameCtx :=
  { c with bits := d.bits, pos := d.pos, trunc := d.trunc, buf := d.buf }

@[simp] theorem FrameCtx.over_fsm (c d : FrameCtx) : (c.over d).fsm = c.fsm := rfl
@[simp] theorem FrameCtx.over_n (c d : FrameCtx) : (c.over d).n = c.n := rfl
@[simp] theorem FrameCtx.over_subtype (c d : FrameCtx) : (c.over d).subtype = c.subtype := rfl
@[simp] theorem FrameCtx.over_payload (c d : FrameCtx) : (c.over d).payload = c.payload := rfl
@[simp] theorem FrameCtx.over_len (c d : FrameCtx) : (c.over d).len = c.len := rfl

theorem memRead_congr {α : Type} {size i : Nat} {m m' : Memory α} (h : Memory.get? m i = Memory.get? m' i) :
    memRead size m i = memRead size m' i := by
  rw [memRead, memRead, h]

theorem memReadRange_congr {α : Type} {size i n : Nat} {m m' : Memory α}
    (h : ∀ j, i ≤ j → j < i + n → Memory.get? m j = Memory.get? m' j) :
    memReadRange size m i n = memReadRange size m' i n := by
  induction n generalizing i with
  | zero => rfl
  | succ n ih =>
    rw [memReadRange, memReadRange, memRead_congr (h i (Nat.le_refl i) (by omega)),
      ih fun j hj hlt => h j (by omega) (by omega)]

section
variable (h : ∀ i, i < c.n → Memory.get? d.buf i = Memory.get? c.buf i)
include h

theorem byte_over {i : Nat} (hi : i < c.n) : (c.over d).byte p i = c.byte p i := memRead_congr (h i hi)

theorem memReadRange_over {i n : Nat} (hi : i + n ≤ c.n) :
    memReadRange p.frameCap (c.over d).buf i n = memReadRange p.frameCap c.buf i n :=
  memReadRange_congr fun j _ hlt => h j (by omega)

theorem verify_over {off len : Nat} (hn : off + len + 2 ≤ c.n) : verify p (c.over d).buf off len = verify p c.buf off len := by
  rw [verify, verify, memReadRange_over h (by omega), memReadRange_over h (by omega)]

theorem field4_over (off : Nat) : field4 p (c.over d) off = field4 p c off := by
  rw [field4, field4, FrameCtx.over_n]
  by_cases hn : c.n < off + 4
  · rw [faultIf_true hn, error_bind, error_bind]
  · rw [faultIf_false hn, ok_bind, ok_bind, byte_over h (by omega), byte_over h (by omega), byte_over h (by omega),
      byte_over h (by omega)]

theorem field6_over (off : Nat) : field6 p (c.over d) off = field6 p c off := by
  rw [field6, field6, FrameCtx.over_n]
  by_cases hn : c.n < off + 6
  · rw [faultIf_true hn, error_bind, error_bind]
  · rw [faultIf_false hn, ok_bind, ok_bind, byte_over h (by omega), byte_over h (by omega), byte_over h (by omega),
      byte_over h (by omega), byte_over h (by omega), byte_over h (by omega)]

theorem fieldsOf_over : fieldsOf p (c.over d) = fieldsOf p c := by
  simp only [fieldsOf, fields55, fieldsD5, fieldU32, field4_over h, field6_over h, FrameCtx.over_subtype,
    FrameCtx.over_len]

theorem dispatchType_over (h5 : 5 ≤ c.n) :
    dispatchType p (c.over d) = (dispatchType p c >>= fun c' => .ok (c'.over d)) := by
  rw [dispatchType, dispatchType, byte_over h (by omega), bind_assoc]
  rfl

theorem dispatchSubtype_over (h5 : 5 ≤ c.n) :
    dispatchSubtype p (c.over d) = (dispatchSubtype p c >>= fun c' => .ok (c'.over d)) := by
  rw [dispatchSubtype, dispatchSubtype, byte_over h (by omega), bind_assoc]
  refine bind_congr fun t => ?_
  by_cases hlong : t = 0x55 ∨ t = 0xD5
  · rw [if_pos hlong, if_pos hlong]
    by_cases hn : c.n < 6
    · rw [if_pos hn, if_pos (c := (c.over d).n < 6) hn]
      rfl
    · rw [if_neg hn, if_neg (c := (c.over d).n < 6) hn, memReadRange_over h (by omega), bind_assoc]
      rfl
  · rw [if_neg hlong, if_neg hlong]
    by_cases hd2 : t = 0xD2
    · rw [if_pos hd2, if_pos hd2, byte_over h (by omega), bind_assoc]
      rfl
    · rw [if_neg hd2, if_neg hd2]
      rfl

theorem validatingCrc_over (hn : c.payload + c.len + 2 ≤ c.n) :
    validatingCrc p (c.over d) = (validatingCrc p c >>= fun c' => .ok (c'.over d)) := by
  rw [validatingCrc, validatingCrc, FrameCtx.over_payload, FrameCtx.over_len, verify_over h hn, bind_assoc]
  refine bind_congr fun r => ?_
  match r with
  | some (k, v) => rfl
  | none =>
    cases p.diagEnable with
    | false => rfl
    | true =>
      simp only [if_true]
      rw [FrameCtx.over_n, memReadRange_over h (by omega), bind_assoc]
      rfl

theorem extractingFields_over :
    extractingFields p (c.over d) = (extractingFields p c >>= fun c' => .ok (c'.over d)) := by
  rw [extractingFields, extractingFields, fieldsOf_over h, bind_assoc]
  rfl

end

/-- A transition of the parser reads nothing but B[0 .. n). -/
theorem frameStep_over (hc : ParserOf e c) (h : ∀ i, i < c.n → Memory.get? d.buf i = Memory.get? c.buf i) :
    frameStep p (c.over d) = (frameStep p c >>= fun c' => .ok (c'.over d)) := by
  have hentered := hc.entered
  have hneed := hc.needed
  rw [FrameCtx.bytesNeeded] at hneed
  rw [frameStep, frameStep, FrameCtx.over_fsm]
  cases hf : c.fsm with
  | searchingPreamble | extractingBytes => simp [hf] at hentered
  | dispatchType => exact dispatchType_over h (by simpa only [hf] using hneed)
  | dispatchSubtype => exact dispatchSubtype_over h (by simpa only [hf] using hneed)
  | validatingCrc => exact validatingCrc_over h (by simpa only [hf] using hneed)
  | extractingFields => exact extractingFields_over h
  | emit | idle | success | abortLength | failSanity | failMic | noSync => rfl

/-- So a run of the parser on another B with the same n bytes goes the same way, and leaves that B. -/
theorem frameRun_over {n : Nat} (hc : ParserOf e c) (h : ∀ i, i < e.n → Memory.get? d.buf i = Memory.get? e.buf i) :
    frameRun p n (c.over d) = (frameRun p n c >>= fun c' => .ok (c'.over d)) := by
  induction n generalizing c with
  | zero => rfl
  | succ n ih =>
    cases hr : c.fsm.atRest with
    | true => rw [frameRun_atRest hr, frameRun_atRest (c := c.over d) hr, ok_bind]
    | false =>
      rw [frameRun_succ hr, frameRun_succ (c := c.over d) hr, frameStep_over hc (by rwa [hc.n, hc.buf])]
      cases hs : frameStep p c with
      | error r => rfl
      | ok c' => exact ih (hc.frameStep hs)

end Sys2Proof.Machine
end

section
/-! FRAME.DECODE and FRAME.PARSE compared (45_frame_decoder.md D53), what their outcome depends on (R107), and what they
leave unchanged (R108, R109). -/

namespace Sys2Proof.Machine

open Sys2Proof

/-! FRAME.DECODE does what FRAME.PARSE does -/

/-- The state with the extracted bytes, cut at FRAME_CAP, in FRAME_BUF. -/
def State.withFrame (s : State) (es : List Byte) : State :=
  { s with frameBuf := Memory.setRange s.frameBuf 0 (es.take s.params.frameCap) }

/-- The two parsers run alike: they differ in TRUNC and in what SEARCH found only. -/
theorem frameRun_decodeEntry {s : State} {bits : List Bool} {pos : Nat} {es : List Byte} (hx : Extracts s bits pos es) :
    frameRun s.params frameFuel (decodeEntry s bits pos) =
      (frameRun s.params frameFuel (parseEntry (s.withFrame es) (min es.length s.params.frameCap)) >>= fun c =>
        .ok (c.over (decodeEntry s bits pos))) := by
  have hover : decodeEntry s bits pos =
      (parseEntry (s.withFrame es) (min es.length s.params.frameCap)).over (decodeEntry s bits pos) := by
    obtain ⟨-, -, -, -, -, rfl⟩ := hx
    rfl
  have hbuf := decodeEntry_buf hx
  rw [← frameRun_over (parserOf_parseEntry _ _) fun i _ => by rw [hbuf]; rfl, ← hover]

theorem takeFault_reason_inj {s t : State} {o : Byte} {f g : FaultReason} (h : s.takeFault o f = t.takeFault o g) :
    f = g := by
  have hcode : f.code = g.code := by
    rw [← faultWord_low o f, ← faultWord_low o g]
    exact congrArg (fun u : State => u.fault.extractLsb' 0 8) h
  revert hcode
  cases f <;> cases g <;> decide

theorem statusWord_trunc (r : ResultCode) (trunc : Bool) :
    statusWord r trunc = statusWord r false ||| (if trunc then 0x10 else 0) := by
  simp [statusWord]

/-- The same commit, with the bytes and the TRUNC of the context d. -/
theorem decodeCommit_over {c d : FrameCtx} (hne : c.fsm ≠ .noSync) (ht : c.trunc = false) (s : State) :
    decodeCommit (c.over d) s =
      { frameCommit c s with
        status := (frameCommit c s).status ||| (if d.trunc = true then 0x10 else 0)
        frameBuf := d.buf } := by
  rw [frameCommit_status, if_neg hne, ht, ← statusWord_trunc, decodeCommit_of_entered (c := c.over d) hne]
  simp only [frameCommit, FrameCtx.over, hne, if_false]
  rfl

/-- Settles O51: the two parsers run alike, so they fault alike or commit alike but for TRUNC. -/
theorem decodeRefinesParse : Obligations.DecodeRefinesParse := by
  intro s bits pos es u hh hx hu
  have hcap : min es.length s.params.frameCap ≤ (s.withFrame es).params.frameCap := Nat.min_le_right _ _
  have hdecode := frameRun_decodeEntry hx
  cases hrun : frameRun s.params frameFuel (parseEntry (s.withFrame es) (min es.length s.params.frameCap)) with
  | error r =>
    rw [hrun, error_bind] at hdecode
    obtain rfl : u = (s.withFrame es).takeFault 0x51 r :=
      Host.Outcome.next.inj (hu.symm.trans (exec_frameParse_of_error hcap hrun))
    refine ⟨fun hhalt => absurd hhalt (by rw [takeFault_halted]; nofun), fun f hf => ?_⟩
    obtain rfl := takeFault_reason_inj hf
    exact exec_frameDecode_of_error hx hdecode
  | ok c =>
    rw [hrun, ok_bind] at hdecode
    obtain rfl : u = frameCommit c (s.withFrame es) :=
      Host.Outcome.next.inj (hu.symm.trans (exec_frameParse_of_ok hcap hrun))
    have hc : ParserOf _ c := (parserOf_parseEntry _ _).frameRun hrun
    refine ⟨fun _ => ?_, fun f hf => ?_⟩
    · rw [exec_frameDecode_of_ok hx hdecode, decodeCommit_over hc.ne_noSync hc.trunc, decodeEntry_trunc hx,
        decodeEntry_buf hx]
      simp only [decide_eq_true_eq]
      rfl
    · have hhalt : (frameCommit c (s.withFrame es)).halted = false := hh
      rw [hf, takeFault_halted] at hhalt
      cases hhalt

/-! What a completed FRAME.DECODE did -/

theorem extracts_of_read {s : State} {n pos : Nat} {bits : List Bool} (hn : n ≤ s.params.nBits)
    (hread : memReadRange s.params.nBits s.bitIn 0 n = .ok bits)
    (hs : runSearch s.params.search bits 0 s.params.syncPattern = some pos)
    (hp : patternAt bits s.params.syncPattern pos = true) :
    Extracts s bits pos (runExtract s.params.extract bits (pos + s.params.syncExtractOffset)
      (bits.length - (pos + s.params.syncExtractOffset))) := by
  obtain ⟨hlen, hget⟩ := memReadRange_ok_iff.1 hread
  have hstands := patternAt_iff.1 hp
  exact ⟨by omega, fun j hj => by simpa using (hget j hj).2, hs, hstands.1, hstands.2, rfl⟩

/-- It ended in NoSync, or its parser ran to the end on the extracted bytes. -/
theorem frameDecode_ok_cases {s t : State} {n : Nat} (h : frameDecode n s = .ok t) :
    t.frameBuf = s.frameBuf ∨ ∃ bits pos es c, Extracts s bits pos es ∧
      frameRun s.params frameFuel (decodeEntry s bits pos) = .ok c ∧ t = decodeCommit c s := by
  obtain ⟨hn, bits, c, hread, hrun, rfl⟩ := frameDecode_ok_iff.1 h
  match hs : runSearch s.params.search bits 0 s.params.syncPattern with
  | none =>
    rw [frameRun_of_notFound rfl hs] at hrun
    cases hrun
    exact .inl rfl
  | some pos =>
    cases hp : patternAt bits s.params.syncPattern pos with
    | false =>
      rw [frameRun_of_not_patternAt rfl hs hp] at hrun
      cases hrun
    | true =>
      rw [frameRun_of_found rfl hs hp] at hrun
      exact .inr ⟨bits, pos, _, c, extracts_of_read hn hread hs hp, hrun, rfl⟩

/-- Settles O55: the commits write these elements, fault entry STATUS and FAULT; the parser keeps the extracted bytes. -/
theorem frameCommandsFrame : Obligations.FrameCommandsFrame := by
  constructor
  · intro s t n h
    rcases exec_next_iff.1 h with hc | ⟨r, -, rfl⟩
    · obtain ⟨-, c, -, rfl⟩ := frameParse_ok_iff.1 hc
      rfl
    · rfl
  · intro s t n h
    rcases exec_next_iff.1 h with hc | ⟨r, -, rfl⟩
    · constructor
      · obtain ⟨-, bits, c, -, -, rfl⟩ := frameDecode_ok_iff.1 hc
        rfl
      · intro hcap j hj
        obtain hbuf | ⟨bits, pos, es, c, hx, hrun, rfl⟩ := frameDecode_ok_cases hc
        · rw [hbuf]
        · have hparse : ParserOf _ c := (parserOf_decodeEntry s bits pos).frameRun hrun
          have hlen : c.n = min es.length s.params.frameCap := hparse.n.trans (decodeEntry_n hx)
          have hflen : (decodeCommit c s).flen.toNat = c.n := Nat.mod_eq_of_lt (by omega)
          rw [decodeCommit_of_entered hparse.ne_noSync]
          show Memory.get? c.buf j = _
          rw [hparse.buf]
          exact get?_decodeEntry_of_ge hx (by omega)
    · exact ⟨rfl, fun _ _ _ => rfl⟩

/-! Two blocks -/

/-- What two committed FRAME commands, from s to t and from s' to t', leave alike (R107). -/
structure SameOutcome (s s' t t' : State) : Prop where
  status : t.status = t'.status
  flen : t.flen = t'.flen
  fsm : t.fsm = t'.fsm
  crcIdx : t.crcIdx = t'.crcIdx
  recValid : t.recValid = t'.recValid
  record : t.recValid = true → t.record = t'.record
  out : ∃ evs, t.out = s.out ++ evs ∧ t'.out = s'.out ++ evs
  bytes : ∀ j, j < t.flen.toNat → Memory.get? t.frameBuf j = Memory.get? t'.frameBuf j
  fault : t.fault = s.fault
  fault' : t'.fault = s'.fault

/-- Two commands fault for the same reason, or both commit, with the same outcome. -/
inductive SameResult (s s' : State) : Except FaultReason State → Except FaultReason State → Prop
  | error (r : FaultReason) : SameResult s s' (.error r) (.error r)
  | ok {t t' : State} (h : SameOutcome s s' t t') : SameResult s s' (.ok t) (.ok t')

theorem SameResult.bind {s s' : State} {α : Type} (x : Except FaultReason α) {f g : α → Except FaultReason State}
    (h : ∀ a, x = .ok a → SameResult s s' (f a) (g a)) : SameResult s s' (x >>= f) (x >>= g) := by
  cases x with
  | error r => exact .error r
  | ok a => exact h a rfl

/-- The commits of a context on two inputs that agree in TRUNC and in the frame's bytes. -/
theorem sameOutcome_over {s s' : State} {c d : FrameCtx} {b b' : Memory Byte}
    (hsucc : c.recValid = true → c.fsm = .success)
    (hb : ∀ j, j < c.n → Memory.get? b j = Memory.get? b' j) (ht : d.trunc = c.trunc) :
    SameOutcome s s' { frameCommit c s with frameBuf := b } { frameCommit (c.over d) s' with frameBuf := b' } where
  status := by simp only [frameCommit_status, FrameCtx.over, ht]
  flen := rfl
  fsm := rfl
  crcIdx := rfl
  recValid := rfl
  record := fun hv => by
    have hf : c.fsm = .success := hsucc hv
    simp only [frameCommit_record, FrameCtx.over, if_pos hf]
  out := ⟨c.ev.toList, rfl, rfl⟩
  bytes := fun j hj => hb j (hj.trans_le (Nat.mod_le _ _))
  fault := rfl
  fault' := rfl

theorem frameParse_sameResult {s s' : State} (hp : s.params = s'.params) (hb : s.frameBuf = s'.frameBuf) (n : Nat) :
    SameResult s s' (frameParse n s) (frameParse n s') := by
  have hentry : parseEntry s' n = parseEntry s n := by simp only [parseEntry, frameEntry, hb]
  rw [frameParse, frameParse, ← parseEntry, ← parseEntry, hentry, ← hp]
  refine .bind _ fun _ _ => .bind _ fun c hrun => .ok ?_
  have hc : ParserOf _ c := (parserOf_parseEntry s n).frameRun hrun
  exact sameOutcome_over (d := c) (b := s.frameBuf) (b' := s'.frameBuf) hc.success (fun j _ => by rw [hb]) rfl

/-- The parsers of two blocks run alike on the same extracted bytes. -/
theorem frameDecode_sameResult_of_extracts {s s' : State} {bits : List Bool} {pos : Nat} {es : List Byte}
    (hp : s.params = s'.params) (hx : Extracts s bits pos es) (hx' : Extracts s' bits pos es) :
    SameResult s s' (frameDecode bits.length s) (frameDecode bits.length s') := by
  have hbytes (i : Nat) (hi : i < min es.length s.params.frameCap) :
      Memory.get? (decodeEntry s' bits pos).buf i = Memory.get? (decodeEntry s bits pos).buf i := by
    rw [get?_decodeEntry_of_lt hx hi, get?_decodeEntry_of_lt hx' (hp ▸ hi)]
  have hover : decodeEntry s' bits pos = (decodeEntry s bits pos).over (decodeEntry s' bits pos) := by
    rw [decodeEntry, decodeEntry, hp]
    rfl
  have hrun : frameRun s.params frameFuel (decodeEntry s' bits pos) =
      (frameRun s.params frameFuel (decodeEntry s bits pos) >>= fun c => .ok (c.over (decodeEntry s' bits pos))) := by
    rw [← frameRun_over (parserOf_decodeEntry s bits pos) fun i hi => hbytes i (decodeEntry_n hx ▸ hi), ← hover]
  rw [frameDecode_of_extracts hx, frameDecode_of_extracts hx', ← hp, hrun, bind_assoc]
  refine .bind _ fun c hok => ?_
  have hc : ParserOf _ c := (parserOf_decodeEntry s bits pos).frameRun hok
  have hn : c.n = min es.length s.params.frameCap := hc.n.trans (decodeEntry_n hx)
  rw [ok_bind, decodeCommit_of_entered hc.ne_noSync,
    decodeCommit_of_entered (c := c.over (decodeEntry s' bits pos)) hc.ne_noSync, hc.buf]
  refine .ok (sameOutcome_over hc.success (fun j hj => (hbytes j (hn ▸ hj)).symm) ?_)
  rw [hc.trunc, decodeEntry_trunc hx, decodeEntry_trunc hx', hp]

theorem frameDecode_sameResult {s s' : State} (hp : s.params = s'.params) (hb : s.bitIn = s'.bitIn) (n : Nat) :
    SameResult s s' (frameDecode n s) (frameDecode n s') := by
  by_cases hn : n ≤ s.params.nBits
  case neg =>
    rw [frameDecode_bounds (Nat.not_le.1 hn), frameDecode_bounds (hp ▸ Nat.not_le.1 hn)]
    exact .error _
  have hn' : n ≤ s'.params.nBits := hp ▸ hn
  cases hread : memReadRange s.params.nBits s.bitIn 0 n with
  | error r =>
    have hread' : memReadRange s'.params.nBits s'.bitIn 0 n = .error r := by rw [← hp, ← hb, hread]
    rw [frameDecode_of_read_error hn hread, frameDecode_of_read_error hn' hread']
    exact .error r
  | ok bits =>
    have hread' : memReadRange s'.params.nBits s'.bitIn 0 n = .ok bits := by rw [← hp, ← hb, hread]
    match hs : runSearch s.params.search bits 0 s.params.syncPattern with
    | none =>
      rw [frameDecode_of_read hn hread, frameDecode_of_read hn' hread', frameRun_of_notFound rfl hs,
        frameRun_of_notFound rfl (hp ▸ hs)]
      exact .ok (sameOutcome_over (c := { frameEntry s .searchingPreamble bits 0 with n := 0, fsm := .noSync })
        (d := frameEntry s' .searchingPreamble bits 0) nofun nofun rfl)
    | some pos =>
      cases hat : patternAt bits s.params.syncPattern pos with
      | false =>
        rw [frameDecode_of_read hn hread, frameDecode_of_read hn' hread', frameRun_of_not_patternAt rfl hs hat,
          frameRun_of_not_patternAt rfl (hp ▸ hs) (hp ▸ hat)]
        exact .error _
      | true =>
        obtain rfl : bits.length = n := (memReadRange_ok_iff.1 hread).1
        have hx := extracts_of_read hn hread hs hat
        exact frameDecode_sameResult_of_extracts hp hx (hp ▸ extracts_of_read hn' hread' (hp ▸ hs) (hp ▸ hat))

/-- Settles O54: fault entry leaves the same STATUS and FAULT, the commits the same outcome. -/
theorem frameOutcomeIndependent : Obligations.FrameOutcomeIndependent := by
  intro s s' t t' i hh hh' hp hi ht ht'
  have hsame : SameResult s s' (commitOf i s) (commitOf i s') := by
    rcases hi with ⟨n, rfl, hb⟩ | ⟨n, rfl, hb⟩
    · exact frameDecode_sameResult hp hb n
    · exact frameParse_sameResult hp hb n
  rw [exec_eq_finish] at ht ht'
  generalize commitOf i s = x at ht hsame
  generalize commitOf i s' = x' at ht' hsame
  cases hsame with
  | error r =>
    cases ht
    cases ht'
    exact ⟨rfl, .inl ⟨takeFault_halted _ _ _, takeFault_halted _ _ _, rfl⟩⟩
  | ok h =>
    cases ht
    cases ht'
    obtain ⟨hst, hflen, hfsm, hk, hv, hrec, hout, hbytes, hf, hf'⟩ := h
    exact ⟨hst, .inr ⟨(congrArg (fun f : Word => f.extractLsb' 0 8 != 0) hf).trans hh,
      (congrArg (fun f : Word => f.extractLsb' 0 8 != 0) hf').trans hh', hflen, hfsm, hk, hv, hrec, hout, hbytes⟩⟩

end Sys2Proof.Machine
end

section
/-! Faults and the halted block (60_exceptions.md R114 to R120): what fault entry writes, that no commit touches FAULT, what
a halted block still does, and which moves stop the model. -/

namespace Sys2Proof.Machine

open Sys2Proof

/-! The FAULT word -/

theorem State.halted_iff {s : State} : s.halted = true ↔ s.fault.extractLsb' 0 8 ≠ 0 := bne_iff_ne

theorem faultWord_opc (o : Byte) (r : FaultReason) : (faultWord o r).extractLsb' 8 8 = o := by
  simp only [faultWord]
  generalize r.code = c
  ext i hi
  simp [show 8 + i < 32 by omega, hi]

theorem faultWord_high (o : Byte) (r : FaultReason) : (faultWord o r).extractLsb' 16 16 = 0 := by
  simp only [faultWord]
  generalize r.code = c
  ext i hi
  simp [BitVec.getLsbD_of_ge c (16 + i) (by omega), BitVec.getLsbD_of_ge o (16 + i - 8) (by omega)]

/-- Settles O13: each reason has its code; the opcode and the code lie side by side in the FAULT word. -/
theorem faultEntryWords : Obligations.FaultEntryWords :=
  ⟨fun _ _ r => by cases r <;> rfl, fun s o r => ⟨faultWord_opc o r, faultWord_high o r, takeFault_halted s o r⟩⟩

/-! Precise faults -/

/-- A committed instruction leaves FAULT as it was. -/
theorem commitOf_fault {i : Instr} {s t : State} (h : commitOf i s = .ok t) : t.fault = s.fault := by
  cases i with
  | envDetect d n => obtain ⟨-, es, -, rfl⟩ := envDetect_ok_iff.1 h; rfl
  | lpfReset => obtain rfl := lpfReset_ok_iff.1 h; rfl
  | lpfFilter len => obtain ⟨-, ys, h', -, rfl⟩ := lpfFilter_ok_iff.1 h; rfl
  | fmReset => obtain rfl := fmReset_ok_iff.1 h; rfl
  | fmDemod n => obtain ⟨-, os, h', -, rfl⟩ := fmDemod_ok_iff.1 h; rfl
  | crcCompute off len init => obtain ⟨-, bs, -, rfl⟩ := crcCompute_ok_iff.1 h; rfl
  | crcVerify off len => obtain ⟨-, r, -, rfl⟩ := crcVerify_ok_iff.1 h; rfl
  | frameDecode nbits => obtain ⟨-, bits, c, -, -, rfl⟩ := frameDecode_ok_iff.1 h; rfl
  | frameParse nbytes => obtain ⟨-, c, -, rfl⟩ := frameParse_ok_iff.1 h; rfl

/-- An instruction that halts the block has ended in fault entry on the state it began with. -/
theorem eq_takeFault_of_exec_halts {i : Instr} {s t : State} (hs : s.halted = false) (h : exec i s = .next t)
    (ht : t.halted = true) : ∃ r, t = s.takeFault i.opc r := by
  rcases exec_next_iff.1 h with hc | ⟨r, -, he⟩
  · rw [State.halted, commitOf_fault hc, ← State.halted, hs] at ht
    cases ht
  · exact ⟨r, he⟩

/-- The opcode of a decoded instruction is the OPC field of its command. -/
theorem opc_of_decode {c : Command} {i : Instr} (h : decode c = .ok i) : i.opc = c.opc := by
  obtain ⟨op, hop, rfl⟩ := decode_eq_ok_iff.1 h
  rw [Instr.opc, assemble_opcode, hop.1]

/-- Settles O14: a command that halts had an illegal word, or executed to fault entry with the opcode of its word. -/
theorem faultsArePrecise : Obligations.FaultsArePrecise := by
  refine ⟨fun s t c rest hp hs h ht => ?_, fun i s t => eq_takeFault_of_exec_halts⟩
  cases hd : decode c with
  | ok i =>
    rw [step_of_decode_ok hp hs hd] at h
    rw [← opc_of_decode hd]
    exact eq_takeFault_of_exec_halts hs h ht
  | error e =>
    rw [step_of_decode_error hp hs hd] at h
    cases h
    exact ⟨.illegalCmd, rfl⟩

/-! The halted block -/

theorem step_of_empty_port {s : State} (hp : s.port = []) : step s = .next s := by
  rw [step, runPort, hp]

theorem step_command_of_halted {s : State} {c : Command} {rest : List HostMove} (hp : s.port = .command c :: rest)
    (hh : s.halted = true) : step s = .next { s with port := rest } := by
  have hr : ({ s with port := rest } : State).halted = true := hh
  rw [step_of_port hp, runMove, issue, if_pos hr]

/-- A step of a halted block keeps FAULT and STATUS, or it is the reset move (R120, R127). -/
theorem fault_status_of_halted_step {s t : State} (hh : s.halted = true) (h : step s = .next t) :
    (t.fault = s.fault ∧ t.status = s.status) ∨ (∃ rest, s.port = .reset :: rest ∧ t.fault = 0 ∧ t.status = 0) := by
  cases stepTo_of_step h with
  | illegal c rest hp hn ht => exact absurd hh (by simp [hn])
  | executed c i rest hp hn he => exact absurd hh (by simp [hn])
  | reset rest hp ht => subst ht; exact .inr ⟨rest, hp, rfl, rfl⟩
  | write w rest hp hw => rw [hostWrite_frame hw]; exact .inl ⟨rfl, rfl⟩
  | idle _ ht | ignored _ _ _ _ ht | read _ _ _ _ ht => subst ht; exact .inl ⟨rfl, rfl⟩

/-- Settles O8: a command is ignored; writes and reads do not look at FAULT, apart from a read of FAULT itself. -/
theorem haltedUntilReset : Obligations.HaltedUntilReset := by
  refine ⟨fun s c rest hp hf => step_command_of_halted hp (State.halted_iff.2 hf),
    fun s t hf => fault_status_of_halted_step (State.halted_iff.2 hf),
    fun s rest hp _ => ⟨_, step_of_port hp, rfl, rfl, rfl⟩, fun s w rest hp _ hr => ?_,
    fun s r v rest hp _ hne hv => ?_, fun s rest hp _ => step_read_of_ok hp rfl⟩
  · obtain ⟨t, hstep, hread, -, ht⟩ := (hostWriteThenRead.1 s w rest hp).1 hr
    exact ⟨t, hstep, hread, by rw [ht]⟩
  · rw [hostRead_fault hne] at hv
    exact step_read_of_ok hp hv

/-! The moves that stop the model -/

/-- A command issued answers a next state, whether it is ignored, illegal or executed. -/
theorem issue_next (c : Command) (s : State) : ∃ t, issue c s = .next t := by
  unfold issue
  split
  · exact ⟨_, rfl⟩
  · split
    · exact ⟨_, rfl⟩
    · exact exec_next _ s

theorem hostOutcome_fault_iff {r : Except Fault State} {f : Fault} : hostOutcome r = .fault f ↔ r = .error f := by
  cases r <;> simp [hostOutcome]

theorem hostOutcome_ne_refused (r : Except Fault State) (q : Refusal) : hostOutcome r ≠ .refused q := by
  cases r <;> exact nofun

/-- A host read as a move stops exactly where the read has no value. -/
theorem hostReadMove_error_iff {r : HostRead} {s : State} {f : Fault} :
    hostReadMove r s = .error f ↔ hostRead r s = .error f := bind_pure_error_iff

/-- Only a host write or a host read that has no result stops, with the reason it has none. -/
theorem access_of_runMove_fault {m : HostMove} {s : State} {f : Fault} (h : runMove m s = .fault f) :
    (∃ w, m = .write w ∧ hostWrite w s = .error f) ∨ (∃ r, m = .read r ∧ hostRead r s = .error f) := by
  cases m with
  | command c =>
    obtain ⟨t, ht⟩ := issue_next c s
    rw [runMove, ht] at h
    cases h
  | reset => cases h
  | write w => exact .inl ⟨w, rfl, hostOutcome_fault_iff.1 h⟩
  | read r => exact .inr ⟨r, rfl, hostReadMove_error_iff.1 (hostOutcome_fault_iff.1 h)⟩

theorem runMove_ne_refused (m : HostMove) (s : State) (q : Refusal) : runMove m s ≠ .refused q := by
  cases m with
  | command c =>
    obtain ⟨t, ht⟩ := issue_next c s
    rw [runMove, ht]
    exact nofun
  | reset => exact nofun
  | write w => exact hostOutcome_ne_refused _ q
  | read r => exact hostOutcome_ne_refused _ q

/-- Settles O12: a step is its first move, and a move stops only as a host access without a result. -/
theorem onlyHostAccessesStop : Obligations.OnlyHostAccessesStop := by
  constructor
  · intro s f h
    match hp : s.port with
    | [] => rw [step_of_empty_port hp] at h; cases h
    | m :: rest =>
      rw [step_of_port hp] at h
      refine ⟨rest, ?_⟩
      rcases access_of_runMove_fault h with ⟨w, rfl, hw⟩ | ⟨r, rfl, hr⟩
      · exact .inl ⟨w, rfl, hw⟩
      · exact .inr ⟨r, rfl, hr⟩
  · intro s q
    match hp : s.port with
    | [] => rw [step_of_empty_port hp]; exact nofun
    | m :: rest => rw [step_of_port hp]; exact runMove_ne_refused m _ q

end Sys2Proof.Machine
end

section
/-! A step without a move and the reset move (70_reset_and_hazards.md R127, R136), and a filter run on two pieces of its
input (R129). -/

namespace Sys2Proof.Machine

open Sys2Proof

/-- Settles O7: the step of an empty port is the state itself. -/
theorem emptyPortWaits : Obligations.EmptyPortWaits := fun _ => step_of_empty_port

/-- Settles O9: the reset move takes itself off the port and runs `State.applyReset` on the rest. -/
theorem resetMoveResets : Obligations.ResetMoveResets := fun _ _ hp => step_of_port hp

/-! The end of a piece -/

/-- An instruction that leaves the block running has committed. -/
theorem commitOf_ok_of_exec_not_halted {i : Instr} {s t : State} (h : exec i s = .next t) (ht : t.halted = false) :
    commitOf i s = .ok t := by
  rcases exec_next_iff.1 h with hc | ⟨r, -, rfl⟩
  · exact hc
  · rw [takeFault_halted] at ht
    cases ht

/-! The outputs of two pieces side by side -/

namespace Memory

variable {α : Type} {vs ws : List α} {i : Nat}

theorem get?_setRange_zero (m : Memory α) (h : i < vs.length) : get? (setRange m 0 vs) i = vs[i]? := by
  have hg := get?_setRange m (i := 0) vs h
  rwa [Nat.zero_add, ← List.getElem?_eq_getElem h] at hg

/-- The first part of a range reads as that part written alone, to any memory. -/
theorem get?_setRange_append_left (m m' : Memory α) (h : i < vs.length) :
    get? (setRange m 0 (vs ++ ws)) i = get? (setRange m' 0 vs) i := by
  have hi : i < (vs ++ ws).length := by rw [List.length_append]; omega
  rw [get?_setRange_zero m hi, get?_setRange_zero m' h, List.getElem?_append_left h]

/-- The second part of a range reads as that part written alone from 0 on, to any memory. -/
theorem get?_setRange_append_right (m m' : Memory α) (h : i < ws.length) :
    get? (setRange m 0 (vs ++ ws)) (vs.length + i) = get? (setRange m' 0 ws) i := by
  have hi : vs.length + i < (vs ++ ws).length := by rw [List.length_append]; omega
  rw [get?_setRange_zero m hi, get?_setRange_zero m' h, List.getElem?_append_right (Nat.le_add_right _ i),
    Nat.add_sub_cancel_left]

end Memory

/-! The second piece read where it stood -/

/-- Two elements inside a memory that hold the same read the same, wherever they stand. -/
theorem memRead_congr_of_lt {α : Type} {size i j : Nat} {m m' : Memory α} (hi : i < size) (hj : j < size)
    (h : Memory.get? m i = Memory.get? m' j) : memRead size m i = memRead size m' j := by
  rw [memRead, memRead, if_neg (Nat.not_le.2 hi), if_neg (Nat.not_le.2 hj), h]

/-! LPF.FILTER -/

/-- A loop over a samples and one over the b samples after them, moved to the start of a memory of their own, make one
loop over all a + b. -/
theorem lpfLoop_of_pieces {p : Params} {env second : Memory Half} {a b : Nat} {h h1 h2 : LpfHist} {ys zs : List Half}
    (hEnv : a + b ≤ p.nEnv) (hsecond : ∀ i, i < b → Memory.get? second i = Memory.get? env (a + i))
    (hys : lpfLoop p env 0 a h = .ok (ys, h1)) (hzs : lpfLoop p second 0 b h1 = .ok (zs, h2)) :
    lpfLoop p env 0 (a + b) h = .ok (ys ++ zs, h2) := by
  have hmoved : lpfLoop p env a b h1 = lpfLoop p second 0 b h1 := lpfLoop_congr fun k hk =>
    memRead_congr_of_lt (by omega) (by omega) (by rw [Nat.zero_add, hsecond k hk])
  rw [lpfLoop_add, hys, ok_bind, Nat.zero_add, hmoved, hzs, ok_bind, pure_eq_ok]

/-- Settles O26: both pieces commit, so their loops make the loop of the whole. -/
theorem lpfSplitEqualsWhole : Obligations.LpfSplitEqualsWhole := by
  intro s s1 s3 a b second hs hEnv hLpf hsecond h1 hh1 h3 hh3
  obtain ⟨⟨hv, ha, -, -⟩, ys, g1, hys, rfl⟩ := lpfFilter_ok_iff.1 (commitOf_ok_of_exec_not_halted h1 hh1)
  obtain ⟨-, zs, g3, hzs, rfl⟩ := lpfFilter_ok_iff.1 (commitOf_ok_of_exec_not_halted h3 hh3)
  have hall := lpfLoop_of_pieces hEnv hsecond hys hzs
  have hwhole := lpfFilter_ok_iff.2 ⟨⟨hv, Nat.le_add_right_of_le ha, hEnv, hLpf⟩, _, _, hall, rfl⟩
  refine ⟨_, finish_ok hwhole, hs, rfl, rfl, fun i hi => ?_, fun i hi => ?_⟩
  · exact Memory.get?_setRange_append_left _ _ (by rwa [lpfLoop_length hys])
  · rw [← lpfLoop_length hys]
    exact Memory.get?_setRange_append_right _ _ (by rwa [lpfLoop_length hzs])

/-! FM.DEMOD -/

/-- A loop over a pairs and one over the b pairs after them, moved to the start of a memory of their own, make one loop
over all a + b. -/
theorem fmLoop_of_pieces {p : Params} {iq second : Memory Byte} {a b : Nat} {h h1 h2 : FmHist} {os us : List Word}
    (hIq : 2 * (a + b) ≤ p.nIq) (hsecond : ∀ i, i < 2 * b → Memory.get? second i = Memory.get? iq (2 * a + i))
    (hos : fmLoop p iq 0 a h = .ok (os, h1)) (hus : fmLoop p second 0 b h1 = .ok (us, h2)) :
    fmLoop p iq 0 (a + b) h = .ok (os ++ us, h2) := by
  have hmoved : fmLoop p iq a b h1 = fmLoop p second 0 b h1 := fmLoop_congr fun k hk =>
    memRead_congr_of_lt (by omega) (by omega) (by rw [Nat.mul_zero, Nat.zero_add, hsecond k hk])
  rw [fmLoop_add, hos, ok_bind, Nat.zero_add, hmoved, hus, ok_bind, pure_eq_ok]

/-- Settles O33: both pieces commit, so their loops make the loop of the whole. -/
theorem fmSplitEqualsWhole : Obligations.FmSplitEqualsWhole := by
  intro s s1 s3 a b second hs hIq hFm hsecond h1 hh1 h3 hh3
  obtain ⟨⟨hv, -, -⟩, os, g1, hos, rfl⟩ := fmDemod_ok_iff.1 (commitOf_ok_of_exec_not_halted h1 hh1)
  obtain ⟨-, us, g3, hus, rfl⟩ := fmDemod_ok_iff.1 (commitOf_ok_of_exec_not_halted h3 hh3)
  have hall := fmLoop_of_pieces hIq hsecond hos hus
  have hwhole := fmDemod_ok_iff.2 ⟨⟨hv, hIq, hFm⟩, _, _, hall, rfl⟩
  refine ⟨_, finish_ok hwhole, hs, rfl, fun i hi => ?_, fun i hi => ?_⟩
  · exact Memory.get?_setRange_append_left _ _ (by rwa [fmLoop_length hos])
  · rw [← fmLoop_length hos]
    exact Memory.get?_setRange_append_right _ _ (by rwa [fmLoop_length hus])

end Sys2Proof.Machine
end
